-- ==== Sys2Proof/Word.lean ====
section
/-! DEFINITION. The word types of the block (spec/00_scope.md R13, R14): bytes, 16-bit movement fields and
stimulus words, 32-bit indices and timestamps. All arithmetic on them wraps. -/

namespace Sys2Proof

/-- `u8`: bytes, scancodes, characters, bitmasks (R13). -/
abbrev Byte := BitVec 8

/-- `i16` movement fields (R13). Read as two's complement. -/
abbrev Half := BitVec 16

/-- `u32`: queue indices, millisecond timestamps, timer periods (R13). -/
abbrev Word32 := BitVec 32

end Sys2Proof
end

