-- ==== Sys2Proof/Config.lean ====
section
/-! DEFINITION. The configuration record `cfg` of the block (spec/00_scope.md R9 to R12), the fixture the reset
state is built from, and the free value of the host timebase. -/

namespace Sys2Proof

/-- The mouse acquisition policies (R9, R258). -/
inductive Policy where
  | A
  | B
  | C
  deriving DecidableEq, Repr

/-- A translation table `u8 → u8` (R9) as plain data: (scancode, output) pairs, the first pair of a scancode counts,
a scancode that is not listed maps to 0, "no character" (R214). Log 22. -/
abbrev Table := List (Byte × Byte)

/-- The keymap tables and the altgr-in-use flag (R9). -/
structure Keymap where
  noshift      : Table
  shift        : Table
  noshiftcaps  : Table
  shiftcaps    : Table
  altgr        : Table
  numoff       : Table
  numon        : Table
  altgrInUse   : Bool
  deriving DecidableEq, Repr

/-- `NAV_CODE`: the output code of each navigation key (R12). -/
structure NavCodes where
  up      : Byte
  down    : Byte
  left    : Byte
  right   : Byte
  insert  : Byte
  delete  : Byte
  home    : Byte
  endKey  : Byte
  pgup    : Byte
  pgdn    : Byte
  kpenter : Byte
  kpslash : Byte
  deriving DecidableEq, Repr

/-- The configuration record (R9). Capacities are naturals because validation (R10) bounds them. -/
structure Cfg where
  capRxKbd   : Nat
  capTxKbd   : Nat
  capRxMouse : Nat
  capTxMouse : Nat
  policy     : Policy
  tResetMs   : Word32
  tIdentMs   : Word32
  tRateMs    : Word32
  tReadMs    : Word32
  tStartUs   : Word32
  tBitUs     : Word32
  tGapUs     : Word32
  km         : Keymap
  nav        : NavCodes
  deriving DecidableEq, Repr

namespace Config

/-- How far the host's millisecond timebase has moved, modulo 2^32, before the `n`-th read of it that no script line
fixes (R28, I15): a free value, never given a number. Log 4. -/
opaque hostDelta : Nat → Word32

/-- The test keymap `KM_T` of 95_test_vectors.md section 0. -/
def fixtureKeymap : Keymap where
  noshift     := [(0x1C, 0x61), (0x16, 0x31), (0x15, 0x71)]
  shift       := [(0x1C, 0x41), (0x16, 0x21), (0x15, 0x51)]
  noshiftcaps := [(0x1C, 0x41), (0x16, 0x31), (0x15, 0x51)]
  shiftcaps   := [(0x1C, 0x61), (0x16, 0x21), (0x15, 0x71)]
  altgr       := [(0x15, 0x40)]
  numoff      := []
  numon       := [(0x75, 0x38), (0x69, 0x31)]
  altgrInUse  := true

/-- The navigation codes of 95_test_vectors.md section 0. -/
def fixtureNav : NavCodes where
  up := 0x80
  down := 0x81
  left := 0x82
  right := 0x83
  insert := 0x84
  delete := 0x85
  home := 0x86
  endKey := 0x87
  pgup := 0x88
  pgdn := 0x89
  kpenter := 0x8A
  kpslash := 0x8B

/-- The fixture of 95_test_vectors.md section 0, which says the three microsecond periods are any nonzero values.
DESIGN CHOICE, unsafe for a claim about the reset state only: log 2. -/
def fixture : Cfg where
  capRxKbd := 8
  capTxKbd := 8
  capRxMouse := 8
  capTxMouse := 8
  policy := .C
  tResetMs := 500
  tIdentMs := 100
  tRateMs := 50
  tReadMs := 30
  tStartUs := 1
  tBitUs := 2
  tGapUs := 3
  km := fixtureKeymap
  nav := fixtureNav

end Config

end Sys2Proof
end

