-- ==== Sys2Proof/Syntax.lean ====
section
/-! DEFINITION. The instructions: one constructor per row of spec/opcode_table.json (30_encoding.md), the channels,
the execution contexts, and the codes an instruction is written in (one per column value "format" of the table). -/

namespace Sys2Proof

/-- The two channels; the `CH` bit of a stimulus word is 0 for `kbd` and 1 for `mouse` (R8, R130). -/
inductive Chan where
  | kbd
  | mouse
  deriving DecidableEq, Repr

/-- The execution contexts that issue stimuli (R7, R325). A callback runs in the interrupt context of its channel
(R324). -/
inductive Context where
  /-- the foreground -/
  | fg
  /-- the interrupt context of one channel -/
  | isr (ch : Chan)
  deriving DecidableEq, Repr

/-- One constructor per row of the opcode table. -/
inductive Instr where
  /-- `RESET` (R133, R340): construction. -/
  | reset
  /-- `EDGE` (R132, R141): a falling clock edge; `d` is the level of the data line at the handler's entry. -/
  | edge (ch : Chan) (d : Bool)
  /-- `TIMER` (R133, R148): expiry of the channel's timer. -/
  | timer (ch : Chan)
  /-- `KICK` (R133, R147): the kick handler. -/
  | kick (ch : Chan)
  /-- `PUSH_RX` (R134, R183): interrupt-side push onto the RX queue. -/
  | pushRx (ch : Chan) (b : Byte)
  /-- `POP_RX` (R134, R184): foreground pop of the RX queue. -/
  | popRx (ch : Chan)
  /-- `LEN_RX` (R134, R181). -/
  | lenRx (ch : Chan)
  /-- `FULL_RX` (R134, R182). -/
  | fullRx (ch : Chan)
  /-- `PUSH_TX` (R134, R183): foreground push onto the TX queue. -/
  | pushTx (ch : Chan) (b : Byte)
  /-- `POP_TX` (R134, R184): interrupt-side pop of the TX queue. -/
  | popTx (ch : Chan)
  /-- `LEN_TX` (R134, R181). -/
  | lenTx (ch : Chan)
  /-- `FULL_TX` (R134, R182). -/
  | fullTx (ch : Chan)
  /-- `EMIT` (R134, R190): blocking push onto the TX queue. -/
  | emit (ch : Chan) (b : Byte)
  /-- `GETSC` (R135, R201). -/
  | getsc
  /-- `PEEK` (R135, R216). -/
  | peek
  /-- `GETKEY` (R135, R217). -/
  | getkey
  /-- `LOCKS` (R135, R218). -/
  | locks
  /-- `CTRLS` (R135, R219). -/
  | ctrls
  /-- `SETLOCKS` (R135, R220). -/
  | setlocks (m : Byte)
  /-- `GETMOVE` (R136, R250). -/
  | getmove
  /-- `RESERVED_MAJ` (R137): `MAJ` 0x8 to 0xF; `lo` is bits 14:0 of the word. -/
  | reservedMaj (lo : BitVec 15)
  /-- `RESERVED_KBD_MIN` (R137): `KBD` with `MIN` 6 or 7; `lo` is bits 8:0 of the word. -/
  | reservedKbdMin (lo : BitVec 9)
  /-- `RESERVED_MOUSE_CH0` (R137): `MOUSE` with `CH = 0`; `lo` is bits 10:0 of the word. -/
  | reservedMouseCh0 (lo : BitVec 11)
  /-- `RXBYTE` (R139): the device sends `b` as a well-formed frame. -/
  | rxbyte (ch : Chan) (b : Byte)
  /-- `RXFRAME` (R139): a frame with explicit start, parity and stop bits. -/
  | rxframe (ch : Chan) (start : Bool) (b : Byte) (parity : Bool) (stop : Bool)
  /-- `TXCLOCK` (R139): the device clocks the transfer of `b`, the byte being sent, and answers with level `ack`. -/
  | txclock (ch : Chan) (b : Byte) (ack : Bool)
  /-- `SETTLE` (R139): `TIMER`, the expiry of the inter-frame gap. -/
  | settle (ch : Chan)
  /-- `PULSE` (R139): `TIMER`, the expiry of the start pulse. -/
  | pulse (ch : Chan)
  /-- `FRAME_D2H` (R101): a device-to-host frame on the wires of `ch`, data `d`, parity bit `p`. -/
  | frameD2H (ch : Chan) (d : Byte) (p : Bool)
  /-- `FRAME_H2D` (R103): a host-to-device transfer on the wires of `ch`, data `d`, parity bit `p`,
  acknowledgement level `a`. -/
  | frameH2D (ch : Chan) (d : Byte) (p : Bool) (a : Bool)
  /-- `MOUSE_STATUS` (R108): the status byte of a mouse packet, bit 3 set. -/
  | mouseStatus (yOverflow xOverflow ySign xSign : Bool) (btns : BitVec 3)
  /-- `LED_ARG` (R109): the argument byte of set-LEDs. -/
  | ledArg (caps num scroll : Bool)
  /-- `CMD_RESET` 0xFF (R105, R251). -/
  | cmdReset
  /-- `CMD_SET_RATE` 0xF3 (R105, R252). -/
  | cmdSetRate
  /-- `CMD_IDENTIFY` 0xF2 (R105, R255). -/
  | cmdIdentify
  /-- `CMD_ENABLE` 0xF4 (R105, R256). -/
  | cmdEnable
  /-- `CMD_READ_DATA` 0xEB (R105, R259). -/
  | cmdReadData
  /-- `CMD_SET_LEDS` 0xED (R105, R220). -/
  | cmdSetLeds
  /-- `RATE_200` 0xC8 (R106). -/
  | rate200
  /-- `RATE_100` 0x64 (R106). -/
  | rate100
  /-- `RATE_80` 0x50 (R106). -/
  | rate80
  /-- `REPLY_ACK` 0xFA (R107). -/
  | replyAck
  /-- `REPLY_SELFTEST` 0xAA (R107). -/
  | replySelftest
  /-- `REPLY_ID0_OR_RESET3` 0x00 (R107). -/
  | replyId0OrReset3
  /-- `REPLY_ID3` 0x03 (R107). -/
  | replyId3
  /-- `SC_EXT_PREFIX` 0xE0 (R202). -/
  | scExtPrefix
  /-- `SC_BRK_PREFIX` 0xF0 (R203). -/
  | scBrkPrefix
  /-- `SC_E1` 0xE1 (R224). -/
  | scE1
  deriving DecidableEq, Repr

/-- The bits an instruction is written in, tagged with the table's format. A byte alone does not say its format
(0x00 is an LED argument and a reply), so the tag is part of the code. The wire formats carry no channel field; the
channel is the pair of wires the frame travels on. Bit `k` of a wire code is frame position `k`. -/
inductive Code where
  /-- stimulus16 -/
  | stimulus (w : BitVec 16)
  /-- wire11 -/
  | wireD2H (ch : Chan) (bits : BitVec 11)
  /-- wire12 -/
  | wireH2D (ch : Chan) (bits : BitVec 12)
  /-- byte8 (MOUSE_STATUS and LED_ARG) -/
  | byte8 (b : Byte)
  /-- host_cmd8 -/
  | hostCmd (b : Byte)
  /-- host_arg8 -/
  | hostArg (b : Byte)
  /-- device_reply8 -/
  | deviceReply (b : Byte)
  /-- scancode8 -/
  | scancode (b : Byte)
  deriving DecidableEq, Repr

end Sys2Proof
end

