-- ==== Sys2Proof/Decode.lean ====
section
/-! DEFINITION. The decoder from codes to instructions, total, rejecting by name, what a code that no row lists does, and
the encoder written from the same tables (spec/30_encoding.md R100 to R139). Also the odd parity of R102 and the
expansions of R139. -/

namespace Sys2Proof

/-- `odd_parity(d)` (R102). -/
def oddParity (d : Byte) : Bool :=
  true ^^ d.getLsbD 0 ^^ d.getLsbD 1 ^^ d.getLsbD 2 ^^ d.getLsbD 3 ^^ d.getLsbD 4 ^^ d.getLsbD 5 ^^ d.getLsbD 6
    ^^ d.getLsbD 7

/-- The `CH` bit (R130). -/
def Chan.bit : Chan → BitVec 1
  | .kbd => 0
  | .mouse => 1

/-- The channel a `CH` bit names (R130). -/
def Chan.ofBit (b : Bool) : Chan :=
  if b then .mouse else .kbd

/-- Why a code names no instruction. -/
inductive Reject where
  /-- a field that R132 to R136 say must be 0 is not 0 -/
  | mustBeZero
  /-- `KBD` with `CH = 1` (R137) -/
  | kbdChannel
  /-- `MOUSE` with `MIN` not 0 (R137) -/
  | mouseMinor
  /-- a byte that the format's rows do not list -/
  | unlistedByte
  /-- wire bits with a wrong start, parity or stop position (R101, R103) -/
  | badFrame
  deriving DecidableEq, Repr

/-- What the decoder answers. -/
inductive Decoded where
  | ok (i : Instr)
  | reject (r : Reject)
  deriving DecidableEq, Repr

/-- The decoded instruction if the check holds, the rejection otherwise. -/
def Decoded.when (c : Bool) (i : Instr) (r : Reject := .mustBeZero) : Decoded :=
  if c then .ok i else .reject r

/-- `QOP` words (R134): `MIN[2]` selects the queue, `MIN[1:0]` the operation. -/
def decodeQop (ch : Chan) (mn : Nat) (imm : Byte) : Decoded :=
  match mn with
  | 0 => .ok (.pushRx ch imm)
  | 1 => .when (imm = 0) (.popRx ch)
  | 2 => .when (imm = 0) (.lenRx ch)
  | 3 => .when (imm = 0) (.fullRx ch)
  | 4 => .ok (.pushTx ch imm)
  | 5 => .when (imm = 0) (.popTx ch)
  | 6 => .when (imm = 0) (.lenTx ch)
  | _ => .when (imm = 0) (.fullTx ch)

/-- `KBD` words with `CH = 0` and `MIN` 0 to 5 (R135). -/
def decodeKbd (mn : Nat) (imm : Byte) : Decoded :=
  match mn with
  | 0 => .when (imm = 0) .getsc
  | 1 => .when (imm = 0) .peek
  | 2 => .when (imm = 0) .getkey
  | 3 => .when (imm = 0) .locks
  | 4 => .when (imm = 0) .ctrls
  | _ => .ok (.setlocks imm)

/-- Stimulus words (R130 to R137): `MAJ[15:12] CH[11] MIN[10:8] IMM[7:0]`. -/
def decodeStimulus (w : BitVec 16) : Decoded :=
  let c := w.getLsbD 11
  let ch := Chan.ofBit c
  let mn := (w.extractLsb' 8 3).toNat
  let imm := w.extractLsb' 0 8
  match (w.extractLsb' 12 4).toNat with
  | 0 => .when (w = 0) .reset
  | 1 => .when (mn = 0 && imm.extractLsb' 1 7 = 0) (.edge ch (imm.getLsbD 0))
  | 2 => .when (mn = 0 && imm = 0) (.timer ch)
  | 3 => .when (mn = 0 && imm = 0) (.kick ch)
  | 4 => decodeQop ch mn imm
  | 5 => .when (mn = 0) (.emit ch imm)
  | 6 =>
    if c then .reject .kbdChannel
    else if 6 ≤ mn then .ok (.reservedKbdMin (w.extractLsb' 0 9))
    else decodeKbd mn imm
  | 7 =>
    if !c then .ok (.reservedMouseCh0 (w.extractLsb' 0 11))
    else if mn = 0 then .when (imm = 0) .getmove
    else .reject .mouseMinor
  | _ => .ok (.reservedMaj (w.extractLsb' 0 15))

/-- The 11 positions of a device-to-host frame (R101): start 0, data, odd parity, stop 1. -/
def decodeD2H (ch : Chan) (bits : BitVec 11) : Decoded :=
  let d := bits.extractLsb' 1 8
  let p := bits.getLsbD 9
  .when (!bits.getLsbD 0 && p == oddParity d && bits.getLsbD 10) (.frameD2H ch d p) .badFrame

/-- The 12 positions of a host-to-device transfer (R103, R104): start 0, data, odd parity, stop (released, 1),
acknowledgement. -/
def decodeH2D (ch : Chan) (bits : BitVec 12) : Decoded :=
  let d := bits.extractLsb' 1 8
  let p := bits.getLsbD 9
  .when (!bits.getLsbD 0 && p == oddParity d && bits.getLsbD 10) (.frameH2D ch d p (bits.getLsbD 11)) .badFrame

/-- byte8 rows: `YXyx1bbb` (R108) and `00000cns` (R109). -/
def decodeByte8 (b : Byte) : Decoded :=
  if b.getLsbD 3 then
    .ok (.mouseStatus (b.getLsbD 7) (b.getLsbD 6) (b.getLsbD 5) (b.getLsbD 4) (b.extractLsb' 0 3))
  else .when (b.extractLsb' 3 5 = 0) (.ledArg (b.getLsbD 2) (b.getLsbD 1) (b.getLsbD 0)) .unlistedByte

/-- host_cmd8 rows (R105). -/
def decodeHostCmd (b : Byte) : Decoded :=
  match b.toNat with
  | 0xFF => .ok .cmdReset
  | 0xF3 => .ok .cmdSetRate
  | 0xF2 => .ok .cmdIdentify
  | 0xF4 => .ok .cmdEnable
  | 0xEB => .ok .cmdReadData
  | 0xED => .ok .cmdSetLeds
  | _ => .reject .unlistedByte

/-- host_arg8 rows (R106). -/
def decodeHostArg (b : Byte) : Decoded :=
  match b.toNat with
  | 0xC8 => .ok .rate200
  | 0x64 => .ok .rate100
  | 0x50 => .ok .rate80
  | _ => .reject .unlistedByte

/-- device_reply8 rows (R107). -/
def decodeReply (b : Byte) : Decoded :=
  match b.toNat with
  | 0xFA => .ok .replyAck
  | 0xAA => .ok .replySelftest
  | 0x00 => .ok .replyId0OrReset3
  | 0x03 => .ok .replyId3
  | _ => .reject .unlistedByte

/-- scancode8 rows (R120, R123). -/
def decodeScancode (b : Byte) : Decoded :=
  match b.toNat with
  | 0xE0 => .ok .scExtPrefix
  | 0xF0 => .ok .scBrkPrefix
  | 0xE1 => .ok .scE1
  | _ => .reject .unlistedByte

/-- The decoder. -/
def decode : Code → Decoded
  | .stimulus w => decodeStimulus w
  | .wireD2H ch bits => decodeD2H ch bits
  | .wireH2D ch bits => decodeH2D ch bits
  | .byte8 b => decodeByte8 b
  | .hostCmd b => decodeHostCmd b
  | .hostArg b => decodeHostArg b
  | .deviceReply b => decodeReply b
  | .scancode b => decodeScancode b

/-- The instruction of a decoding, if it is one. -/
def Decoded.toOption : Decoded → Option Instr
  | .ok i => some i
  | .reject _ => none

/-! ## Codes that no row lists -/

/-- What a code that no row of its format lists does: a stimulus word is reserved and refused (R26, R137); wire levels
and bytes have the effect the rules give them, as the instruction named, or as one decode step of the byte. Log 17. -/
inductive Unlisted where
  | reserved
  | runs (i : Instr)
  | decodes (b : Byte)
  deriving DecidableEq, Repr

/-- The effect of an unlisted code. The edge handler takes any levels (R142 to R146) and reads none of positions 1 to 10
of a send (R152 to R154); "no byte value is illegal" on the wire (R125), and a packet's status byte is not checked
(R275); `emit` and `decode_byte` take any byte (R190, R122). Log 17. -/
def Code.unlisted : Code → Unlisted
  | .stimulus _ => .reserved
  | .wireD2H ch bits =>
    .runs (.rxframe ch (bits.getLsbD 0) (bits.extractLsb' 1 8) (bits.getLsbD 9) (bits.getLsbD 10))
  | .wireH2D ch bits => .runs (.frameH2D ch (bits.extractLsb' 1 8) (bits.getLsbD 9) (bits.getLsbD 11))
  | .byte8 b => .runs (.rxbyte .mouse b)
  | .deviceReply b => .runs (.rxbyte .mouse b)
  | .hostCmd b => .runs (.emit .mouse b)
  | .hostArg b => .runs (.emit .mouse b)
  | .scancode b => .decodes b

/-! ## Words of the opcode table -/

/-- The first of the codes that decodes, `dflt` if none does. -/
def firstCode (dflt : Code) : List Code → Code
  | [] => dflt
  | c :: cs => if (decode c).toOption.isSome then c else firstCode dflt cs

/-- The code of `nbits` bits numbered as the opcode table numbers them. A byte is tried in the byte formats in the
table's order of specificity (the exact bytes before the two field patterns), since a bare byte carries no format; a word
of another width is a stimulus word. Log 16. -/
def tableCode (nbits w : Nat) : Code :=
  match nbits with
  | 8 =>
    let b : Byte := BitVec.ofNat 8 w
    firstCode (.byte8 b) [.hostCmd b, .hostArg b, .deviceReply b, .scancode b]
  | _ => .stimulus (BitVec.ofNat 16 w)

/-- The instruction the decoder reads from a table word. -/
def decodeTableWord (nbits w : Nat) : Option Instr :=
  (decode (tableCode nbits w)).toOption

/-! ## The encoder -/

/-- A stimulus word from its fields (R130). -/
def stimulusWord (maj : BitVec 4) (ch : BitVec 1) (mn : BitVec 3) (imm : Byte) : BitVec 16 :=
  maj ++ ch ++ mn ++ imm

/-- One bit as a vector. -/
def bit1 (b : Bool) : BitVec 1 := BitVec.ofBool b

/-- The levels of an 11-position frame in order (R101, R139): `s, b[0..7], p, t`. -/
def frameLevels (s : Bool) (b : Byte) (p t : Bool) : List Bool :=
  [s, b.getLsbD 0, b.getLsbD 1, b.getLsbD 2, b.getLsbD 3, b.getLsbD 4, b.getLsbD 5, b.getLsbD 6, b.getLsbD 7, p, t]

/-- The stimuli a pseudo-stimulus expands to (R139); any other instruction is its own expansion. -/
def expand : Instr → List Instr
  | .rxbyte ch b => (frameLevels false b (oddParity b) true).map (.edge ch)
  | .rxframe ch s b p t => (frameLevels s b p t).map (.edge ch)
  | .txclock ch b a => (frameLevels false b (oddParity b) a).map (.edge ch)
  | .settle ch => [.timer ch]
  | .pulse ch => [.timer ch]
  | i => [i]

/-- The one code of an instruction that has its own; `none` for the five pseudo-stimuli, which are written as their
expansions. -/
def encodeOne : Instr → Option Code
  | .reset => some (.stimulus (stimulusWord 0x0 0 0 0))
  | .edge ch d => some (.stimulus (stimulusWord 0x1 ch.bit 0 ((0 : BitVec 7) ++ bit1 d)))
  | .timer ch => some (.stimulus (stimulusWord 0x2 ch.bit 0 0))
  | .kick ch => some (.stimulus (stimulusWord 0x3 ch.bit 0 0))
  | .pushRx ch b => some (.stimulus (stimulusWord 0x4 ch.bit 0 b))
  | .popRx ch => some (.stimulus (stimulusWord 0x4 ch.bit 1 0))
  | .lenRx ch => some (.stimulus (stimulusWord 0x4 ch.bit 2 0))
  | .fullRx ch => some (.stimulus (stimulusWord 0x4 ch.bit 3 0))
  | .pushTx ch b => some (.stimulus (stimulusWord 0x4 ch.bit 4 b))
  | .popTx ch => some (.stimulus (stimulusWord 0x4 ch.bit 5 0))
  | .lenTx ch => some (.stimulus (stimulusWord 0x4 ch.bit 6 0))
  | .fullTx ch => some (.stimulus (stimulusWord 0x4 ch.bit 7 0))
  | .emit ch b => some (.stimulus (stimulusWord 0x5 ch.bit 0 b))
  | .getsc => some (.stimulus (stimulusWord 0x6 0 0 0))
  | .peek => some (.stimulus (stimulusWord 0x6 0 1 0))
  | .getkey => some (.stimulus (stimulusWord 0x6 0 2 0))
  | .locks => some (.stimulus (stimulusWord 0x6 0 3 0))
  | .ctrls => some (.stimulus (stimulusWord 0x6 0 4 0))
  | .setlocks m => some (.stimulus (stimulusWord 0x6 0 5 m))
  | .getmove => some (.stimulus (stimulusWord 0x7 1 0 0))
  | .reservedMaj lo => some (.stimulus ((1 : BitVec 1) ++ lo))
  | .reservedKbdMin lo => some (.stimulus ((0x33 : BitVec 7) ++ lo))
  | .reservedMouseCh0 lo => some (.stimulus ((0x0E : BitVec 5) ++ lo))
  | .rxbyte _ _ => none
  | .rxframe _ _ _ _ _ => none
  | .txclock _ _ _ => none
  | .settle _ => none
  | .pulse _ => none
  | .frameD2H ch d p => some (.wireD2H ch (bit1 true ++ bit1 p ++ d ++ bit1 false))
  | .frameH2D ch d p a => some (.wireH2D ch (bit1 a ++ bit1 true ++ bit1 p ++ d ++ bit1 false))
  | .mouseStatus yo xo ys xs b => some (.byte8 (bit1 yo ++ bit1 xo ++ bit1 ys ++ bit1 xs ++ bit1 true ++ b))
  | .ledArg c n s => some (.byte8 ((0 : BitVec 5) ++ bit1 c ++ bit1 n ++ bit1 s))
  | .cmdReset => some (.hostCmd 0xFF)
  | .cmdSetRate => some (.hostCmd 0xF3)
  | .cmdIdentify => some (.hostCmd 0xF2)
  | .cmdEnable => some (.hostCmd 0xF4)
  | .cmdReadData => some (.hostCmd 0xEB)
  | .cmdSetLeds => some (.hostCmd 0xED)
  | .rate200 => some (.hostArg 0xC8)
  | .rate100 => some (.hostArg 0x64)
  | .rate80 => some (.hostArg 0x50)
  | .replyAck => some (.deviceReply 0xFA)
  | .replySelftest => some (.deviceReply 0xAA)
  | .replyId0OrReset3 => some (.deviceReply 0x00)
  | .replyId3 => some (.deviceReply 0x03)
  | .scExtPrefix => some (.scancode 0xE0)
  | .scBrkPrefix => some (.scancode 0xF0)
  | .scE1 => some (.scancode 0xE1)

/-- The codes of an instruction, in order: those of its expansion. -/
def encode (i : Instr) : List Code :=
  (expand i).filterMap encodeOne

end Sys2Proof
end

