-- ==== Sys2Proof/Machine/State.lean ====
section
/-! DEFINITION. The state of the block as plain data (spec/10_state.md R30 to R62), the observation of R27, the
foreground operation in progress (20_memory.md R80, 60_exceptions.md R322), the tape of stimuli to come, the reasons a
step can stop, and the state right after reset (70_reset_and_hazards.md R340 to R344). -/

namespace Sys2Proof.Machine

open Sys2Proof

/-! ## Channel records -/

/-- `ch.status` (R33). The reserved values 5 to 7 cannot be represented: log 6. -/
inductive Status where
  | passive
  | receiving
  | sendRequested
  | sending
  | postSettle
  deriving DecidableEq, Repr

/-- A host output latch: released to pulled-up high, or driven low (R17, R39). -/
inductive Latch where
  | rel
  | low
  deriving DecidableEq, Repr

/-- The pins of the Hardware Line Interface (R17, R40). -/
inductive Pin where
  | clk (ch : Chan)
  | data (ch : Chan)
  deriving DecidableEq, Repr

/-- The channel record `ch.*` (R33 to R39), with the period last armed of the channel's one-shot timer (R18;
log 19). -/
structure Channel where
  status      : Status
  bitcnt      : BitVec 4
  shift       : Byte
  parity      : Bool
  timerArmed  : Bool
  timerPeriod : Word32
  err         : Bool
  clkOut      : Latch
  dataOut     : Latch
  deriving DecidableEq, Repr

/-- The reset values of R341. The timer period is DESIGN CHOICE 0: log 19. -/
def Channel.reset : Channel where
  status := .passive
  bitcnt := 0
  shift := 0x00
  parity := true
  timerArmed := false
  timerPeriod := 0
  err := false
  clkOut := .rel
  dataOut := .rel

/-! ## Byte queues -/

/-- A queue buffer: slot and byte, slots strictly rising, no byte equal to what an unlisted slot reads as
(`Memory.wf`). -/
abbrev Memory := List Host.Cell

/-- A byte queue (R42): capacity, buffer, write index, read index. -/
structure Queue where
  cap : Word32
  buf : Memory
  w   : Word32
  r   : Word32
  deriving DecidableEq, Repr

/-- A queue after construction (R193, R340): both indices 0, no byte written. -/
def Queue.empty (cap : Nat) : Queue where
  cap := BitVec.ofNat 32 cap
  buf := []
  w := 0
  r := 0

/-- Names one of the four queues (R42). -/
inductive QSel where
  | rx (ch : Chan)
  | tx (ch : Chan)
  deriving DecidableEq, Repr

/-- What R30(a) gives each channel: its record, its two queues and its kick latch (R58). -/
structure Port where
  chn      : Channel
  rx       : Queue
  tx       : Queue
  kickPend : Bool
  deriving DecidableEq, Repr

/-- A port after construction (R340). -/
def Port.reset (capRx capTx : Nat) : Port where
  chn := Channel.reset
  rx := Queue.empty capRx
  tx := Queue.empty capTx
  kickPend := false

/-! ## Keyboard decode state -/

/-- `kb.*` (R45 to R47). -/
structure Kb where
  mods       : Byte
  locks      : Byte
  cache      : Byte
  cacheValid : Bool
  deriving DecidableEq, Repr

/-- `decoder_reset()` values (R343). -/
def Kb.reset : Kb where
  mods := 0x00
  locks := 0x00
  cache := 0x00
  cacheValid := false

/-! ## Mouse negotiation state -/

/-- `ms.stage` (R52). The reserved values 9 to 15 cannot be represented: log 6. -/
inductive Stage where
  | U
  | RST
  | SR1
  | SR2
  | SR3
  | ID
  | ENA
  | POLL
  | STREAM
  deriving DecidableEq, Repr

/-- `ms.psize` (R53): 3 or 4. No other size can be represented: log 6. -/
inductive PSize where
  | three
  | four
  deriving DecidableEq, Repr

/-- A movement: the accumulator `ms.acc` (R56), a decoded packet (R266) and a `MouseEvent` (R250) have these four
fields. `x`, `y`, `z` are `i16`. -/
structure Move where
  x    : Half
  y    : Half
  z    : Half
  btns : Byte
  deriving DecidableEq, Repr

/-- `(0, 0, 0, 0)`. -/
def Move.zero : Move where
  x := 0
  y := 0
  z := 0
  btns := 0

/-- `ms.*` (R52 to R57). -/
structure Ms where
  stage    : Stage
  psize    : PSize
  ts       : Word32
  lastLen  : Word32
  acc      : Move
  prevBtns : Byte
  deriving DecidableEq, Repr

/-- `engine_reset()` values (R343). -/
def Ms.reset : Ms where
  stage := .U
  psize := .three
  ts := 0
  lastLen := 0
  acc := Move.zero
  prevBtns := 0

/-! ## Observation (R27) -/

/-- A value an operation returns. -/
inductive Ret where
  /-- an operation without a result returned (`emit`, `set_locks`) -/
  | unit
  /-- `push`, `is_full`, `key_peek` -/
  | bool (b : Bool)
  /-- `pop`, `get_scancode`, `get_key`, `decode_byte` -/
  | byte (o : Option Byte)
  /-- `len` -/
  | len (n : Word32)
  /-- `lock_status`, `ctrl_status` -/
  | mask (m : Byte)
  /-- `get_move` -/
  | move (o : Option Move)
  deriving DecidableEq, Repr

/-- The notifications of R310, with the information each records. -/
inductive Note where
  | overflow (ch : Chan)
  | frameError (ch : Chan)
  | timeout (ch : Chan) (left : Stage)
  | protocolViolation (ch : Chan) (left : Stage)
  deriving DecidableEq, Repr

/-- Line-latch writes and byte transfers (R27; log 5). -/
inductive WireEvent where
  /-- a write of a host output latch by `set_line` or `clear_line` -/
  | latch (pin : Pin) (level : Latch)
  /-- a device-to-host frame completed with this byte and error flag (R145) -/
  | received (ch : Chan) (b : Byte) (err : Bool)
  /-- a host-to-device transfer of this byte completed with this error flag (R155) -/
  | sent (ch : Chan) (b : Byte) (err : Bool)
  deriving DecidableEq, Repr

/-! ## The foreground operation in progress (R80, R322)

An operation is a sequence of queue micro-steps and timebase reads with foreground-private computation between them.
`Task` is the micro-step to run next together with what its result is for; it is the foreground's "next micro-step,
with all its local values intact". -/

/-- Foreground operations that the application calls. -/
inductive FgOp where
  /-- `pop(RXQ[ch])` (R184) -/
  | popRx (ch : Chan)
  /-- `len(Q)` (R181) -/
  | len (q : QSel)
  /-- `is_full(Q)` (R182) -/
  | full (q : QSel)
  /-- `push(TXQ[ch], b)` (R183) -/
  | pushTx (ch : Chan) (b : Byte)
  /-- `emit(ch, b)` (R190) -/
  | emit (ch : Chan) (b : Byte)
  /-- `get_scancode()` (R201) -/
  | getScancode
  /-- `key_peek()` (R216) -/
  | keyPeek
  /-- `get_key()` (R217) -/
  | getKey
  /-- `lock_status()` (R218) -/
  | lockStatus
  /-- `ctrl_status()` (R219) -/
  | ctrlStatus
  /-- `set_locks(m)` (R220) -/
  | setLocks (m : Byte)
  /-- `get_move()` (R250) -/
  | getMove
  /-- `decode_byte(c)` (R215) -/
  | decodeByte (c : Byte)
  deriving DecidableEq, Repr

/-- An operation that the application has called and that has not begun: the operation, and the value that an `@t=N`
line before it fixes for its reads of the timebase (R138). -/
structure Call where
  op   : FgOp
  time : Option Word32
  deriving DecidableEq, Repr

/-- What follows `send`'s `ms.ts <- now()` (R271). -/
inductive SendThen where
  /-- `ms.stage <- st; return None` -/
  | toStage (st : Stage)
  /-- the loop of Policy A (R259) -/
  | pollA
  /-- `return report_ab(p)` (R260), the packet `p` being in `ms.acc` (R56) -/
  | reportB
  deriving DecidableEq, Repr

/-- What follows the last byte of a sequence of `emit`s. -/
inductive After where
  /-- return without a value -/
  | ret
  /-- return `None`: the end of a lock key's decode step (R208, R215) -/
  | retNone
  /-- go on with the decode loop (R208, R221); `peek` says whether `key_peek` or `get_key` runs it -/
  | nextChar (peek : Bool)
  /-- `ms.ts <- now()` (R271) -/
  | stamp (t : SendThen)
  deriving DecidableEq, Repr

/-- What follows a drain (R189). -/
inductive DrainThen where
  /-- stage `U` (R251) -/
  | start
  /-- resynchronisation (R261) -/
  | resync
  deriving DecidableEq, Repr

/-- What the result of a `len` read is for. -/
inductive LenK where
  /-- return it (R181) -/
  | ret
  /-- return whether the queue is full (R182) -/
  | retFull
  /-- the count of a drain (R189) -/
  | drain (t : DrainThen)
  /-- the reply check of `await` (R269) and of stage `ID` (R256) -/
  | reply
  /-- the packet check of Policies A and B (R259, R260) -/
  | poll
  /-- activity tracking (R261) -/
  | stream
  /-- the packet count (R262) -/
  | count
  /-- `ms.last_len` after a resynchronisation drain (R261) -/
  | resynced
  /-- `ms.last_len` after a report (R262) -/
  | reported (ev : Move)
  deriving DecidableEq, Repr

/-- What the result of a `pop` is for. -/
inductive PopK where
  /-- return it (R184, R201) -/
  | ret
  /-- the decode loop (R221) -/
  | nextChar (peek : Bool)
  /-- a drain with `left` pops to go after this one (R189) -/
  | drain (left : Nat) (t : DrainThen)
  /-- a reply byte; `got` are those before it (R256, R269) -/
  | reply (got : List Byte)
  /-- the acknowledgement before a packet (R259, R260) -/
  | pollAck
  /-- a packet byte of Policies A and B -/
  | pollPkt (got : List Byte)
  /-- a packet byte of Policy C, with `left` packets to go after this one (R262) -/
  | stream (left : Nat) (got : List Byte)
  deriving DecidableEq, Repr

/-- What the result of a `push` is for. -/
inductive PushK where
  /-- return it (R183) -/
  | ret
  /-- a blocking push (R190); `rest` are the bytes to emit after it -/
  | emit (rest : List Byte) (after : After)
  deriving DecidableEq, Repr

/-- What a read of the timebase is for. -/
inductive NowK where
  /-- `ms.ts <- now()` (R257, R271) -/
  | stamp (t : SendThen)
  /-- `expired(T)` of a reply stage (R256, R269) -/
  | replyDeadline
  /-- `expired(T_READ_MS)` of stage `POLL` (R259, R260) -/
  | pollDeadline
  /-- `ms.ts <- now(); ms.last_len <- L` (R261) -/
  | seen (L : Word32)
  /-- `expired(T_READ_MS)` of stage `STREAM` (R261) -/
  | resyncDeadline
  /-- `ms.ts <- now()` after a resynchronisation drain (R261) -/
  | resynced
  deriving DecidableEq, Repr

/-- Which micro-step of a `pop` is next (R80). -/
inductive PopPhase where
  | readW
  | readSlot
  | publish (b : Byte)
  deriving DecidableEq, Repr

/-- Which micro-step of a `push` is next (R80). -/
inductive PushPhase where
  | readR
  | writeSlot
  | publish
  deriving DecidableEq, Repr

/-- The foreground's next micro-step and its local values. -/
inductive Task where
  | len (q : QSel) (k : LenK)
  | pop (ph : PopPhase) (q : QSel) (k : PopK)
  | push (ph : PushPhase) (q : QSel) (b : Byte) (k : PushK)
  | now (k : NowK)
  deriving DecidableEq, Repr

/-! ## The tape (log 1) -/

/-- One input of the outside world: a stimulus, a script line, or a choice of the scheduler. -/
inductive Input where
  /-- a code, issued by the agent that owns the operation (R131), or by the context named -/
  | code (issuer : Option Context) (c : Code)
  /-- a script line (R138); the five pseudo-stimuli (R139) are lines without a word of their own, and a frame line may
  carry any parity bit (R146, R312) -/
  | line (i : Instr)
  /-- `@t=N` (R138): now() returns `N` for the next foreground stimulus -/
  | time (t : Word32)
  /-- the application calls the foreground operation that the code names; none of its micro-steps has run yet -/
  | call (c : Code)
  /-- the scheduler picks the foreground: one micro-step (R80) -/
  | fg
  deriving DecidableEq, Repr

/-! ## Why a step stops -/

/-- Faults: states that the rules exclude. Each is safe: the machine stops where no run of the block arrives. -/
inductive Fault where
  /-- raised by the edge, timer and kick handlers when `ch.bitcnt` is outside the range that `ch.status` allows
  (R164, I7: "A model that does not prove it must fault"). Safe. -/
  | illegalPosition (ch : Chan)
  /-- raised by GETMOVE in stage `POLL` under Policy C, which R258 says is never entered. Safe: log 21. -/
  | pollUnderPolicyC
  /-- raised by GETMOVE when a reply byte or packet byte that `len` counted is not there, which R43 and R44 exclude.
  Safe: log 20. -/
  | countedPopEmpty
  /-- raised by GETMOVE when a reply is complete in a stage that awaits none; no rule leads there. Safe: log 20. -/
  | strayReply
  deriving DecidableEq, Repr

/-- Refusals. Each is safe: the model gives the stimulus no meaning. -/
inductive Refusal where
  /-- an instruction that has no meaning yet; raised in Dispatch.lean only -/
  | notModelled (mnemonic : String)
  /-- a reserved stimulus word (R26, R137); raised by the three RESERVED rows, and by the step for the reserved words that
  no row lists. Safe. -/
  | reservedStimulus
  /-- `RESET` after construction (R137, R346); raised by RESET. Safe. -/
  | resetAfterConstruction
  /-- a configuration that fails validation (R10, R345, I3); raised by RESET. Safe. -/
  | constructionError
  /-- a stimulus before construction (R340: RESET must be the first stimulus); raised by the step. Safe: log 26. -/
  | notConstructed
  /-- a stimulus from a context that does not own the operation (R86, R348, R350, I4, I5); raised by the step. Safe. -/
  | wrongContext
  deriving DecidableEq, Repr

/-! ## The state -/

/-- Everything the spec gives the block (R30), its configuration (R9), the observation (R27), the foreground's control
state (R322), the timebase (R28) and the inputs to come. -/
structure State where
  cfg      : Cfg
  /-- construction has happened (R340, R346) -/
  built    : Bool
  kbd      : Port
  mouse    : Port
  kb       : Kb
  ms       : Ms
  /-- the foreground operation in progress, if any -/
  fg       : Option Task
  /-- the operations the application has called after it, in program order -/
  calls    : List Call
  /-- the host timebase at its last read -/
  hostTime : Word32
  /-- what now() returns to the operation in progress, if a script line fixes it (R138) -/
  hostFixed : Option Word32
  /-- what a script line fixes for the next foreground stimulus (R138) -/
  hostNext : Option Word32
  /-- how many reads of the timebase no script line has fixed: the argument of `Config.hostDelta` -/
  draws    : Nat
  /-- values returned by foreground operations, oldest first -/
  rets     : List Ret
  /-- results of interrupt-side queue stimuli, oldest first -/
  isrRets  : List Ret
  /-- notifications, oldest first -/
  notes    : List Note
  /-- line-latch writes and byte transfers, oldest first -/
  wire     : List WireEvent
  /-- the inputs to come -/
  tape     : List Input
  deriving DecidableEq, Repr

/-- The latch writes of the construction sequence (R342), first the keyboard channel's (R340). -/
def constructionWire : List WireEvent :=
  [.latch (.data .kbd) .rel, .latch (.clk .kbd) .rel, .latch (.data .mouse) .rel, .latch (.clk .mouse) .rel]

/-- The block right after construction with configuration `cfg` (R340 to R344), with an empty tape. -/
def State.constructed (cfg : Cfg) : State where
  cfg := cfg
  built := true
  kbd := Port.reset cfg.capRxKbd cfg.capTxKbd
  mouse := Port.reset cfg.capRxMouse cfg.capTxMouse
  kb := Kb.reset
  ms := Ms.reset
  fg := none
  calls := []
  hostTime := 0
  hostFixed := none
  hostNext := none
  draws := 0
  rets := []
  isrRets := []
  notes := []
  wire := constructionWire
  tape := []

/-- The machine right after reset. Its configuration is the spec's test fixture: log 2. -/
def State.reset : State := State.constructed Config.fixture

/-- Before construction there is no block (R340): the fields a RESET will write hold what they hold. -/
def State.unbuilt (cfg : Cfg) : State :=
  { State.constructed cfg with built := false, wire := [] }

end Sys2Proof.Machine
end

