-- ==== Sys2Proof/Machine/Flags.lean ====
section
/-! DEFINITION. Bits and flags: the bit layout of `kb.mods` and `kb.locks` (spec/10_state.md R45, R46), single-bit
writes, the numeric codes of status, stage and notifications (R33, R52, R310), and the legal positions of a channel
(R34, R164). -/

namespace Sys2Proof.Machine

open Sys2Proof

/-- `v` with bit `i` set to `d`. -/
def setBit (v : Byte) (i : Nat) (d : Bool) : Byte :=
  if d then v ||| (BitVec.ofNat 8 1 <<< i) else v &&& ~~~(BitVec.ofNat 8 1 <<< i)

/-- The bit numbers of `kb.mods` (R45). -/
def bitLSHIFT : Nat := 0
def bitRSHIFT : Nat := 1
def bitCTRL : Nat := 2
def bitALTGR : Nat := 3
def bitEXT : Nat := 4
def bitBRK : Nat := 5

/-- Reading one bit of a mask. -/
def hasBit (m : Byte) (i : Nat) : Bool := m.getLsbD i

/-- The lock bits of R46, as the values R208 toggles. -/
def lockSCROLL : Byte := 0x01
def lockNUM : Byte := 0x02
def lockCAPS : Byte := 0x04

/-- `kb.mods` with the two pending-prefix bits cleared (R215). -/
def clearPending (m : Byte) : Byte :=
  setBit (setBit m bitEXT false) bitBRK false

/-- The three lock bits of a mask (R220). -/
def lockMask (m : Byte) : Byte := m &&& 0x07

/-- The parity accumulator after a data bit (R143, R152): a 1 toggles it. -/
def parityStep (p d : Bool) : Bool := p ^^ d

/-- `ch.status` in R33's numbering. -/
def Status.code : Status → BitVec 3
  | .passive => 0
  | .receiving => 1
  | .sendRequested => 2
  | .sending => 3
  | .postSettle => 4

/-- `ms.stage` in R52's numbering. -/
def Stage.code : Stage → BitVec 4
  | .U => 0
  | .RST => 1
  | .SR1 => 2
  | .SR2 => 3
  | .SR3 => 4
  | .ID => 5
  | .ENA => 6
  | .POLL => 7
  | .STREAM => 8

/-- The notification codes of R310. -/
def Note.code : Note → Nat
  | .overflow _ => 1
  | .frameError _ => 2
  | .timeout _ _ => 3
  | .protocolViolation _ _ => 4

/-- The notifications that also invoke a callback, `on_overflow` and `on_parity_error` (R310, R324). -/
def Note.hasCallback : Note → Bool
  | .overflow _ => true
  | .frameError _ => true
  | .timeout _ _ => false
  | .protocolViolation _ _ => false

/-- The packet size in bytes (R53). -/
def PSize.bytes : PSize → Nat
  | .three => 3
  | .four => 4

/-- Whether `ch.bitcnt` is in the range `ch.status` allows (R34, R164). -/
def Channel.legal (c : Channel) : Bool :=
  match c.status with
  | .receiving => 1 ≤ c.bitcnt.toNat && c.bitcnt.toNat ≤ 10
  | .sending => 1 ≤ c.bitcnt.toNat && c.bitcnt.toNat ≤ 11
  | .passive | .sendRequested | .postSettle => c.bitcnt.toNat = 0

end Sys2Proof.Machine
end

