-- ==== Sys2Proof/Machine/Operands.lean ====
section
/-! DEFINITION. Operand assembly (spec/30_encoding.md R108, R126): the fields of a mouse packet as the movement of
43_mouse.md R263 to R266, and the bytes of the command and reply rows (R105 to R109). -/

namespace Sys2Proof.Machine

open Sys2Proof

/-- One movement field (R263, R264): the 9-bit two's complement value of sign and delta, saturated to -256 or 255 on
overflow. -/
def axis (sign overflow : Bool) (delta : Byte) : Half :=
  if overflow then (if sign then -256 else 255)
  else (if sign then delta.setWidth 16 - 256 else delta.setWidth 16)

/-- The wheel field (R265): sign-extended when the packet has four bytes, 0 otherwise. -/
def wheel (ps : PSize) (dz : Byte) : Half :=
  match ps with
  | .three => 0
  | .four => dz.signExtend 16

/-- `btns = status & 0x07` (R266). -/
def buttons (status : Byte) : Byte := status &&& 0x07

/-- `decode(pkt)` (R263 to R266) of the packet bytes `[status, dx, dy, (dz)]`; a byte that is not there counts as 0,
and a packet always has `ms.psize` bytes when this is called. -/
def decodePacket (ps : PSize) (pkt : List Byte) : Move :=
  let status := pkt.getD 0 0
  { x := axis (status.getLsbD 4) (status.getLsbD 6) (pkt.getD 1 0)
    y := axis (status.getLsbD 5) (status.getLsbD 7) (pkt.getD 2 0)
    z := wheel ps (pkt.getD 3 0)
    btns := buttons status }

/-- The sum of Policy C (R262): movements add modulo 2^16, the buttons are the later packet's. -/
def Move.add (a p : Move) : Move where
  x := a.x + p.x
  y := a.y + p.y
  z := a.z + p.z
  btns := p.btns

/-- The status byte of a packet from its fields (R108), bit 3 set. -/
def statusByte (yo xo ys xs : Bool) (b : BitVec 3) : Byte :=
  bit1 yo ++ bit1 xo ++ bit1 ys ++ bit1 xs ++ bit1 true ++ b

/-- The LED argument byte from its fields (R109). -/
def ledByte (c n s : Bool) : Byte :=
  (0 : BitVec 5) ++ bit1 c ++ bit1 n ++ bit1 s

/-- Command bytes (R105). -/
def CMD_RESET : Byte := 0xFF
def CMD_SET_RATE : Byte := 0xF3
def CMD_IDENTIFY : Byte := 0xF2
def CMD_ENABLE : Byte := 0xF4
def CMD_READ_DATA : Byte := 0xEB
def CMD_SET_LEDS : Byte := 0xED

/-- Rate arguments (R106). -/
def RATE_200 : Byte := 0xC8
def RATE_100 : Byte := 0x64
def RATE_80 : Byte := 0x50

/-- Reply bytes (R107). -/
def REPLY_ACK : Byte := 0xFA
def REPLY_SELFTEST : Byte := 0xAA
def REPLY_ID0 : Byte := 0x00
def REPLY_ID3 : Byte := 0x03

/-- Prefix bytes (R120) and the byte that is not one (R123). -/
def SC_EXT : Byte := 0xE0
def SC_BRK : Byte := 0xF0
def SC_E1 : Byte := 0xE1

end Sys2Proof.Machine
end

