-- ==== Sys2Proof/Machine/Ops.lean ====
section
/-! DEFINITION. The named operations the meanings are written over: queue buffers and queues (spec/20_memory.md,
41_queue.md), ports, line, timer and notification primitives (00_scope.md R16 to R20, R28), and interrupt handler
entry (60_exceptions.md R317, R321). -/

namespace Sys2Proof.Machine

open Sys2Proof

/-! ## Queue buffers -/

/-- What a slot that no push has written reads as. The spec leaves it unspecified and no rule reads such a slot (R42,
I11). DESIGN CHOICE, unsafe: log 3. -/
def unlistedByte : Byte := 0x00

/-- `MemRead(Q.buf, i, 1)` (R16). -/
def Memory.read : Memory → Nat → Byte
  | [], _ => unlistedByte
  | (a, v) :: m, i => if a = i then v else Memory.read m i

/-- `MemWrite(Q.buf, i, 1, v)` (R16), keeping the canonical form. -/
def Memory.write : Memory → Nat → Byte → Memory
  | [], i, v => if v = unlistedByte then [] else [(i, v)]
  | (a, x) :: m, i, v =>
    if i < a then (if v = unlistedByte then (a, x) :: m else (i, v) :: (a, x) :: m)
    else if i = a then (if v = unlistedByte then m else (i, v) :: m)
    else (a, x) :: Memory.write m i v

/-- Every listed slot is above `lo` and rising, and no listed byte is the unlisted one. -/
def Memory.wfAbove : Option Nat → Memory → Bool
  | _, [] => true
  | lo, (a, v) :: m => (lo.all (· < a)) && v != unlistedByte && Memory.wfAbove (some a) m

/-- The canonical form. -/
def Memory.wf (m : Memory) : Bool := Memory.wfAbove none m

/-! ## Queues -/

/-- `len(Q)` (R181). -/
def Queue.len (q : Queue) : Word32 := q.w - q.r

/-- Whether occupancy `n` fills a queue of capacity `cap` (R182). -/
def fullAt (cap n : Word32) : Bool := (n &&& ~~~(cap - 1)) != 0

/-- `is_full(Q)` (R182). -/
def Queue.isFull (q : Queue) : Bool := fullAt q.cap q.len

/-- The slot of an index: `idx & (C-1)` (R70). -/
def Queue.slot (q : Queue) (idx : Word32) : Nat := (idx &&& (q.cap - 1)).toNat

/-- Second micro-step of a push: write the slot (R80, R81). -/
def Queue.writeSlot (q : Queue) (b : Byte) : Queue :=
  { q with buf := Memory.write q.buf (q.slot q.w) b }

/-- Third micro-step of a push: publish `w` (R80, R81). -/
def Queue.publishW (q : Queue) : Queue := { q with w := q.w + 1 }

/-- Second micro-step of a pop: read the slot (R80). -/
def Queue.readSlot (q : Queue) : Byte := Memory.read q.buf (q.slot q.r)

/-- Third micro-step of a pop: publish `r` (R80). The freed slot keeps its byte: log 3. -/
def Queue.publishR (q : Queue) : Queue := { q with r := q.r + 1 }

/-- `push(Q, b)` (R183), all its micro-steps; the kick of a TX queue is set by `State.push`. -/
def Queue.push (q : Queue) (b : Byte) : Bool × Queue :=
  if q.isFull then (false, q) else (true, (q.writeSlot b).publishW)

/-- `pop(Q)` (R184), all its micro-steps. -/
def Queue.pop (q : Queue) : Option Byte × Queue :=
  if q.w = q.r then (none, q) else (some q.readSlot, q.publishR)

/-- The queued bytes, oldest first (R43), `n` of them from index `i`. -/
def Queue.bytesFrom (q : Queue) : Word32 → Nat → List Byte
  | _, 0 => []
  | i, n + 1 => Memory.read q.buf (q.slot i) :: Queue.bytesFrom q (i + 1) n

/-- The contents of a queue, oldest first (R43). -/
def Queue.contents (q : Queue) : List Byte := q.bytesFrom q.r q.len.toNat

/-! ## Ports -/

/-- The port of a channel (R30). -/
def State.port (s : State) : Chan → Port
  | .kbd => s.kbd
  | .mouse => s.mouse

/-- The state with the port of a channel replaced. -/
def State.setPort (s : State) (ch : Chan) (p : Port) : State :=
  match ch with
  | .kbd => { s with kbd := p }
  | .mouse => { s with mouse := p }

/-- The channel record. -/
def State.chn (s : State) (ch : Chan) : Channel := (s.port ch).chn

/-- The state with a channel record replaced. -/
def State.setChn (s : State) (ch : Chan) (c : Channel) : State :=
  s.setPort ch { s.port ch with chn := c }

/-- The state with `KICKPEND[ch]` replaced (R58). -/
def State.setKick (s : State) (ch : Chan) (k : Bool) : State :=
  s.setPort ch { s.port ch with kickPend := k }

/-- The queue a name stands for. -/
def State.queue (s : State) : QSel → Queue
  | .rx ch => (s.port ch).rx
  | .tx ch => (s.port ch).tx

/-- The state with a queue replaced. -/
def State.setQueue (s : State) (q : QSel) (v : Queue) : State :=
  match q with
  | .rx ch => s.setPort ch { s.port ch with rx := v }
  | .tx ch => s.setPort ch { s.port ch with tx := v }

/-- The kick of a push (R191): a TX queue's push sets `KICKPEND`, an RX queue's does not. -/
def State.kickFor (s : State) : QSel → State
  | .rx _ => s
  | .tx ch => s.setKick ch true

/-- The publishing micro-step of a push: `w` and, for a TX queue, the kick latch together (R191). -/
def State.publishPush (s : State) (q : QSel) : State :=
  (s.setQueue q (s.queue q).publishW).kickFor q

/-- `push(Q, b)` in the state (R183). -/
def State.push (s : State) (q : QSel) (b : Byte) : Bool × State :=
  if (s.queue q).isFull then (false, s)
  else (true, (s.setQueue q ((s.queue q).writeSlot b)).publishPush q)

/-- `pop(Q)` in the state (R184). -/
def State.pop (s : State) (q : QSel) : Option Byte × State :=
  ((s.queue q).pop.1, s.setQueue q (s.queue q).pop.2)

/-! ## Lines (R17) -/

/-- `set_line(p)`: release. -/
def State.setLine (s : State) (p : Pin) : State :=
  let s := match p with
    | .clk ch => s.setChn ch { s.chn ch with clkOut := .rel }
    | .data ch => s.setChn ch { s.chn ch with dataOut := .rel }
  { s with wire := s.wire ++ [.latch p .rel] }

/-- `clear_line(p)`: drive low. -/
def State.clearLine (s : State) (p : Pin) : State :=
  let s := match p with
    | .clk ch => s.setChn ch { s.chn ch with clkOut := .low }
    | .data ch => s.setChn ch { s.chn ch with dataOut := .low }
  { s with wire := s.wire ++ [.latch p .low] }

/-- Release the line for a 1, drive it low for a 0 (R152, R153). -/
def State.driveLine (s : State) (p : Pin) (bit : Bool) : State :=
  if bit then s.setLine p else s.clearLine p

/-- The bus level: the wired AND of the host latch and the device's drive (R17). -/
def busLevel (host : Latch) (device : Bool) : Bool :=
  match host with
  | .rel => device
  | .low => false

/-! ## Timers (R18) -/

/-- `arm_timer(us)`. -/
def State.armTimer (s : State) (ch : Chan) (us : Word32) : State :=
  s.setChn ch { s.chn ch with timerArmed := true, timerPeriod := us }

/-- `restart_timer()`: again with the period last armed. -/
def State.restartTimer (s : State) (ch : Chan) : State :=
  s.setChn ch { s.chn ch with timerArmed := true }

/-- `stop_timer()`. -/
def State.stopTimer (s : State) (ch : Chan) : State :=
  s.setChn ch { s.chn ch with timerArmed := false }

/-! ## Notifications and transfers -/

/-- `raise E(info)` (R19): one record; the rule that raises it goes on (R316). A callback is the record and nothing
more (R324). -/
def State.raise (s : State) (n : Note) : State :=
  { s with notes := s.notes ++ [n] }

/-- One record of a byte transfer (R27; log 5). -/
def State.transfer (s : State) (e : WireEvent) : State :=
  { s with wire := s.wire ++ [e] }

/-! ## Timebase (R28) -/

/-- `now()`: the value a script line fixes for the operation in progress (R138), or the last value moved by a free
amount. Log 4. -/
def State.readNow (s : State) : Word32 × State :=
  match s.hostFixed with
  | some t => (t, { s with hostTime := t })
  | none =>
    let t := s.hostTime + Config.hostDelta s.draws
    (t, { s with hostTime := t, draws := s.draws + 1 })

/-- A called operation begins: the value that a script line fixes for it is the operation's (R138). -/
def State.beginCall (s : State) (time : Option Word32) : State := { s with hostFixed := time }

/-- The value that a script line fixes for the next foreground stimulus has gone with that stimulus (R138). -/
def State.timeTaken (s : State) : State := { s with hostNext := none }

/-- The state in which an operation called on an idle foreground begins. -/
def State.called (s : State) : State := (s.beginCall s.hostNext).timeTaken

/-- The state in which a called operation is held, in program order, with the value fixed for it. -/
def State.held (s : State) (op : FgOp) : State := State.timeTaken { s with calls := s.calls ++ [⟨op, s.hostNext⟩] }

/-! ## Interrupt sources and handler entry (R317, R321, R322) -/

/-- The six interrupt sources (R317). -/
inductive Irq where
  | edge (ch : Chan)
  | timer (ch : Chan)
  | kick (ch : Chan)
  deriving DecidableEq, Repr

/-- When a source can reach its handler (R317). -/
def State.irqEnabled (s : State) : Irq → Bool
  | .edge _ => true
  | .timer ch => (s.chn ch).timerArmed
  | .kick ch => (s.port ch).kickPend

/-- Handler entry clears the source's pending state and saves nothing (R317, R321). -/
def State.enterHandler (s : State) : Irq → State
  | .edge _ => s
  | .timer ch => s.stopTimer ch
  | .kick ch => s.setKick ch false

/-- The channel whose handler a source runs. -/
def Irq.chan : Irq → Chan
  | .edge ch => ch
  | .timer ch => ch
  | .kick ch => ch

/-- Take an interrupt: a source that is not enabled runs no handler and changes nothing (log 8); otherwise enter, and
run the handler's body to its end (R322: return restores nothing). A channel in a position that R164 excludes faults. -/
def State.takeInterrupt (s : State) (irq : Irq) (body : State → State) : Host.Outcome State Fault Refusal :=
  if !s.irqEnabled irq then .next s
  else if !(s.chn irq.chan).legal then .fault (.illegalPosition irq.chan)
  else .next (body (s.enterHandler irq))

/-! ## Sequencing -/

/-- Run `f` on the next state of `o`; a stop stays. -/
def andThen (o : Host.Outcome State Fault Refusal) (f : State → Host.Outcome State Fault Refusal) :
    Host.Outcome State Fault Refusal :=
  match o with
  | .next s => f s
  | .fault r => .fault r
  | .refused r => .refused r

/-! ## Foreground continuation (R80, R190) -/

/-- What a foreground computation between two micro-steps ends in. -/
inductive Act where
  /-- go on with this micro-step -/
  | go (t : Task)
  /-- wait (R25): any other agent may step before this micro-step is tried -/
  | wait (t : Task)
  /-- the operation returns -/
  | ret (r : Ret)
  /-- a state that the rules exclude -/
  | stop (f : Fault)
  deriving DecidableEq, Repr

/-- The channel a queue belongs to. -/
def QSel.chan : QSel → Chan
  | .rx ch => ch
  | .tx ch => ch

/-- Begin a pop. -/
def beginPop (q : QSel) (k : PopK) : Act := .go (.pop .readW q k)

/-- Begin a push. -/
def beginPush (q : QSel) (b : Byte) (k : PushK) : Act := .go (.push .readR q b k)

/-- What follows the last byte of a sequence of emits. -/
def afterEmit : After → Act
  | .ret => .ret .unit
  | .retNone => .ret (.byte none)
  | .nextChar peek => beginPop (.rx .kbd) (.nextChar peek)
  | .stamp t => .go (.now (.stamp t))

/-- `emit(ch, b1); emit(ch, b2); ...` (R190, R208, R220, R271). -/
def emitNext (ch : Chan) : List Byte → After → Act
  | [], a => afterEmit a
  | b :: rest, a => beginPush (.tx ch) b (.emit rest a)

/-- Go on after a push (R183, R190): a plain push returns its result; an emit goes to its next byte, or, when the
queue was full, sets the kick latch and waits to try again. The latch write of a failed emit belongs to the micro-step
that read `Q.r`: R80 lists no micro-step for it and R191 speaks of successful pushes only. DESIGN CHOICE: log 27. -/
def resumePush (q : QSel) (b : Byte) (k : PushK) (ok : Bool) (s : State) : Act × State :=
  match k with
  | .ret => (.ret (.bool ok), s)
  | .emit rest after =>
    if ok then (emitNext q.chan rest after, s)
    else (.wait (.push .readR q b (.emit rest after)), s.kickFor q)

end Sys2Proof.Machine
end

