-- ==== Sys2Proof/Machine/Construction.lean ====
section
/-! DEFINITION. Construction (spec/70_reset_and_hazards.md R340 to R346, 00_scope.md R10) and the reserved stimulus
words (30_encoding.md R137, 00_scope.md R26). -/

namespace Sys2Proof.Machine

open Sys2Proof

/-- Whether `c` is a power of two: it has exactly one 1 bit. -/
def isPow2 (c : Nat) : Bool := c != 0 && c &&& (c - 1) == 0

/-- A legal capacity: a power of two, at least 8, at most 2^31 (R9, R10). -/
def capValid (c : Nat) : Bool := isPow2 c && 8 ≤ c && c ≤ 2147483648

/-- `validate(cfg)` (R10, R345): the capacities, and the microsecond periods nonzero. -/
def validCfg (c : Cfg) : Bool :=
  capValid c.capRxKbd && capValid c.capTxKbd && capValid c.capRxMouse && capValid c.capTxMouse
    && c.tStartUs != 0 && c.tBitUs != 0 && c.tGapUs != 0

/-- The configured capacity of a queue (R9). -/
def capOf (c : Cfg) : QSel → Nat
  | .rx .kbd => c.capRxKbd
  | .tx .kbd => c.capTxKbd
  | .rx .mouse => c.capRxMouse
  | .tx .mouse => c.capTxMouse

/-- `channel_reset(ch)` (R341). -/
def channelReset (ch : Chan) (s : State) : State := s.setChn ch Channel.reset

/-- `line_init(ch)` (R342); the edge registration lasts as long as the block, so `State.built` stands for it. -/
def lineInit (ch : Chan) (s : State) : State :=
  ((s.setLine (.data ch)).setLine (.clk ch)).stopTimer ch

/-- The steps of one channel (R340). -/
def constructChannel (ch : Chan) (s : State) : State :=
  let s := lineInit ch (channelReset ch s)
  let s := s.setQueue (.rx ch) (Queue.empty (capOf s.cfg (.rx ch)))
  let s := s.setQueue (.tx ch) (Queue.empty (capOf s.cfg (.tx ch)))
  s.setKick ch false

/-- `decoder_reset()` and `engine_reset()` (R343). -/
def constructEngines (s : State) : State := { s with kb := Kb.reset, ms := Ms.reset }

/-- Construction (R340), after validation. No operation has been issued (R344). -/
def construct (s : State) : State :=
  { constructEngines (constructChannel .mouse (constructChannel .kbd s)) with
    built := true
    fg := none
    calls := [] }

/-- `RESET` (R340): only before construction (R137, R346) and only with a valid configuration (R345). -/
def execReset (s : State) : Host.Outcome State Fault Refusal :=
  if s.built then .refused .resetAfterConstruction
  else if validCfg s.cfg then .next (construct s)
  else .refused .constructionError

/-- `RESERVED_MAJ` (R137): refused. -/
def execReservedMaj (_lo : BitVec 15) (_s : State) : Host.Outcome State Fault Refusal :=
  .refused .reservedStimulus

/-- `RESERVED_KBD_MIN` (R137): refused. -/
def execReservedKbdMin (_lo : BitVec 9) (_s : State) : Host.Outcome State Fault Refusal :=
  .refused .reservedStimulus

/-- `RESERVED_MOUSE_CH0` (R137): refused. -/
def execReservedMouseCh0 (_lo : BitVec 11) (_s : State) : Host.Outcome State Fault Refusal :=
  .refused .reservedStimulus

end Sys2Proof.Machine
end

