-- ==== Sys2Proof/Machine/Keyboard.lean ====
section
/-! DEFINITION. The keyboard scancode decoder (spec/42_keyboard.md): scancode classes (30_encoding.md R122), table
selection, `decode_byte` (R215) and the decode loop `next_char` (R221). -/

namespace Sys2Proof.Machine

open Sys2Proof

/-- Look a scancode up in a translation table; 0 where the table lists nothing (R214). -/
def tableGet : Table → Byte → Byte
  | [], _ => 0
  | (c, v) :: t, x => if c = x then v else tableGet t x

/-- The navigation and editing keys (R12). -/
inductive NavKey where
  | up
  | down
  | left
  | right
  | insert
  | delete
  | home
  | endKey
  | pgup
  | pgdn
  | kpenter
  | kpslash
  deriving DecidableEq, Repr

/-- The navigation key of an extended code (R122, R209). -/
def navKey (c : Byte) : Option NavKey :=
  match c.toNat with
  | 0x75 => some .up
  | 0x72 => some .down
  | 0x6B => some .left
  | 0x74 => some .right
  | 0x70 => some .insert
  | 0x71 => some .delete
  | 0x6C => some .home
  | 0x69 => some .endKey
  | 0x7D => some .pgup
  | 0x7A => some .pgdn
  | 0x5A => some .kpenter
  | 0x4A => some .kpslash
  | _ => none

/-- `NAV_CODE(key)` (R12). -/
def navCode (n : NavCodes) : NavKey → Byte
  | .up => n.up
  | .down => n.down
  | .left => n.left
  | .right => n.right
  | .insert => n.insert
  | .delete => n.delete
  | .home => n.home
  | .endKey => n.endKey
  | .pgup => n.pgup
  | .pgdn => n.pgdn
  | .kpenter => n.kpenter
  | .kpslash => n.kpslash

/-- The scancode classes of R122. -/
inductive KeyClass where
  /-- R223 -/
  | fakeShift
  /-- R205, left -/
  | shiftLeft
  /-- R205, right -/
  | shiftRight
  /-- R206 -/
  | ctrl
  /-- R207 -/
  | altgr
  /-- R222 -/
  | leftAlt
  /-- R208 with the bit it toggles -/
  | lock (bit : Byte)
  /-- R209 -/
  | nav (k : NavKey)
  /-- R210 -/
  | otherExtended
  /-- R211 -/
  | keypad
  /-- R212 -/
  | mainRange
  /-- R213 -/
  | outOfRange
  deriving DecidableEq, Repr

/-- The class of an extended code. -/
def classifyExtended (c : Byte) : KeyClass :=
  if c = 0x12 ∨ c = 0x59 then .fakeShift
  else if c = 0x14 then .ctrl
  else if c = 0x11 then .altgr
  else match navKey c with
    | some k => .nav k
    | none => .otherExtended

/-- The class of a code without the extended flag. -/
def classifyPlain (c : Byte) : KeyClass :=
  if c = 0x12 then .shiftLeft
  else if c = 0x59 then .shiftRight
  else if c = 0x14 then .ctrl
  else if c = 0x11 then .leftAlt
  else if c = 0x58 then .lock lockCAPS
  else if c = 0x77 then .lock lockNUM
  else if c = 0x7E then .lock lockSCROLL
  else if 0x69 ≤ c.toNat ∧ c.toNat ≤ 0x7D then .keypad
  else if c.toNat ≤ 0x83 then .mainRange
  else .outOfRange

/-- The first matching class (R122, R215). -/
def classify (c : Byte) (e : Bool) : KeyClass :=
  if e then classifyExtended c else classifyPlain c

/-- The main-range table (R212). -/
def mainTable (km : Keymap) (mods locks : Byte) : Table :=
  if hasBit mods bitALTGR && km.altgrInUse then km.altgr
  else
    match (hasBit mods bitLSHIFT || hasBit mods bitRSHIFT), hasBit locks 2 with
    | false, false => km.noshift
    | true, false => km.shift
    | false, true => km.noshiftcaps
    | true, true => km.shiftcaps

/-- The keypad table (R211). -/
def keypadTable (km : Keymap) (locks : Byte) : Table :=
  if locks &&& lockNUM != 0 then km.numon else km.numoff

/-- What one decoded byte asks for. -/
inductive KeyResult where
  /-- no character -/
  | nothing
  /-- a character -/
  | char (v : Byte)
  /-- a lock key: the LED command is to be emitted (R208) -/
  | lock
  deriving DecidableEq, Repr

/-- A table value of 0 is no character (R214). -/
def charResult (v : Byte) : KeyResult :=
  if v = 0 then .nothing else .char v

/-- R204: break of a key, `e` its extended flag. -/
def breakMods (mods c : Byte) (e : Bool) : Byte :=
  if c = 0x12 ∧ e = false then setBit mods bitLSHIFT false
  else if c = 0x59 ∧ e = false then setBit mods bitRSHIFT false
  else if c = 0x14 then setBit mods bitCTRL false
  else if c = 0x11 ∧ e = true then setBit mods bitALTGR false
  else mods

/-- The make of a key (R205 to R213, R222, R223). -/
def makeKey (cfg : Cfg) (kb : Kb) (c : Byte) : KeyResult × Kb :=
  match classify c (hasBit kb.mods bitEXT) with
  | .fakeShift => (.nothing, kb)
  | .shiftLeft => (.nothing, { kb with mods := setBit kb.mods bitLSHIFT true })
  | .shiftRight => (.nothing, { kb with mods := setBit kb.mods bitRSHIFT true })
  | .ctrl => (.nothing, { kb with mods := setBit kb.mods bitCTRL true })
  | .altgr => (.nothing, { kb with mods := setBit kb.mods bitALTGR true })
  | .leftAlt => (.nothing, kb)
  | .lock bit => (.lock, { kb with locks := kb.locks ^^^ bit })
  | .nav k => (charResult (navCode cfg.nav k), kb)
  | .otherExtended => (.nothing, kb)
  | .keypad => (charResult (tableGet (keypadTable cfg.km kb.locks) c), kb)
  | .mainRange => (charResult (tableGet (mainTable cfg.km kb.mods kb.locks) c), kb)
  | .outOfRange => (.nothing, kb)

/-- `decode_byte(c)` (R215), up to the LED emits of a lock key, which the caller issues. -/
def decodeByte (cfg : Cfg) (kb : Kb) (c : Byte) : KeyResult × Kb :=
  if c = 0xE0 then (.nothing, { kb with mods := setBit kb.mods bitEXT true })
  else if c = 0xF0 then (.nothing, { kb with mods := setBit kb.mods bitBRK true })
  else
    let r :=
      if hasBit kb.mods bitBRK then
        (KeyResult.nothing, { kb with mods := breakMods kb.mods c (hasBit kb.mods bitEXT) })
      else makeKey cfg kb c
    (r.1, { r.2 with mods := clearPending r.2.mods })

/-- The LED command (R208, R220): 0xED and the lock mask. -/
def emitLeds (kb : Kb) (a : After) : Act :=
  emitNext .kbd [CMD_SET_LEDS, kb.locks] a

/-- `next_char()` begins by popping the keyboard's RX queue (R221). -/
def nextChar (peek : Bool) : Act := beginPop (.rx .kbd) (.nextChar peek)

/-- The end of `key_peek` and of `get_key` with the result of `next_char` (R216, R217). -/
def charReturn (peek : Bool) (o : Option Byte) (s : State) : Act × State :=
  match peek, o with
  | true, some v => (.ret (.bool true), { s with kb := { s.kb with cache := v, cacheValid := true } })
  | true, none => (.ret (.bool false), s)
  | false, o => (.ret (.byte o), s)

/-- One turn of the decode loop with the popped byte (R221). -/
def resumeNextChar (peek : Bool) (ob : Option Byte) (s : State) : Act × State :=
  match ob with
  | none => charReturn peek none s
  | some c =>
    let d := decodeByte s.cfg s.kb c
    let s := { s with kb := d.2 }
    match d.1 with
    | .char v => charReturn peek (some v) s
    | .nothing => (nextChar peek, s)
    | .lock => (emitLeds s.kb (.nextChar peek), s)

/-- `key_peek()` (R216). -/
def beginKeyPeek (s : State) : Act × State :=
  if s.kb.cacheValid then (.ret (.bool true), s) else (nextChar true, s)

/-- `get_key()` (R217). -/
def beginGetKey (s : State) : Act × State :=
  if s.kb.cacheValid then
    (.ret (.byte (some s.kb.cache)), { s with kb := { s.kb with cacheValid := false } })
  else (nextChar false, s)

/-- `set_locks(m)` (R220). -/
def beginSetLocks (m : Byte) (s : State) : Act × State :=
  let s := { s with kb := { s.kb with locks := lockMask m } }
  (emitLeds s.kb .ret, s)

/-- `decode_byte(c)` by itself (R215); a lock key's LED command is emitted, and the result is `None` (R208). -/
def beginDecodeByte (c : Byte) (s : State) : Act × State :=
  let d := decodeByte s.cfg s.kb c
  let s := { s with kb := d.2 }
  match d.1 with
  | .char v => (.ret (.byte (some v)), s)
  | .nothing => (.ret (.byte none), s)
  | .lock => (emitLeds s.kb .retNone, s)

end Sys2Proof.Machine
end

