-- ==== Sys2Proof/Machine/Mouse.lean ====
section
/-! DEFINITION. The mouse negotiation engine and packet acquisition (spec/43_mouse.md): each function is the part of a
stage rule between two reads of the queue or the timebase. -/

namespace Sys2Proof.Machine

open Sys2Proof

/-- The mouse channel's RX queue. -/
def rxMouse : QSel := .rx .mouse

/-- Read `len(RXQ[MOUSE])` for `k`. -/
def readLen (k : LenK) : Act := .go (.len rxMouse k)

/-- Read `now()` for `k`. -/
def readTime (k : NowK) : Act := .go (.now k)

/-- `send(b1, ..., bk)` (R271), then `t`. -/
def sendBytes (bs : List Byte) (t : SendThen) : Act := emitNext .mouse bs (.stamp t)

/-- The state with the engine's fields changed. -/
def State.setMs (s : State) (f : Ms → Ms) : State := { s with ms := f s.ms }

/-- `expired(T)` (R270) with the value `t` of `now()`. -/
def expired (ms : Ms) (t T : Word32) : Bool := decide (T.toNat < (t - ms.ts).toNat)

/-- The engine state that `fail` leaves (R268): everything but the timestamp back to its reset value. -/
def Ms.failed (ms : Ms) : Ms :=
  { ms with stage := .U, psize := .three, acc := Move.zero, prevBtns := 0, lastLen := 0 }

/-- `fail(kind)` (R268): the notification records the stage left (R310). -/
def failWith (kind : Chan → Stage → Note) (s : State) : Act × State :=
  (.ret (.move none), (s.raise (kind .mouse s.ms.stage)).setMs Ms.failed)

/-- How many reply bytes a stage awaits (R252 to R257); 0 where no reply is awaited. -/
def replyLength : Stage → Nat
  | .RST => 3
  | .SR1 | .SR2 | .SR3 => 2
  | .ID => 2
  | .ENA => 1
  | .U | .POLL | .STREAM => 0

/-- The deadline of a stage's reply (R313). -/
def replyTimeout (cfg : Cfg) : Stage → Word32
  | .RST => cfg.tResetMs
  | .SR1 | .SR2 | .SR3 => cfg.tRateMs
  | .ID => cfg.tIdentMs
  | .ENA => cfg.tRateMs
  | .U | .POLL | .STREAM => cfg.tReadMs

/-- `return None` of `get_move`. -/
def noMove : Act := .ret (.move none)

/-- The success branch of an `await` (R252 to R255): the next command and stage, if the bytes are the expected ones. -/
def awaited (expected got next : List Byte) (st : Stage) (s : State) : Act × State :=
  if got = expected then (sendBytes next (.toStage st), s) else failWith .protocolViolation s

/-- R256 after both bytes are popped. -/
def identified (got : List Byte) (s : State) : Act × State :=
  let a := got.getD 0 0
  let id := got.getD 1 0
  if a ≠ REPLY_ACK ∨ (id ≠ REPLY_ID0 ∧ id ≠ REPLY_ID3) then failWith .protocolViolation s
  else
    let s := s.setMs fun m => { m with psize := if id = REPLY_ID3 then .four else .three }
    match s.cfg.policy with
    | .C => (sendBytes [CMD_ENABLE] (.toStage .ENA), s)
    | .A => (noMove, s.setMs fun m => { m with stage := .POLL })
    | .B => (sendBytes [CMD_READ_DATA] (.toStage .POLL), s.setMs fun m => { m with stage := .POLL })

/-- R257 after the byte is popped. -/
def enabled (got : List Byte) (s : State) : Act × State :=
  if got = [REPLY_ACK] then
    (readTime (.stamp (.toStage .STREAM)), s.setMs fun m => { m with stage := .STREAM, lastLen := 0 })
  else failWith .protocolViolation s

/-- A complete reply (R252 to R257, R269). -/
def replyComplete (got : List Byte) (s : State) : Act × State :=
  match s.ms.stage with
  | .RST => awaited [REPLY_ACK, REPLY_SELFTEST, REPLY_ID0] got [CMD_SET_RATE, RATE_200] .SR1 s
  | .SR1 => awaited [REPLY_ACK, REPLY_ACK] got [CMD_SET_RATE, RATE_100] .SR2 s
  | .SR2 => awaited [REPLY_ACK, REPLY_ACK] got [CMD_SET_RATE, RATE_80] .SR3 s
  | .SR3 => awaited [REPLY_ACK, REPLY_ACK] got [CMD_IDENTIFY] .ID s
  | .ID => identified got s
  | .ENA => enabled got s
  | .U | .POLL | .STREAM => (.stop .strayReply, s)

/-- `report_ab(p)` (R267) of the packet in `ms.acc` (R56). -/
def reportAB (s : State) : Act × State :=
  let p := s.ms.acc
  let s := s.setMs fun m => { m with acc := Move.zero }
  if p.x ≠ 0 ∨ p.y ≠ 0 ∨ p.z ≠ 0 ∨ p.btns ≠ s.ms.prevBtns then
    (.ret (.move (some p)), s.setMs fun m => { m with prevBtns := p.btns })
  else (noMove, s)

/-- The packet of Policies A and B is complete and decoded into `ms.acc` (R259, R260, R56). Stage `POLL` is never entered
under Policy C (R258). -/
def packetComplete (pkt : List Byte) (s : State) : Act × State :=
  let s := s.setMs fun m => { m with acc := decodePacket m.psize pkt }
  match s.cfg.policy with
  | .A => reportAB s
  | .B => (sendBytes [CMD_READ_DATA] .reportB, s)
  | .C => (.stop .pollUnderPolicyC, s)

/-- The rest of a drain (R189): `n` pops to go. -/
def drainNext (n : Nat) (t : DrainThen) (s : State) : Act × State :=
  match n with
  | n + 1 => (beginPop rxMouse (.drain n t), s)
  | 0 =>
    match t with
    | .start => (sendBytes [CMD_RESET] (.toStage .RST), s)
    | .resync => (readLen .resynced, s)

/-- R261 after activity tracking: `L` is the occupancy that was read. -/
def streamCheck (L : Word32) (s : State) : Act × State :=
  if 0 < L.toNat ∧ L.toNat < s.ms.psize.bytes then (readTime .resyncDeadline, s)
  else if L = 0 then (noMove, s)
  else (readLen .count, s)

/-- The report of R262. -/
def streamReport (s : State) : Act × State :=
  let ev := s.ms.acc
  (readLen (.reported ev), s.setMs fun m => { m with prevBtns := ev.btns, acc := Move.zero })

/-- One packet of R262, with `left` packets to go after it. -/
def streamPacket (left : Nat) (pkt : List Byte) (s : State) : Act × State :=
  let p := decodePacket s.ms.psize pkt
  let prev := s.ms.prevBtns
  let s := s.setMs fun m => { m with acc := m.acc.add p }
  match left with
  | n + 1 => if p.btns ≠ prev then streamReport s else (beginPop rxMouse (.stream n []), s)
  | 0 => streamReport s

/-- The reply check (R256, R269): `n` bytes are queued. -/
def replyLen (n : Word32) (s : State) : Act × State :=
  if replyLength s.ms.stage ≤ n.toNat then (beginPop rxMouse (.reply []), s)
  else (readTime .replyDeadline, s)

/-- The packet check of Policies A and B (R259, R260). -/
def pollLen (n : Word32) (s : State) : Act × State :=
  if s.ms.psize.bytes + 1 ≤ n.toNat then (beginPop rxMouse .pollAck, s)
  else (readTime .pollDeadline, s)

/-- Activity tracking (R261). -/
def streamLen (n : Word32) (s : State) : Act × State :=
  if n ≠ s.ms.lastLen then (readTime (.seen n), s) else streamCheck n s

/-- The packet count (R262): `floor(n / ms.psize)` packets. -/
def countLen (n : Word32) (s : State) : Act × State :=
  match n.toNat / s.ms.psize.bytes with
  | m + 1 => (beginPop rxMouse (.stream m []), s)
  | 0 => streamReport s

/-- `ms.last_len <- n` (R261, R262), then `a`. -/
def setLastLen (n : Word32) (a : Act) (s : State) : Act × State :=
  (a, s.setMs fun m => { m with lastLen := n })

/-- Collect reply or packet bytes: with `b` after `got`, either `want` are there or one more is popped. -/
def collect (want : Nat) (got : List Byte) (b : Byte) (more : List Byte → PopK)
    (done : List Byte → State → Act × State) (s : State) : Act × State :=
  if want ≤ (got ++ [b]).length then done (got ++ [b]) s
  else (beginPop rxMouse (more (got ++ [b])), s)

/-- The acknowledgement before a packet (R259, R260). -/
def pollAck (a : Byte) (s : State) : Act × State :=
  if a ≠ REPLY_ACK then failWith .protocolViolation s else (beginPop rxMouse (.pollPkt []), s)

/-- A byte that `len` has counted: R43 and R44 exclude that it is not there. Log 20. -/
def counted (ob : Option Byte) (f : Byte → State → Act × State) (s : State) : Act × State :=
  match ob with
  | some b => f b s
  | none => (.stop .countedPopEmpty, s)

/-- After `send`'s `ms.ts <- now()` (R271). -/
def sent (t : SendThen) (s : State) : Act × State :=
  match t with
  | .toStage st => (noMove, s.setMs fun m => { m with stage := st })
  | .pollA => (readLen .poll, s)
  | .reportB => reportAB s

/-- Go on after `now()` was read as `t`. -/
def resumeNow (k : NowK) (t : Word32) (s : State) : Act × State :=
  match k with
  | .stamp th => sent th (s.setMs fun m => { m with ts := t })
  | .replyDeadline =>
    if expired s.ms t (replyTimeout s.cfg s.ms.stage) then failWith .timeout s else (noMove, s)
  | .pollDeadline =>
    if expired s.ms t s.cfg.tReadMs then failWith .timeout s
    else
      match s.cfg.policy with
      | .A => (.wait (.len rxMouse .poll), s)
      | .B => (noMove, s)
      | .C => (.stop .pollUnderPolicyC, s)
  | .seen L => streamCheck L (s.setMs fun m => { m with ts := t, lastLen := L })
  | .resyncDeadline =>
    if expired s.ms t s.cfg.tReadMs then (readLen (.drain .resync), s) else (noMove, s)
  | .resynced => (noMove, s.setMs fun m => { m with ts := t })

/-- `get_move()` (R250): the start of the stage's rule. -/
def beginGetMove (s : State) : Act × State :=
  match s.ms.stage with
  | .U => (readLen (.drain .start), s)
  | .RST | .SR1 | .SR2 | .SR3 | .ID | .ENA => (readLen .reply, s)
  | .POLL =>
    match s.cfg.policy with
    | .A => (sendBytes [CMD_READ_DATA] .pollA, s)
    | .B => (readLen .poll, s)
    | .C => (.stop .pollUnderPolicyC, s)
  | .STREAM => (readLen .stream, s)

end Sys2Proof.Machine
end

