-- ==== Sys2Proof/Machine/Foreground.lean ====
section
/-! DEFINITION. The foreground context (spec/00_scope.md R21, 20_memory.md R79, R80): the micro-steps of an operation
in progress, running an operation without interruption until it returns or waits, and starting an operation. -/

namespace Sys2Proof.Machine

open Sys2Proof

/-! ## Results of micro-steps -/

/-- Go on after `len(Q)` was read as `n` (R181, R182 and the mouse engine). -/
def resumeLen (q : QSel) (k : LenK) (n : Word32) (s : State) : Act × State :=
  match k with
  | .ret => (.ret (.len n), s)
  | .retFull => (.ret (.bool (fullAt (s.queue q).cap n)), s)
  | .drain t => drainNext n.toNat t s
  | .reply => replyLen n s
  | .poll => pollLen n s
  | .stream => streamLen n s
  | .count => countLen n s
  | .resynced => setLastLen n (readTime .resynced) s
  | .reported ev => setLastLen n (.ret (.move (some ev))) s

/-- Go on after a pop with its result. -/
def resumePop (k : PopK) (ob : Option Byte) (s : State) : Act × State :=
  match k with
  | .ret => (.ret (.byte ob), s)
  | .nextChar peek => resumeNextChar peek ob s
  | .drain n t => drainNext n t s
  | .reply got => counted ob (fun b => collect (replyLength s.ms.stage) got b .reply replyComplete) s
  | .pollAck => counted ob pollAck s
  | .pollPkt got => counted ob (fun b => collect s.ms.psize.bytes got b .pollPkt packetComplete) s
  | .stream left got =>
    counted ob (fun b => collect s.ms.psize.bytes got b (.stream left) (streamPacket left)) s

/-! ## One micro-step (R80) -/

/-- One micro-step of a pop. -/
def popMicro (ph : PopPhase) (q : QSel) (k : PopK) (s : State) : Act × State :=
  match ph with
  | .readW => if (s.queue q).w = (s.queue q).r then resumePop k none s else (.go (.pop .readSlot q k), s)
  | .readSlot => (.go (.pop (.publish (s.queue q).readSlot) q k), s)
  | .publish b => resumePop k (some b) (s.setQueue q (s.queue q).publishR)

/-- One micro-step of a push. -/
def pushMicro (ph : PushPhase) (q : QSel) (b : Byte) (k : PushK) (s : State) : Act × State :=
  match ph with
  | .readR => if (s.queue q).isFull then resumePush q b k false s else (.go (.push .writeSlot q b k), s)
  | .writeSlot => (.go (.push .publish q b k), s.setQueue q ((s.queue q).writeSlot b))
  | .publish => resumePush q b k true (s.publishPush q)

/-- One micro-step of the operation in progress. A read of `now()` is a micro-step of its own, and the private computation
after it, a notification it raises and its writes of `ms.*` belong to it: R80 and R319 leave this open, log 28. -/
def Task.micro (t : Task) (s : State) : Act × State :=
  match t with
  | .len q k => resumeLen q k (s.queue q).len s
  | .pop ph q k => popMicro ph q k s
  | .push ph q b k => pushMicro ph q b k s
  | .now k => resumeNow k s.readNow.1 s.readNow.2

/-! ## The rest of one queue operation without interruption -/

/-- Finish a pop from any of its micro-steps. -/
def popRest (ph : PopPhase) (q : QSel) (k : PopK) (s : State) : Act × State :=
  match ph with
  | .readW => resumePop k (s.pop q).1 (s.pop q).2
  | .readSlot => resumePop k (some (s.queue q).readSlot) (s.setQueue q (s.queue q).publishR)
  | .publish b => resumePop k (some b) (s.setQueue q (s.queue q).publishR)

/-- Finish a push from any of its micro-steps. -/
def pushRest (ph : PushPhase) (q : QSel) (b : Byte) (k : PushK) (s : State) : Act × State :=
  match ph with
  | .readR => resumePush q b k (s.push q b).1 (s.push q b).2
  | .writeSlot => resumePush q b k true ((s.setQueue q ((s.queue q).writeSlot b)).publishPush q)
  | .publish => resumePush q b k true (s.publishPush q)

/-- Run the operation in progress to the end of its current queue operation. -/
def Task.complete (t : Task) (s : State) : Act × State :=
  match t with
  | .len q k => resumeLen q k (s.queue q).len s
  | .pop ph q k => popRest ph q k s
  | .push ph q b k => pushRest ph q b k s
  | .now k => resumeNow k s.readNow.1 s.readNow.2

/-! ## Returning, waiting, going on -/

/-- An operation returns `r` (R15, R27): the foreground is free, and the value a script line fixed ends with it (R138). -/
def State.returns (s : State) (r : Ret) : State :=
  { s with fg := none, hostFixed := none, rets := s.rets ++ [r] }

/-- The foreground's next micro-step is `t`. -/
def State.paused (s : State) (t : Task) : State := { s with fg := some t }

/-- Run at most `fuel` queue operations and timebase reads without interruption, until the operation returns or
waits (R25). Out of fuel it stays in progress; `fgFuel` is more than any operation needs. -/
def runTask : Nat → Task → State → Host.Outcome State Fault Refusal
  | 0, t, s => .next (s.paused t)
  | fuel + 1, t, s =>
    match t.complete s with
    | (.go t', s') => runTask fuel t' s'
    | (.wait t', s') => .next (s'.paused t')
    | (.ret r, s') => .next (s'.returns r)
    | (.stop f, _) => .fault f

/-- Run the operation from the end of a foreground computation. -/
def runAct (fuel : Nat) (a : Act × State) : Host.Outcome State Fault Refusal :=
  match a with
  | (.go t, s) => runTask fuel t s
  | (.wait t, s) => .next (s.paused t)
  | (.ret r, s) => .next (s.returns r)
  | (.stop f, _) => .fault f

/-- Take one micro-step's result into the state. -/
def settleAct (a : Act × State) : Host.Outcome State Fault Refusal :=
  match a with
  | (.go t, s) => .next (s.paused t)
  | (.wait t, s) => .next (s.paused t)
  | (.ret r, s) => .next (s.returns r)
  | (.stop f, _) => .fault f

/-- Enough for every operation: each queued byte is popped once and asks for at most two pushes. -/
def fgFuel (s : State) : Nat :=
  64 + 8 * ((s.queue (.rx .kbd)).len.toNat + (s.queue (.rx .mouse)).len.toNat)

/-! ## Operations -/

/-- The start of an operation, up to its first micro-step. -/
def FgOp.begin (op : FgOp) (s : State) : Act × State :=
  match op with
  | .popRx ch => (beginPop (.rx ch) .ret, s)
  | .len q => (.go (.len q .ret), s)
  | .full q => (.go (.len q .retFull), s)
  | .pushTx ch b => (beginPush (.tx ch) b .ret, s)
  | .emit ch b => (emitNext ch [b] .ret, s)
  | .getScancode => (beginPop (.rx .kbd) .ret, s)
  | .keyPeek => beginKeyPeek s
  | .getKey => beginGetKey s
  | .lockStatus => (.ret (.mask s.kb.locks), s)
  | .ctrlStatus => (.ret (.mask s.kb.mods), s)
  | .setLocks m => beginSetLocks m s
  | .getMove => beginGetMove s
  | .decodeByte c => beginDecodeByte c s

/-- The foreground has no operation in progress and none called. -/
def State.fgIdle (s : State) : Bool := s.fg.isNone && s.calls.isEmpty

/-- Run an operation without interruption, until it returns or waits. -/
def runOp (op : FgOp) (s : State) : Host.Outcome State Fault Refusal :=
  runAct (fgFuel s) (op.begin s)

/-- The application calls an operation (R7: the foreground is single-threaded). Called while an earlier one has not
returned, it is held and runs after it, in program order. Log 10. -/
def callOp (op : FgOp) (s : State) : Host.Outcome State Fault Refusal :=
  if s.fgIdle then runOp op s.called else .next (s.held op)

/-- The foreground runs without interruption: the operation in progress, or else the next call. -/
def fgTurn (s : State) : Host.Outcome State Fault Refusal :=
  match s.fg with
  | some t => runTask (fgFuel s) t s
  | none =>
    match s.calls with
    | [] => .next s
    | c :: rest => runOp c.op (State.beginCall { s with calls := rest } c.time)

/-- One micro-step of the foreground: of the operation in progress, or the start of the next call. -/
def fgMicro (s : State) : Host.Outcome State Fault Refusal :=
  match s.fg with
  | some t => settleAct (t.micro s)
  | none =>
    match s.calls with
    | [] => .next s
    | c :: rest => settleAct (c.op.begin (State.beginCall { s with calls := rest } c.time))

end Sys2Proof.Machine
end

