-- ==== Sys2Proof/Machine/KeyboardOps.lean ====
section
/-! DEFINITION. The meanings of the keyboard operations (spec/30_encoding.md R135, 42_keyboard.md R201, R216 to R220)
and of the scancode byte rows (R202, R203, R224). -/

namespace Sys2Proof.Machine

open Sys2Proof

/-- `GETSC` (R201). -/
def execGetsc (s : State) : Host.Outcome State Fault Refusal :=
  callOp .getScancode s

/-- `PEEK` (R216). -/
def execPeek (s : State) : Host.Outcome State Fault Refusal :=
  callOp .keyPeek s

/-- `GETKEY` (R217). -/
def execGetkey (s : State) : Host.Outcome State Fault Refusal :=
  callOp .getKey s

/-- `LOCKS` (R218). -/
def execLocks (s : State) : Host.Outcome State Fault Refusal :=
  callOp .lockStatus s

/-- `CTRLS` (R219). -/
def execCtrls (s : State) : Host.Outcome State Fault Refusal :=
  callOp .ctrlStatus s

/-- `SETLOCKS` (R220). -/
def execSetlocks (m : Byte) (s : State) : Host.Outcome State Fault Refusal :=
  callOp (.setLocks m) s

/-- `SC_EXT_PREFIX` (R202): one decode step of byte 0xE0. Log 13. -/
def execScExtPrefix (s : State) : Host.Outcome State Fault Refusal :=
  callOp (.decodeByte SC_EXT) s

/-- `SC_BRK_PREFIX` (R203): one decode step of byte 0xF0. Log 13. -/
def execScBrkPrefix (s : State) : Host.Outcome State Fault Refusal :=
  callOp (.decodeByte SC_BRK) s

/-- `SC_E1` (R224): one decode step of byte 0xE1. Log 13. -/
def execScE1 (s : State) : Host.Outcome State Fault Refusal :=
  callOp (.decodeByte SC_E1) s

end Sys2Proof.Machine
end

