-- ==== Sys2Proof/Machine/MouseOps.lean ====
section
/-! DEFINITION. The meaning of GETMOVE (spec/43_mouse.md R250) and of the host command, rate and LED bytes
(30_encoding.md R105, R106, R109): the foreground's write of that byte to its device. Log 11. -/

namespace Sys2Proof.Machine

open Sys2Proof

/-- `GETMOVE` (R250). -/
def execGetmove (s : State) : Host.Outcome State Fault Refusal :=
  callOp .getMove s

/-- `CMD_RESET`: `emit(MOUSE, 0xFF)` (R105, R251). -/
def execCmdReset (s : State) : Host.Outcome State Fault Refusal :=
  callOp (.emit .mouse CMD_RESET) s

/-- `CMD_SET_RATE`: `emit(MOUSE, 0xF3)` (R105, R252). -/
def execCmdSetRate (s : State) : Host.Outcome State Fault Refusal :=
  callOp (.emit .mouse CMD_SET_RATE) s

/-- `CMD_IDENTIFY`: `emit(MOUSE, 0xF2)` (R105, R255). -/
def execCmdIdentify (s : State) : Host.Outcome State Fault Refusal :=
  callOp (.emit .mouse CMD_IDENTIFY) s

/-- `CMD_ENABLE`: `emit(MOUSE, 0xF4)` (R105, R256). -/
def execCmdEnable (s : State) : Host.Outcome State Fault Refusal :=
  callOp (.emit .mouse CMD_ENABLE) s

/-- `CMD_READ_DATA`: `emit(MOUSE, 0xEB)` (R105, R259). -/
def execCmdReadData (s : State) : Host.Outcome State Fault Refusal :=
  callOp (.emit .mouse CMD_READ_DATA) s

/-- `CMD_SET_LEDS`: `emit(KBD, 0xED)` (R105, R220). -/
def execCmdSetLeds (s : State) : Host.Outcome State Fault Refusal :=
  callOp (.emit .kbd CMD_SET_LEDS) s

/-- `RATE_200`: `emit(MOUSE, 0xC8)` (R106). -/
def execRate200 (s : State) : Host.Outcome State Fault Refusal :=
  callOp (.emit .mouse RATE_200) s

/-- `RATE_100`: `emit(MOUSE, 0x64)` (R106). -/
def execRate100 (s : State) : Host.Outcome State Fault Refusal :=
  callOp (.emit .mouse RATE_100) s

/-- `RATE_80`: `emit(MOUSE, 0x50)` (R106). -/
def execRate80 (s : State) : Host.Outcome State Fault Refusal :=
  callOp (.emit .mouse RATE_80) s

/-- `LED_ARG`: `emit(KBD, 00000cns)` (R109, R220). -/
def execLedArg (c n l : Bool) (s : State) : Host.Outcome State Fault Refusal :=
  callOp (.emit .kbd (ledByte c n l)) s

end Sys2Proof.Machine
end

