-- ==== Sys2Proof/Machine/QueueOps.lean ====
section
/-! DEFINITION. The meanings of the queue stimuli (spec/30_encoding.md R134, 41_queue.md R181 to R184, R190). The
interrupt side owns `push` of an RX queue and `pop` of a TX queue and runs them in one atomic step; the foreground
owns `pop` of an RX queue and `push` of a TX queue (R44, R131). `len` and `is_full` belong to both sides (R181, R182):
with no issuer named they are run as the foreground's, log 18. -/

namespace Sys2Proof.Machine

open Sys2Proof

/-- Record the result of an interrupt-side queue operation (log 5). -/
def State.isrReturns (s : State) (r : Ret) : State :=
  { s with isrRets := s.isrRets ++ [r] }

/-- `push(Q, b)` by an interrupt context, in its one atomic step (R80). -/
def isrPush (q : QSel) (b : Byte) (s : State) : State :=
  (s.push q b).2.isrReturns (.bool (s.push q b).1)

/-- `pop(Q)` by an interrupt context, in its one atomic step (R80). -/
def isrPop (q : QSel) (s : State) : State :=
  (s.pop q).2.isrReturns (.byte (s.pop q).1)

/-- `len(Q)` by an interrupt context (R181). -/
def isrLen (q : QSel) (s : State) : State :=
  s.isrReturns (.len (s.queue q).len)

/-- `is_full(Q)` by an interrupt context (R182). -/
def isrFull (q : QSel) (s : State) : State :=
  s.isrReturns (.bool (s.queue q).isFull)

/-- `PUSH_RX` (R183). -/
def execPushRx (ch : Chan) (b : Byte) (s : State) : Host.Outcome State Fault Refusal :=
  .next (isrPush (.rx ch) b s)

/-- `POP_RX` (R184). -/
def execPopRx (ch : Chan) (s : State) : Host.Outcome State Fault Refusal :=
  callOp (.popRx ch) s

/-- `LEN_RX` (R181), as a foreground operation: log 18. -/
def execLenRx (ch : Chan) (s : State) : Host.Outcome State Fault Refusal :=
  callOp (.len (.rx ch)) s

/-- `FULL_RX` (R182), as a foreground operation: log 18. -/
def execFullRx (ch : Chan) (s : State) : Host.Outcome State Fault Refusal :=
  callOp (.full (.rx ch)) s

/-- `PUSH_TX` (R183, R191). -/
def execPushTx (ch : Chan) (b : Byte) (s : State) : Host.Outcome State Fault Refusal :=
  callOp (.pushTx ch b) s

/-- `POP_TX` (R184). -/
def execPopTx (ch : Chan) (s : State) : Host.Outcome State Fault Refusal :=
  .next (isrPop (.tx ch) s)

/-- `LEN_TX` (R181), as a foreground operation: log 18. -/
def execLenTx (ch : Chan) (s : State) : Host.Outcome State Fault Refusal :=
  callOp (.len (.tx ch)) s

/-- `FULL_TX` (R182), as a foreground operation: log 18. -/
def execFullTx (ch : Chan) (s : State) : Host.Outcome State Fault Refusal :=
  callOp (.full (.tx ch)) s

/-- `EMIT` (R190). -/
def execEmit (ch : Chan) (b : Byte) (s : State) : Host.Outcome State Fault Refusal :=
  callOp (.emit ch b) s

end Sys2Proof.Machine
end

