-- ==== Sys2Proof/Machine/Transceiver.lean ====
section
/-! DEFINITION. The bit-level transceiver (spec/40_transceiver.md): the bodies of the edge, timer and kick handlers,
rule by rule, and the meanings of EDGE, TIMER and KICK. -/

namespace Sys2Proof.Machine

open Sys2Proof

/-! ## Receive path -/

/-- R142: start bit. -/
def startBit (ch : Chan) (d : Bool) (s : State) : State :=
  (s.setChn ch { s.chn ch with
    err := d
    shift := 0x00
    parity := true
    bitcnt := 1
    status := .receiving }).armTimer ch s.cfg.tBitUs

/-- R143: data bit of position `k = ch.bitcnt`, 1 to 8. -/
def dataBit (ch : Chan) (d : Bool) (s : State) : State :=
  let c := s.chn ch
  (s.setChn ch { c with
    shift := setBit c.shift (c.bitcnt.toNat - 1) d
    parity := parityStep c.parity d
    bitcnt := c.bitcnt + 1 }).restartTimer ch

/-- R144: parity bit. -/
def parityBit (ch : Chan) (d : Bool) (s : State) : State :=
  let c := s.chn ch
  (s.setChn ch { c with
    err := c.err || d != c.parity
    bitcnt := 10 }).restartTimer ch

/-- R146: delivery of a received byte. -/
def deliver (ch : Chan) (b : Byte) (err : Bool) (s : State) : State :=
  let s := s.transfer (.received ch b err)
  let s := if err then s.raise (.frameError ch) else s
  let r := s.push (.rx ch) b
  if r.1 then r.2 else r.2.raise (.overflow ch)

/-- R145: stop bit and completion. -/
def stopBit (ch : Chan) (d : Bool) (s : State) : State :=
  let c := s.chn ch
  let err := c.err || d != true
  let s := s.setChn ch { c with err := err }
  let s := deliver ch c.shift err s
  (s.setChn ch { s.chn ch with
    bitcnt := 0
    status := .postSettle }).armTimer ch s.cfg.tGapUs

/-! ## Send path -/

/-- The request-to-send pulse (R147, R150). -/
def requestToSend (ch : Chan) (s : State) : State :=
  let s := s.clearLine (.clk ch)
  (s.setChn ch { s.chn ch with status := .sendRequested }).armTimer ch s.cfg.tStartUs

/-- R147: the kick handler's body; `KICKPEND` is cleared at entry. -/
def kickBody (ch : Chan) (s : State) : State :=
  if (s.chn ch).status = .passive ∧ (s.queue (.tx ch)).len ≠ 0 then requestToSend ch s else s

/-- R149: the abandon procedure. -/
def abandon (ch : Chan) (s : State) : State :=
  let s := s.setLine (.data ch)
  let s := s.setLine (.clk ch)
  let s := s.stopTimer ch
  s.setChn ch { s.chn ch with bitcnt := 0, status := .passive }

/-- R150: inter-frame gap expiry. -/
def gapExpiry (ch : Chan) (s : State) : State :=
  if (s.queue (.tx ch)).len ≠ 0 then requestToSend ch s
  else s.setChn ch { s.chn ch with status := .passive }

/-- R151: start-pulse expiry: start bit, or collapse. -/
def startPulseExpiry (ch : Chan) (s : State) : State :=
  match s.pop (.tx ch) with
  | (some b, s) =>
    let s := s.setChn ch { s.chn ch with shift := b, parity := true, err := false, bitcnt := 1 }
    let s := s.clearLine (.data ch)
    let s := s.setLine (.clk ch)
    (s.setChn ch { s.chn ch with status := .sending }).armTimer ch s.cfg.tBitUs
  | (none, s) =>
    let s := s.setLine (.clk ch)
    s.setChn ch { s.chn ch with status := .passive }

/-- R152: sent data bit of position `k = ch.bitcnt`, 1 to 8. -/
def sentDataBit (ch : Chan) (s : State) : State :=
  let bit := (s.chn ch).shift.getLsbD ((s.chn ch).bitcnt.toNat - 1)
  let s := s.driveLine (.data ch) bit
  let c := s.chn ch
  (s.setChn ch { c with
    parity := parityStep c.parity bit
    bitcnt := c.bitcnt + 1 }).restartTimer ch

/-- R153: sent parity bit. -/
def sentParityBit (ch : Chan) (s : State) : State :=
  let s := s.driveLine (.data ch) (s.chn ch).parity
  (s.setChn ch { s.chn ch with bitcnt := 10 }).restartTimer ch

/-- R154: sent stop bit. -/
def sentStopBit (ch : Chan) (s : State) : State :=
  let s := s.setLine (.data ch)
  (s.setChn ch { s.chn ch with bitcnt := 11 }).restartTimer ch

/-- R155: acknowledgement bit and completion. -/
def ackBit (ch : Chan) (d : Bool) (s : State) : State :=
  let s := s.setChn ch { s.chn ch with err := d, bitcnt := 0, status := .postSettle }
  let s := s.armTimer ch s.cfg.tGapUs
  s.transfer (.sent ch (s.chn ch).shift d)

/-! ## Handlers -/

/-- R141: edge handler dispatch. `d` is the level `read_line(ch.DATA)` returns at entry (R132). -/
def edgeBody (ch : Chan) (d : Bool) (s : State) : State :=
  let c := s.chn ch
  match c.status with
  | .passive | .postSettle => startBit ch d s
  | .receiving =>
    if c.bitcnt.toNat ≤ 8 then dataBit ch d s
    else if c.bitcnt.toNat = 9 then parityBit ch d s
    else stopBit ch d s
  | .sendRequested => s  -- R157: ignored
  | .sending =>
    if c.bitcnt.toNat ≤ 8 then sentDataBit ch s
    else if c.bitcnt.toNat = 9 then sentParityBit ch s
    else if c.bitcnt.toNat = 10 then sentStopBit ch s
    else ackBit ch d s

/-- R148: timer handler dispatch; the expiry has disarmed the timer at entry. -/
def timerBody (ch : Chan) (s : State) : State :=
  match (s.chn ch).status with
  | .passive => s  -- R158: ignored
  | .receiving => abandon ch s
  | .postSettle => gapExpiry ch s
  | .sendRequested => startPulseExpiry ch s
  | .sending => abandon ch s  -- R156

/-- The edge handler as one atomic step (R21, R141). -/
def edgeHandler (ch : Chan) (d : Bool) (s : State) : Host.Outcome State Fault Refusal :=
  s.takeInterrupt (.edge ch) (edgeBody ch d)

/-- The timer handler as one atomic step (R21, R148). -/
def timerHandler (ch : Chan) (s : State) : Host.Outcome State Fault Refusal :=
  s.takeInterrupt (.timer ch) (timerBody ch)

/-- The kick handler as one atomic step (R21, R147). -/
def kickHandler (ch : Chan) (s : State) : Host.Outcome State Fault Refusal :=
  s.takeInterrupt (.kick ch) (kickBody ch)

/-- `EDGE` (R141). -/
def execEdge (ch : Chan) (d : Bool) (s : State) : Host.Outcome State Fault Refusal :=
  edgeHandler ch d s

/-- `TIMER` (R148). -/
def execTimer (ch : Chan) (s : State) : Host.Outcome State Fault Refusal :=
  timerHandler ch s

/-- `KICK` (R147). -/
def execKick (ch : Chan) (s : State) : Host.Outcome State Fault Refusal :=
  kickHandler ch s

end Sys2Proof.Machine
end

