-- ==== Sys2Proof/Machine/Wire.lean ====
section
/-! DEFINITION. The meanings of the pseudo-stimuli (spec/30_encoding.md R139), of the two wire formats (R101, R103) and
of the bytes a mouse sends (R107, R108): sequences of handler runs. Logs 12, 14, 15. -/

namespace Sys2Proof.Machine

open Sys2Proof

/-- The edge handler once for each level, in order. -/
def runEdges (ch : Chan) : List Bool → State → Host.Outcome State Fault Refusal
  | [], s => .next s
  | d :: ds, s => andThen (edgeHandler ch d s) (runEdges ch ds)

/-- The 11 edges of a frame (R139): `s, b[0..7], p, t`. -/
def runFrame (ch : Chan) (start : Bool) (b : Byte) (p t : Bool) (s : State) : Host.Outcome State Fault Refusal :=
  runEdges ch (frameLevels start b p t) s

/-- A device sends `b` as a well-formed frame (R101). -/
def deviceSends (ch : Chan) (b : Byte) (s : State) : Host.Outcome State Fault Refusal :=
  runFrame ch false b (oddParity b) true s

/-- `RXBYTE` (R139). -/
def execRxbyte (ch : Chan) (b : Byte) (s : State) : Host.Outcome State Fault Refusal :=
  deviceSends ch b s

/-- `RXFRAME` (R139). -/
def execRxframe (ch : Chan) (start : Bool) (b : Byte) (p t : Bool) (s : State) :
    Host.Outcome State Fault Refusal :=
  runFrame ch start b p t s

/-- `TXCLOCK` (R139): the levels the host is driving for byte `b`, then the acknowledgement level. -/
def execTxclock (ch : Chan) (b : Byte) (ack : Bool) (s : State) : Host.Outcome State Fault Refusal :=
  runFrame ch false b (oddParity b) ack s

/-- `SETTLE` (R139, R150). -/
def execSettle (ch : Chan) (s : State) : Host.Outcome State Fault Refusal :=
  timerHandler ch s

/-- `PULSE` (R139, R151). -/
def execPulse (ch : Chan) (s : State) : Host.Outcome State Fault Refusal :=
  timerHandler ch s

/-- `FRAME_D2H` (R101): the device drives every position, the host samples each at a falling edge. -/
def execFrameD2H (ch : Chan) (d : Byte) (p : Bool) (s : State) : Host.Outcome State Fault Refusal :=
  runFrame ch false d p true s

/-- `FRAME_H2D` (R103, R104): position 0 is driven at the expiry that ends the request-to-send; positions 1 to 11 are
the device's 11 falling edges. -/
def execFrameH2D (ch : Chan) (d : Byte) (p a : Bool) (s : State) : Host.Outcome State Fault Refusal :=
  andThen (timerHandler ch s) (runFrame ch false d p a)

/-- `MOUSE_STATUS` (R108): the mouse sends the status byte of a packet. -/
def execMouseStatus (yo xo ys xs : Bool) (b : BitVec 3) (s : State) : Host.Outcome State Fault Refusal :=
  deviceSends .mouse (statusByte yo xo ys xs b) s

/-- `REPLY_ACK` (R107). -/
def execReplyAck (s : State) : Host.Outcome State Fault Refusal :=
  deviceSends .mouse REPLY_ACK s

/-- `REPLY_SELFTEST` (R107). -/
def execReplySelftest (s : State) : Host.Outcome State Fault Refusal :=
  deviceSends .mouse REPLY_SELFTEST s

/-- `REPLY_ID0_OR_RESET3` (R107). -/
def execReplyId0OrReset3 (s : State) : Host.Outcome State Fault Refusal :=
  deviceSends .mouse REPLY_ID0 s

/-- `REPLY_ID3` (R107). -/
def execReplyId3 (s : State) : Host.Outcome State Fault Refusal :=
  deviceSends .mouse REPLY_ID3 s

end Sys2Proof.Machine
end

