-- ==== Sys2Proof/Machine/Dispatch.lean ====
section
/-! DEFINITION. One arm per instruction. -/

namespace Sys2Proof.Machine

open Sys2Proof

def exec (i : Instr) (s : State) : Host.Outcome State Fault Refusal :=
  match i with
  | .reset => Sys2Proof.Machine.execReset s
  | .edge ch d => Sys2Proof.Machine.execEdge ch d s
  | .timer ch => Sys2Proof.Machine.execTimer ch s
  | .kick ch => Sys2Proof.Machine.execKick ch s
  | .pushRx ch b => Sys2Proof.Machine.execPushRx ch b s
  | .popRx ch => Sys2Proof.Machine.execPopRx ch s
  | .lenRx ch => Sys2Proof.Machine.execLenRx ch s
  | .fullRx ch => Sys2Proof.Machine.execFullRx ch s
  | .pushTx ch b => Sys2Proof.Machine.execPushTx ch b s
  | .popTx ch => Sys2Proof.Machine.execPopTx ch s
  | .lenTx ch => Sys2Proof.Machine.execLenTx ch s
  | .fullTx ch => Sys2Proof.Machine.execFullTx ch s
  | .emit ch b => Sys2Proof.Machine.execEmit ch b s
  | .getsc => Sys2Proof.Machine.execGetsc s
  | .peek => Sys2Proof.Machine.execPeek s
  | .getkey => Sys2Proof.Machine.execGetkey s
  | .locks => Sys2Proof.Machine.execLocks s
  | .ctrls => Sys2Proof.Machine.execCtrls s
  | .setlocks m => Sys2Proof.Machine.execSetlocks m s
  | .getmove => Sys2Proof.Machine.execGetmove s
  | .reservedMaj lo => Sys2Proof.Machine.execReservedMaj lo s
  | .reservedKbdMin lo => Sys2Proof.Machine.execReservedKbdMin lo s
  | .reservedMouseCh0 lo => Sys2Proof.Machine.execReservedMouseCh0 lo s
  | .rxbyte ch b => Sys2Proof.Machine.execRxbyte ch b s
  | .rxframe ch start b p t => Sys2Proof.Machine.execRxframe ch start b p t s
  | .txclock ch b ack => Sys2Proof.Machine.execTxclock ch b ack s
  | .settle ch => Sys2Proof.Machine.execSettle ch s
  | .pulse ch => Sys2Proof.Machine.execPulse ch s
  | .frameD2H ch d p => Sys2Proof.Machine.execFrameD2H ch d p s
  | .frameH2D ch d p a => Sys2Proof.Machine.execFrameH2D ch d p a s
  | .mouseStatus yo xo ys xs b => Sys2Proof.Machine.execMouseStatus yo xo ys xs b s
  | .ledArg c n l => Sys2Proof.Machine.execLedArg c n l s
  | .cmdReset => Sys2Proof.Machine.execCmdReset s
  | .cmdSetRate => Sys2Proof.Machine.execCmdSetRate s
  | .cmdIdentify => Sys2Proof.Machine.execCmdIdentify s
  | .cmdEnable => Sys2Proof.Machine.execCmdEnable s
  | .cmdReadData => Sys2Proof.Machine.execCmdReadData s
  | .cmdSetLeds => Sys2Proof.Machine.execCmdSetLeds s
  | .rate200 => Sys2Proof.Machine.execRate200 s
  | .rate100 => Sys2Proof.Machine.execRate100 s
  | .rate80 => Sys2Proof.Machine.execRate80 s
  | .replyAck => Sys2Proof.Machine.execReplyAck s
  | .replySelftest => Sys2Proof.Machine.execReplySelftest s
  | .replyId0OrReset3 => Sys2Proof.Machine.execReplyId0OrReset3 s
  | .replyId3 => Sys2Proof.Machine.execReplyId3 s
  | .scExtPrefix => Sys2Proof.Machine.execScExtPrefix s
  | .scBrkPrefix => Sys2Proof.Machine.execScBrkPrefix s
  | .scE1 => Sys2Proof.Machine.execScE1 s

end Sys2Proof.Machine
end

