-- ==== Sys2Proof/Machine/Scheduler.lean ====
section
/-! DEFINITION. Who may issue a stimulus (spec/30_encoding.md R131, 10_state.md R44, 60_exceptions.md R325), which
foreground operation an instruction calls, how one input of the tape is run, and the tape's front. -/

namespace Sys2Proof.Machine

open Sys2Proof

/-- The foreground operation an instruction calls; `none` for construction, the reserved words and everything that
runs in interrupt context (R131). LEN and FULL, which either side may call (R181, R182), are the foreground's unless an
interrupt context is named (`isrQuery`): log 18. -/
def fgOpOf : Instr → Option FgOp
  | .popRx ch => some (.popRx ch)
  | .lenRx ch => some (.len (.rx ch))
  | .fullRx ch => some (.full (.rx ch))
  | .pushTx ch b => some (.pushTx ch b)
  | .lenTx ch => some (.len (.tx ch))
  | .fullTx ch => some (.full (.tx ch))
  | .emit ch b => some (.emit ch b)
  | .getsc => some .getScancode
  | .peek => some .keyPeek
  | .getkey => some .getKey
  | .locks => some .lockStatus
  | .ctrls => some .ctrlStatus
  | .setlocks m => some (.setLocks m)
  | .getmove => some .getMove
  | .ledArg c n l => some (.emit .kbd (ledByte c n l))
  | .cmdReset => some (.emit .mouse CMD_RESET)
  | .cmdSetRate => some (.emit .mouse CMD_SET_RATE)
  | .cmdIdentify => some (.emit .mouse CMD_IDENTIFY)
  | .cmdEnable => some (.emit .mouse CMD_ENABLE)
  | .cmdReadData => some (.emit .mouse CMD_READ_DATA)
  | .cmdSetLeds => some (.emit .kbd CMD_SET_LEDS)
  | .rate200 => some (.emit .mouse RATE_200)
  | .rate100 => some (.emit .mouse RATE_100)
  | .rate80 => some (.emit .mouse RATE_80)
  | .scExtPrefix => some (.decodeByte SC_EXT)
  | .scBrkPrefix => some (.decodeByte SC_BRK)
  | .scE1 => some (.decodeByte SC_E1)
  | .reset | .edge _ _ | .timer _ | .kick _ | .pushRx _ _ | .popTx _ => none
  | .reservedMaj _ | .reservedKbdMin _ | .reservedMouseCh0 _ => none
  | .rxbyte _ _ | .rxframe _ _ _ _ _ | .txclock _ _ _ | .settle _ | .pulse _ => none
  | .frameD2H _ _ _ | .frameH2D _ _ _ _ | .mouseStatus _ _ _ _ _ => none
  | .replyAck | .replySelftest | .replyId0OrReset3 | .replyId3 => none

/-- The channel whose interrupt context runs an instruction that the foreground does not (R131). -/
def isrChanOf : Instr → Option Chan
  | .edge ch _ | .timer ch | .kick ch | .pushRx ch _ | .popTx ch => some ch
  | .rxbyte ch _ | .rxframe ch _ _ _ _ | .txclock ch _ _ | .settle ch | .pulse ch => some ch
  | .frameD2H ch _ _ | .frameH2D ch _ _ _ => some ch
  | .mouseStatus _ _ _ _ _ | .replyAck | .replySelftest | .replyId0OrReset3 | .replyId3 => some .mouse
  | .reset | .reservedMaj _ | .reservedKbdMin _ | .reservedMouseCh0 _ => none
  | .popRx _ | .lenRx _ | .fullRx _ | .pushTx _ _ | .lenTx _ | .fullTx _ | .emit _ _ => none
  | .getsc | .peek | .getkey | .locks | .ctrls | .setlocks _ | .getmove | .ledArg _ _ _ => none
  | .cmdReset | .cmdSetRate | .cmdIdentify | .cmdEnable | .cmdReadData | .cmdSetLeds => none
  | .rate200 | .rate100 | .rate80 | .scExtPrefix | .scBrkPrefix | .scE1 => none

/-- A queue query that the queue's interrupt-side context may issue as well (R181, R182): what it does there. -/
def isrQuery (ch : Chan) : Instr → Option (State → State)
  | .lenRx c => if c = ch then some (isrLen (.rx c)) else none
  | .fullRx c => if c = ch then some (isrFull (.rx c)) else none
  | .lenTx c => if c = ch then some (isrLen (.tx c)) else none
  | .fullTx c => if c = ch then some (isrFull (.tx c)) else none
  | _ => none

/-- Whether the foreground may issue an instruction: everything that no interrupt context owns (R325). -/
def fgMayIssue (i : Instr) : Bool := (isrChanOf i).isNone

/-- Run an instruction issued by context `c`; a context that does not own it is refused (R86, R348, R350). -/
def execFrom (c : Context) (i : Instr) (s : State) : Host.Outcome State Fault Refusal :=
  match c with
  | .fg => if fgMayIssue i then exec i s else .refused .wrongContext
  | .isr ch =>
    match isrQuery ch i with
    | some f => .next (f s)
    | none => if isrChanOf i = some ch then exec i s else .refused .wrongContext

/-- Run a decoded instruction; `none` is its own agent (R131). -/
def execIssued (issuer : Option Context) (i : Instr) (s : State) : Host.Outcome State Fault Refusal :=
  match issuer with
  | none => exec i s
  | some c => execFrom c i s

/-- Only RESET may come before construction (R340). -/
def whenBuilt (i : Instr) (s : State) (o : Host.Outcome State Fault Refusal) :
    Host.Outcome State Fault Refusal :=
  if s.built || i == .reset then o else .refused .notConstructed

/-- Run an instruction that an input names. -/
def runInstr (issuer : Option Context) (i : Instr) (s : State) : Host.Outcome State Fault Refusal :=
  whenBuilt i s (execIssued issuer i s)

/-- An effect that the foreground owns, after construction; from an interrupt context it is refused (R350). -/
def whenForeground (issuer : Option Context) (s : State) (o : Host.Outcome State Fault Refusal) :
    Host.Outcome State Fault Refusal :=
  if !s.built then .refused .notConstructed
  else
    match issuer with
    | none | some .fg => o
    | some (.isr _) => .refused .wrongContext

/-- Run a code of the tape. -/
def runCode (issuer : Option Context) (c : Code) (s : State) : Host.Outcome State Fault Refusal :=
  match decode c with
  | .ok i => runInstr issuer i s
  | .reject _ =>
    match c.unlisted with
    | .reserved => .refused .reservedStimulus
    | .runs i => runInstr issuer i s
    | .decodes b => whenForeground issuer s (callOp (.decodeByte b) s)

/-- Run a script line (R138). -/
def runLine (i : Instr) (s : State) : Host.Outcome State Fault Refusal :=
  runInstr none i s

/-- The application, in the foreground, calls the operation of an instruction, and no micro-step of it runs yet; one
that calls none is issued by the foreground, which owns construction only and is refused the rest (R86, R348). -/
def callInstr (i : Instr) (s : State) : Host.Outcome State Fault Refusal :=
  match fgOpOf i with
  | some op => whenBuilt i s (.next (s.held op))
  | none => runInstr (some .fg) i s

/-- The application calls the operation of a code. -/
def runCall (c : Code) (s : State) : Host.Outcome State Fault Refusal :=
  match decode c with
  | .ok i => callInstr i s
  | .reject _ =>
    match c.unlisted with
    | .reserved => .refused .reservedStimulus
    | .runs i => callInstr i s
    | .decodes b => whenForeground (some .fg) s (.next (s.held (.decodeByte b)))

/-- Run one input that has been taken off the tape. -/
def runInput (i : Input) (s : State) : Host.Outcome State Fault Refusal :=
  match i with
  | .code issuer c => runCode issuer c s
  | .line i => runLine i s
  | .time t => .next { s with hostNext := some t }
  | .call c => runCall c s
  | .fg => fgMicro s

/-- The next step of the block: the front of the tape; with nothing on the tape the foreground goes on with what it has
to do, and a block with nothing to do waits unchanged. Log 1. -/
def stepInput (s : State) : Host.Outcome State Fault Refusal :=
  match s.tape with
  | [] => fgTurn s
  | i :: rest => runInput i { s with tape := rest }

/-- The state with a table word placed where the next step takes its input. -/
def placeWord (s : State) (nbits w : Nat) : State :=
  { s with tape := .code none (tableCode nbits w) :: s.tape }

end Sys2Proof.Machine
end

