-- ==== Sys2Proof/Safety.lean ====
section
/-! DEFINITION. What the states of a run have in common: the invariant that construction establishes and every step
keeps, part by part with the rule each part comes from, and what counts as a safe run. -/

namespace Sys2Proof.Machine

open Sys2Proof

/-! ## Queues and channels -/

/-- A queue built with a legal capacity, its occupancy within it (R43), its buffer canonical and inside `0 .. C-1`
(R16). -/
structure QueueOk (c : Nat) (q : Queue) : Prop where
  cap    : capValid c = true
  capEq  : q.cap = BitVec.ofNat 32 c
  len    : q.len.toNat ≤ c
  buf    : q.buf.wf = true
  within : ∀ x ∈ q.buf, x.1 < c

/-- The line levels of a state (R160); from R154 on, position 11 of a send, the data line is released. -/
def Channel.linesOk (c : Channel) : Bool :=
  match c.status with
  | .passive | .receiving | .postSettle => c.clkOut == .rel && c.dataOut == .rel
  | .sendRequested => c.clkOut == .low && c.dataOut == .rel
  | .sending => c.clkOut == .rel && (c.bitcnt != 11 || c.dataOut == .rel)

/-- A channel record: a legal position (R164), the timer armed exactly outside `Passive` (R159), the line levels of its
state (R160). -/
structure ChannelOk (c : Channel) : Prop where
  legal : c.legal = true
  timer : c.timerArmed = (c.status != .passive)
  lines : c.linesOk = true

/-! ## Engines -/

/-- Bits 7:6 of `kb.mods` and bits 7:3 of `kb.locks` are 0 (R45, R46). -/
structure KbOk (kb : Kb) : Prop where
  mods  : kb.mods &&& 0xC0 = 0
  locks : kb.locks &&& 0xF8 = 0

/-- Stages `ENA` and `STREAM` belong to Policy C, `POLL` to Policies A and B (R256 to R258). -/
def stageFits : Policy → Stage → Bool
  | .C, .POLL => false
  | .A, .ENA | .B, .ENA | .A, .STREAM | .B, .STREAM => false
  | _, _ => true

/-- The engine state: a stage of its policy, 3 significant button bits (R57). -/
structure MsOk (p : Policy) (ms : Ms) : Prop where
  stage : stageFits p ms.stage = true
  btns  : ms.prevBtns &&& 0xF8 = 0
  acc   : ms.acc.btns &&& 0xF8 = 0

/-! ## The foreground operation in progress -/

/-- A stage that awaits a reply (R269, R256). -/
def Stage.awaits (st : Stage) : Bool := replyLength st != 0

/-- What may follow a `send`. -/
def sendThenOk (p : Policy) : SendThen → Bool
  | .toStage st => stageFits p st
  | .pollA => p != .C
  | .reportB => true

/-- Whether a queue is the receive queue of some channel. -/
def QSel.isRx : QSel → Bool
  | .rx _ => true
  | .tx _ => false

/-- What a pop in progress needs of the `n` bytes still queued, its own byte among them. -/
def popKOk (p : Policy) (ms : Ms) (n : Nat) : PopK → Prop
  | .ret => True
  | .nextChar _ => True
  | .drain _ _ => True
  | .reply got => ms.stage.awaits = true ∧ got.length < replyLength ms.stage ∧
      replyLength ms.stage ≤ got.length + n
  | .pollAck => p ≠ .C ∧ ms.psize.bytes + 1 ≤ n
  | .pollPkt got => p ≠ .C ∧ got.length < ms.psize.bytes ∧ ms.psize.bytes ≤ got.length + n
  | .stream left got => got.length < ms.psize.bytes ∧ (left + 1) * ms.psize.bytes ≤ got.length + n

/-- The queue a pop belongs to: the decode loop pops the keyboard's, the mouse engine the mouse's, `pop` and
`get_scancode` any receive queue (R44). -/
def popQueueOk (q : QSel) : PopK → Bool
  | .ret => q.isRx
  | .nextChar _ => q == .rx .kbd
  | .drain _ _ | .reply _ | .pollAck | .pollPkt _ | .stream _ _ => q == .rx .mouse

/-- What follows a push in progress. -/
def pushKOk (p : Policy) : PushK → Bool
  | .ret => true
  | .emit _ (.stamp t) => sendThenOk p t
  | .emit _ .ret | .emit _ .retNone | .emit _ (.nextChar _) => true

/-- The operation in progress between two micro-steps (R80, R322): past its first micro-step a pop has a byte to take
and a push has room, since only the other context moves the other index, and only to their favour (R44). -/
def Task.ok (s : State) : Task → Prop
  | .len q k =>
    match k with
    | .ret | .retFull => True
    | .reply => q = .rx .mouse ∧ s.ms.stage.awaits = true
    | .poll => q = .rx .mouse ∧ s.cfg.policy ≠ .C
    | .drain _ | .stream | .count | .resynced | .reported _ => q = .rx .mouse
  | .pop ph q k => popQueueOk q k = true ∧ popKOk s.cfg.policy s.ms s.mouse.rx.len.toNat k ∧
      (ph = .readW ∨ (s.queue q).w ≠ (s.queue q).r)
  | .push ph q _ k => q.isRx = false ∧ pushKOk s.cfg.policy k = true ∧ (ph = .readR ∨ (s.queue q).isFull = false)
  | .now k =>
    match k with
    | .stamp t => sendThenOk s.cfg.policy t = true
    | .pollDeadline => s.cfg.policy ≠ .C
    | .replyDeadline | .seen _ | .resyncDeadline | .resynced => True

/-! ## The invariant -/

/-- Everything but the operation in progress. -/
structure BaseOk (s : State) : Prop where
  built : s.built = true
  cfg   : validCfg s.cfg = true
  chn   : ∀ ch, ChannelOk (s.chn ch)
  queue : ∀ q, QueueOk (capOf s.cfg q) (s.queue q)
  kb    : KbOk s.kb
  ms    : MsOk s.cfg.policy s.ms

/-- The invariant. -/
structure StateOk (s : State) : Prop where
  base : BaseOk s
  fg   : ∀ t, s.fg = some t → t.ok s

/-! ## What each context writes (R321, R325) -/

/-- Bytes pushed one after another; a push that finds the queue full leaves it as it is (R183). -/
def Queue.pushAll (q : Queue) : List Byte → Queue
  | [] => q
  | b :: bs => Queue.pushAll (q.push b).2 bs

/-- `n` pops one after another (R184). -/
def Queue.popN (q : Queue) : Nat → Queue
  | 0 => q
  | n + 1 => Queue.popN q.pop.2 n

/-- What the interrupt context of a channel may do to the state: the channel record, pushes onto its RX queue, pops of
its TX queue, clearing its kick latch, and records in the traces (R321, R325); everything else stays. -/
structure IsrWrites (ch : Chan) (s t : State) : Prop where
  frame : ∃ p ns es rs, t = { s.setPort ch p with
    notes := s.notes ++ ns, wire := s.wire ++ es, isrRets := s.isrRets ++ rs }
  rx    : ∃ bs, (t.port ch).rx = (s.port ch).rx.pushAll bs
  tx    : ∃ n, (t.port ch).tx = (s.port ch).tx.popN n
  kick  : (t.port ch).kickPend = true → (s.port ch).kickPend = true

/-- What the foreground may do to the state: `kb.*`, `ms.*`, pops of RX queues, pushes onto TX queues, setting kick
latches, its own control state, the timebase, and records in its traces (R325); everything else stays. -/
structure FgWrites (s t : State) : Prop where
  cfg     : t.cfg = s.cfg
  built   : t.built = s.built
  chn     : ∀ ch, (t.port ch).chn = (s.port ch).chn
  rx      : ∀ ch, ∃ n, (t.port ch).rx = (s.port ch).rx.popN n
  tx      : ∀ ch, ∃ bs, (t.port ch).tx = (s.port ch).tx.pushAll bs
  kick    : ∀ ch, (s.port ch).kickPend = true → (t.port ch).kickPend = true
  rets    : ∃ rs, t.rets = s.rets ++ rs
  notes   : ∃ ns, t.notes = s.notes ++ ns
  wire    : t.wire = s.wire
  isrRets : t.isrRets = s.isrRets
  tape    : t.tape = s.tape

/-! ## Safe runs -/

/-- A state from which no run faults, whatever its tape and its free values: "No stimulus of the block faults or
traps" (R25). A refusal may still end a run. -/
def Safe (s : State) : Prop := ∀ k f, Sys2Proof.core.run k s ≠ .fault f

end Sys2Proof.Machine
end

