-- ==== Sys2Proof/WellFormed.lean ====
section
/-! DEFINITION. Which instruction terms are well formed. The operand types already bound every field of a stimulus
word and of a byte; the two wire formats require the parity position to hold the odd parity of the data
(spec/30_encoding.md R101, R103, R104). Well-formed is what the encoder's words decode back to; a frame with another
parity runs all the same (R146, log 17). -/

namespace Sys2Proof

/-- The parity position of a wire frame holds the odd parity of its data (R101, R102). -/
def parityMatches (d : Byte) (p : Bool) : Bool :=
  p == oddParity d

/-- Well-formedness of an instruction. -/
def Instr.wellFormed : Instr → Bool
  | .frameD2H _ d p => parityMatches d p
  | .frameH2D _ d p _ => parityMatches d p
  | .reset | .edge _ _ | .timer _ | .kick _ => true
  | .pushRx _ _ | .popRx _ | .lenRx _ | .fullRx _ | .pushTx _ _ | .popTx _ | .lenTx _ | .fullTx _ => true
  | .emit _ _ | .getsc | .peek | .getkey | .locks | .ctrls | .setlocks _ | .getmove => true
  | .reservedMaj _ | .reservedMouseCh0 _ => true
  -- the row's pattern ends at bit 9: bit 8 and the operand byte are free (`MIN` 6 or 7)
  | .reservedKbdMin _ => true
  | .rxbyte _ _ | .rxframe _ _ _ _ _ | .txclock _ _ _ | .settle _ | .pulse _ => true
  | .mouseStatus _ _ _ _ _ | .ledArg _ _ _ => true
  | .cmdReset | .cmdSetRate | .cmdIdentify | .cmdEnable | .cmdReadData | .cmdSetLeds => true
  | .rate200 | .rate100 | .rate80 => true
  | .replyAck | .replySelftest | .replyId0OrReset3 | .replyId3 => true
  | .scExtPrefix | .scBrkPrefix | .scE1 => true

end Sys2Proof
end

