-- ==== Sys2Proof/Certificates/Slice0/Obligations.lean ====
section
/-! DEFINITION. The statements for the provers, in the order of the spec's files, and the words they are written in.
Marks: a docstring that ends in "model's choice" rests on the log entry it names, not on a rule of spec/. -/

namespace Sys2Proof.Machine

open Sys2Proof

/-! ## Words used below -/

/-- Instructions one after another, stopping at the first stop. -/
def execAll : List Instr → State → Host.Outcome State Fault Refusal
  | [], s => .next s
  | i :: is, s => andThen (exec i s) (execAll is)

/-- The rows that R137 reserves as a whole. -/
def isReservedRow : Instr → Bool
  | .reservedMaj _ | .reservedKbdMin _ | .reservedMouseCh0 _ => true
  | _ => false

/-- A stimulus word that R137 reserves whatever the state, by the fields of R130: `MAJ` 8 to F; a field that R132 to
R136 say must be 0 is not 0; `KBD` with `CH = 1` or `MIN` 6 or 7; `MOUSE` with `CH = 0` or `MIN` not 0. -/
def reservedWord (w : BitVec 16) : Bool :=
  let maj := (w.extractLsb' 12 4).toNat
  let ch := w.getLsbD 11
  let mn := (w.extractLsb' 8 3).toNat
  let imm := (w.extractLsb' 0 8).toNat
  decide (8 ≤ maj)
    || (decide (maj = 0) && (ch || decide (mn ≠ 0) || decide (imm ≠ 0)))
    || (decide (maj = 1) && (decide (mn ≠ 0) || decide (2 ≤ imm)))
    || ((decide (maj = 2) || decide (maj = 3)) && (decide (mn ≠ 0) || decide (imm ≠ 0)))
    || (decide (maj = 4) && decide (mn % 4 ≠ 0) && decide (imm ≠ 0))
    || (decide (maj = 5) && decide (mn ≠ 0))
    || (decide (maj = 6) && (ch || decide (6 ≤ mn) || (decide (mn ≠ 5) && decide (imm ≠ 0))))
    || (decide (maj = 7) && (!ch || decide (mn ≠ 0) || decide (imm ≠ 0)))

/-- Every slot of every queue buffer reads as before. -/
def SameSlots (s t : State) : Prop :=
  ∀ q a, Memory.read (t.queue q).buf a = Memory.read (s.queue q).buf a

/-- Every slot but slot `a0` of queue `q0` reads as before. -/
def SameSlotsBut (q0 : QSel) (a0 : Nat) (s t : State) : Prop :=
  ∀ q a, ¬ (q = q0 ∧ a = a0) → Memory.read (t.queue q).buf a = Memory.read (s.queue q).buf a

/-- Every slot reads as before but those that pushes filled: slot `(w + k) & (C-1)` (R183) for the `k` below the number
of pushes. -/
def OnlyPushedSlots (s t : State) : Prop :=
  ∀ q a, (∀ k < ((t.queue q).w - (s.queue q).w).toNat, (s.queue q).slot ((s.queue q).w + BitVec.ofNat 32 k) ≠ a) →
    Memory.read (t.queue q).buf a = Memory.read (s.queue q).buf a

/-- A GETMOVE call is over, and nothing but the mouse engine, the mouse queues and kick latch, the timebase, the
notifications and the returned values differs. -/
structure MouseCallDone (s t : State) : Prop where
  cfg     : t.cfg = s.cfg
  kbd     : t.kbd = s.kbd
  chn     : t.mouse.chn = s.mouse.chn
  kb      : t.kb = s.kb
  idle    : t.fg = none ∧ t.hostFixed = none ∧ t.calls = s.calls
  wire    : t.wire = s.wire
  isrRets : t.isrRets = s.isrRets
  tape    : t.tape = s.tape

/-- A keyboard operation has run, and nothing but the decoder, the keyboard's queues and kick latch, the foreground's own
control state and the returned values differs. -/
structure KeyboardRan (s t : State) : Prop where
  cfg     : t.cfg = s.cfg
  mouse   : t.mouse = s.mouse
  chn     : t.kbd.chn = s.kbd.chn
  ms      : t.ms = s.ms
  calls   : t.calls = s.calls
  notes   : t.notes = s.notes
  wire    : t.wire = s.wire
  isrRets : t.isrRets = s.isrRets
  tape    : t.tape = s.tape

/-- The operation in progress is over, and the value a script line fixed for it with it (R138). -/
def Over (t : State) : Prop := t.fg = none ∧ t.hostFixed = none

/-- A GETMOVE waits to push the `k`-th of the bytes `cmd` (R190, R271), those before it being queued; nothing else of the
mouse's TX port differs from `s`, and no value has been returned. -/
structure CommandWaits (s t : State) (cmd : List Byte) (th : SendThen) (k : Nat) : Prop where
  fg      : ∃ b rest, cmd.drop k = b :: rest ∧ t.fg = some (.push .readR (.tx .mouse) b (.emit rest (.stamp th)))
  tx      : t.mouse.tx.contents = s.mouse.tx.contents ++ cmd.take k
  kick    : t.mouse.kickPend = true
  chn     : t.mouse.chn = s.mouse.chn
  cfg     : t.cfg = s.cfg
  kbd     : t.kbd = s.kbd
  kb      : t.kb = s.kb
  calls   : t.calls = s.calls
  notes   : t.notes = s.notes
  rets    : t.rets = s.rets
  wire    : t.wire = s.wire
  isrRets : t.isrRets = s.isrRets
  tape    : t.tape = s.tape

/-- The mouse's TX queue has room for `n` bytes. -/
def mouseRoom (s : State) (n : Nat) : Prop := s.mouse.tx.len.toNat + n ≤ s.cfg.capTxMouse

/-- How many bytes the keyboard's TX queue has room for. -/
def kbdFree (s : State) : Nat := s.cfg.capTxKbd - s.kbd.tx.len.toNat

/-- The keyboard's TX queue has room for `n` bytes. -/
def kbdRoom (s : State) (n : Nat) : Prop := s.kbd.tx.len.toNat + n ≤ s.cfg.capTxKbd

/-- How a run of the decode loop (R221) stops: it returns with a character or at the end of the queue, or it waits to
push `b`, with the bytes `rest` to push after it (R190). -/
inductive ScanStop where
  | ends (o : Option Byte)
  | waits (b : Byte) (rest : List Byte)

/-- What a run of the decode loop leaves: how it stops, the decoder state, the bytes still queued, the LED bytes pushed
(R208). -/
structure Scan where
  stop : ScanStop
  kb   : Kb
  left : List Byte
  leds : List Byte

/-- The decode loop (R221) on the queued bytes, with `room` free places in the keyboard's TX queue. -/
def scanKeys (cfg : Cfg) : Nat → Kb → List Byte → Scan
  | _, kb, [] => ⟨.ends none, kb, [], []⟩
  | room, kb, c :: cs =>
    match decodeByte cfg kb c with
    | (.char v, kb') => ⟨.ends (some v), kb', cs, []⟩
    | (.nothing, kb') => scanKeys cfg room kb' cs
    | (.lock, kb') =>
      match room with
      | 0 => ⟨.waits 0xED [kb'.locks], kb', cs, []⟩
      | 1 => ⟨.waits kb'.locks [], kb', cs, [0xED]⟩
      | room + 2 =>
        let r := scanKeys cfg room kb' cs
        { r with leds := 0xED :: kb'.locks :: r.leds }

/-- The decode loop from the wait in which the bytes `pend` are still to be pushed (R190). -/
def resumeKeys (cfg : Cfg) (room : Nat) (pend : List Byte) (kb : Kb) (bs : List Byte) : Scan :=
  match pend.drop room with
  | b :: rest => ⟨.waits b rest, kb, bs, pend.take room⟩
  | [] =>
    let r := scanKeys cfg (room - pend.length) kb bs
    { r with leds := pend ++ r.leds }

/-- `t` is what PEEK (`peek`) or GETKEY leaves of `s` after the run `r` of the decode loop (R216, R217). -/
structure Scanned (peek : Bool) (s t : State) (r : Scan) : Prop where
  ran  : KeyboardRan s t
  left : t.kbd.rx.contents = r.left
  leds : t.kbd.tx.contents = s.kbd.tx.contents ++ r.leds
  stop : match r.stop with
    | .ends o => Over t ∧ t.kbd.kickPend = (s.kbd.kickPend || !r.leds.isEmpty) ∧
        t.kb = (match peek, o with | true, some v => { r.kb with cache := v, cacheValid := true } | _, _ => r.kb) ∧
        t.rets = s.rets ++ [if peek then .bool o.isSome else .byte o]
    | .waits b rest => t.fg = some (.push .readR (.tx .kbd) b (.emit rest (.nextChar peek))) ∧
        t.kbd.kickPend = true ∧ t.kb = r.kb ∧ t.rets = s.rets

/-- What a GETMOVE that sends is about to send (R251 to R256, R259, R260): the bytes, what follows them, the engine state
they are sent in, and the bytes left in the RX queue. -/
def nextCommand (s : State) : Option (List Byte × SendThen × Ms × List Byte) :=
  let q := s.mouse.rx.contents
  let ms := s.ms
  let answered (reply cmd : List Byte) (st : Stage) : Option (List Byte × SendThen × Ms × List Byte) :=
    if q.take reply.length = reply then some (cmd, .toStage st, ms, q.drop reply.length) else none
  match ms.stage with
  | .U => some ([0xFF], .toStage .RST, ms, [])
  | .RST => answered [0xFA, 0xAA, 0x00] [0xF3, 0xC8] .SR1
  | .SR1 => answered [0xFA, 0xFA] [0xF3, 0x64] .SR2
  | .SR2 => answered [0xFA, 0xFA] [0xF3, 0x50] .SR3
  | .SR3 => answered [0xFA, 0xFA] [0xF2] .ID
  | .ID =>
    match q with
    | a :: id :: rest =>
      if a = 0xFA ∧ (id = 0x00 ∨ id = 0x03) then
        let ms := { ms with psize := if id = 0x03 then .four else .three }
        match s.cfg.policy with
        | .C => some ([0xF4], .toStage .ENA, ms, rest)
        | .B => some ([0xEB], .toStage .POLL, { ms with stage := .POLL }, rest)
        | .A => none
      else none
    | _ => none
  | .POLL =>
    match s.cfg.policy, q with
    | .A, _ => some ([0xEB], .pollA, ms, q)
    | .B, a :: rest =>
      if a = 0xFA ∧ ms.psize.bytes ≤ rest.length then
        some ([0xEB], .reportB, { ms with acc := decodePacket ms.psize (rest.take ms.psize.bytes) },
          rest.drop ms.psize.bytes)
      else none
    | _, _ => none
  | .ENA | .STREAM => none

/-- The drain of R262: at most `n` packets of the queued bytes are added up, ending at a packet whose buttons differ
from `prev`; the sum and the bytes left. -/
def coalesce (ps : PSize) (prev : Byte) : Nat → Move → List Byte → Move × List Byte
  | 0, acc, bs => (acc, bs)
  | n + 1, acc, bs =>
    let p := decodePacket ps (bs.take ps.bytes)
    let acc := acc.add p
    if p.btns ≠ prev then (acc, bs.drop ps.bytes) else coalesce ps prev n acc (bs.drop ps.bytes)

/-- Whether Policies A and B report a packet (R267). -/
def reportable (p : Move) (prev : Byte) : Prop := p.x ≠ 0 ∨ p.y ≠ 0 ∨ p.z ≠ 0 ∨ p.btns ≠ prev

/-- A receive queue in use at the granularity of R80: its producer pushes in whole handler steps, its consumer pops in
micro-steps. `accepted` are the bytes of successful pushes, `popped` those of successful pops. -/
structure RxRun where
  q        : Queue
  phase    : PopPhase
  accepted : List Byte
  popped   : List Byte

/-- One event: a push of a byte, or the consumer's next micro-step. -/
def RxRun.step (x : RxRun) : Option Byte → RxRun
  | some b => { x with q := (x.q.push b).2, accepted := x.accepted ++ if (x.q.push b).1 then [b] else [] }
  | none =>
    match x.phase with
    | .readW => { x with phase := if x.q.w = x.q.r then .readW else .readSlot }
    | .readSlot => { x with phase := .publish x.q.readSlot }
    | .publish b => { x with q := x.q.publishR, phase := .readW, popped := x.popped ++ [b] }

/-- A transmit queue in use at the granularity of R80: its producer pushes in micro-steps, its consumer pops in whole
handler steps. -/
structure TxRun where
  q        : Queue
  phase    : PushPhase
  byte     : Byte
  accepted : List Byte
  popped   : List Byte

/-- One event: the producer's next micro-step (`some b`: a push that starts there pushes `b`), or a pop. -/
def TxRun.step (x : TxRun) : Option Byte → TxRun
  | some b =>
    match x.phase with
    | .readR => { x with byte := b, phase := if x.q.isFull then .readR else .writeSlot }
    | .writeSlot => { x with q := x.q.writeSlot x.byte, phase := .publish }
    | .publish => { x with q := x.q.publishW, phase := .readR, accepted := x.accepted ++ [x.byte] }
  | none => { x with q := x.q.pop.2, popped := x.popped ++ x.q.pop.1.toList }

/-- `n` micro-steps of the foreground with nothing between them (R80). -/
def fgMicros : Nat → State → Host.Outcome State Fault Refusal
  | 0, s => .next s
  | n + 1, s => andThen (fgMicro s) (fgMicros n)

/-- The latch writes of a send on the data line: eight data bits, the parity bit, the release for the stop bit (R152 to
R154). -/
def sendWire (ch : Chan) (b : Byte) (p : Bool) : List WireEvent :=
  let level (v : Bool) : WireEvent := .latch (.data ch) (if v then .rel else .low)
  [level (b.getLsbD 0), level (b.getLsbD 1), level (b.getLsbD 2), level (b.getLsbD 3), level (b.getLsbD 4),
    level (b.getLsbD 5), level (b.getLsbD 6), level (b.getLsbD 7), level p, .latch (.data ch) .rel]

/-- The state after a complete received frame (R145, R162): the byte, its error flag and the parity accumulator. -/
def afterFrame (ch : Chan) (b : Byte) (err : Bool) (s : State) : State :=
  let c := s.chn ch
  let q := (s.port ch).rx
  { s.setPort ch { s.port ch with
      chn := { c with status := .postSettle, bitcnt := 0, shift := b, parity := oddParity b, timerArmed := true,
                      timerPeriod := s.cfg.tGapUs, err := err }
      rx := if q.isFull then q else (q.writeSlot b).publishW } with
    notes := s.notes ++ (if err then [.frameError ch] else []) ++ (if q.isFull then [.overflow ch] else [])
    wire := s.wire ++ [.received ch b err] }

/-- The state after a complete send (R151 to R155, R163) of the oldest queued byte with acknowledgement level `a`: the
byte is off the queue, the lines are released, and the trace holds start bit, release of the clock, the bits and the
transfer. -/
def afterTransfer (ch : Chan) (a : Bool) (s : State) : State :=
  let q := (s.port ch).tx
  let b := q.readSlot
  { s.setPort ch { s.port ch with
      chn := { s.chn ch with status := .postSettle, bitcnt := 0, shift := b, parity := oddParity b,
                             timerArmed := true, timerPeriod := s.cfg.tGapUs, err := a, clkOut := .rel,
                             dataOut := .rel }
      tx := { q with r := q.r + 1 } } with
    wire := s.wire ++ [.latch (.data ch) .low, .latch (.clk ch) .rel] ++ sendWire ch b (oddParity b) ++
      [.sent ch b a] }

/-- The engine after `fail` (R268) at timestamp `ts`. -/
def failedMs (ts : Word32) : Ms where
  stage := .U
  psize := .three
  ts := ts
  lastLen := 0
  acc := Move.zero
  prevBtns := 0

/-- The command and rate rows, the channel of the device they go to, and their byte (R105, R106). -/
def byteCommands : List (Instr × Chan × Byte) :=
  [(.cmdReset, .mouse, 0xFF), (.cmdSetRate, .mouse, 0xF3), (.cmdIdentify, .mouse, 0xF2), (.cmdEnable, .mouse, 0xF4),
    (.cmdReadData, .mouse, 0xEB), (.cmdSetLeds, .kbd, 0xED), (.rate200, .mouse, 0xC8), (.rate100, .mouse, 0x64),
    (.rate80, .mouse, 0x50)]

/-- The rows that are a byte the mouse sends (R107, R108) and the byte. -/
def mouseBytes (yo xo ys xs : Bool) (btns : BitVec 3) : List (Instr × Byte) :=
  [(.replyAck, 0xFA), (.replySelftest, 0xAA), (.replyId0OrReset3, 0x00), (.replyId3, 0x03),
    (.mouseStatus yo xo ys xs btns,
      BitVec.ofNat 8 (btns.toNat + 8 + 16 * xs.toNat + 32 * ys.toNat + 64 * xo.toNat + 128 * yo.toNat))]

/-- The `await` stages that send a command when their reply is there: stage, reply, command, next stage (R252 to
R255). -/
def awaitTable : List (Stage × List Byte × List Byte × Stage) :=
  [(.RST, [0xFA, 0xAA, 0x00], [0xF3, 0xC8], .SR1), (.SR1, [0xFA, 0xFA], [0xF3, 0x64], .SR2),
    (.SR2, [0xFA, 0xFA], [0xF3, 0x50], .SR3), (.SR3, [0xFA, 0xFA], [0xF2], .ID)]

/-- The stages that await a reply, how many bytes, and the deadline (R252 to R257, R313). -/
def replyTable (cfg : Cfg) : List (Stage × Nat × Word32) :=
  [(.RST, 3, cfg.tResetMs), (.SR1, 2, cfg.tRateMs), (.SR2, 2, cfg.tRateMs), (.SR3, 2, cfg.tRateMs),
    (.ID, 2, cfg.tIdentMs), (.ENA, 1, cfg.tRateMs)]

/-- Whether a complete reply of a stage is the one it expects (R314). -/
def replyExpected (st : Stage) (got : List Byte) : Prop :=
  match st with
  | .RST => got = [0xFA, 0xAA, 0x00]
  | .SR1 | .SR2 | .SR3 => got = [0xFA, 0xFA]
  | .ID => got = [0xFA, 0x00] ∨ got = [0xFA, 0x03]
  | .ENA => got = [0xFA]
  | .U | .POLL | .STREAM => False

end Sys2Proof.Machine

open Sys2Proof Sys2Proof.Machine

/-! ## Encoding (30_encoding.md) -/

/-- Decoding what the encoder writes for a well-formed instruction gives its expansion back: for every row but the five
pseudo-stimuli that is the instruction itself, with every operand. -/
def Obligations.DecodeOfEncodeIsIdentity : Prop :=
  ∀ i : Instr, i.wellFormed = true → (encode i).map decode = (expand i).map Decoded.ok

/-- A code that decodes is the encoding of what it decodes to, and that is well formed. -/
def Obligations.DecodedCodeIsItsEncoding : Prop :=
  ∀ (c : Code) (i : Instr), decode c = .ok i → i.wellFormed = true ∧ encodeOne i = some c

/-- R137, R26, with the examples of R86: every kind of reserved word is refused, whoever issues it or calls it and whatever the state; so is
RESET after construction; and a QOP from a context that does not own that side of the queue, the application's call
included. The three reserved rows stop in every state. -/
def Obligations.ReservedWordsAreRefused : Prop :=
  (∀ (w : BitVec 16) (issuer : Option Context) (s : State), reservedWord w = true →
    (∃ r, runCode issuer (.stimulus w) s = .refused r) ∧ ∃ r, runCall (.stimulus w) s = .refused r) ∧
  (∀ (issuer : Option Context) (s : State), s.built = true →
    (∃ r, runCode issuer (.stimulus 0x0000) s = .refused r) ∧ ∃ r, runCall (.stimulus 0x0000) s = .refused r) ∧
  (∀ (ch : Chan) (b : Byte) (s : State),
    execFrom .fg (.pushRx ch b) s = .refused .wrongContext ∧ execFrom .fg (.popTx ch) s = .refused .wrongContext ∧
    (∀ c, decode c = .ok (.pushRx ch b) ∨ decode c = .ok (.popTx ch) → ∃ r, runCall c s = .refused r) ∧
    ∀ c', execFrom (.isr c') (.popRx ch) s = .refused .wrongContext ∧
      execFrom (.isr c') (.pushTx ch b) s = .refused .wrongContext ∧
      (c' ≠ ch → ∀ i ∈ [Instr.pushRx ch b, .popTx ch, .lenRx ch, .fullRx ch, .lenTx ch, .fullTx ch],
        execFrom (.isr c') i s = .refused .wrongContext)) ∧
  (∀ s : State, (∀ lo, exec (.reservedMaj lo) s = .refused .reservedStimulus) ∧
    (∀ lo, exec (.reservedKbdMin lo) s = .refused .reservedStimulus) ∧
    (∀ lo, exec (.reservedMouseCh0 lo) s = .refused .reservedStimulus))

/-- A word that R137 does not reserve decodes, and to an instruction that is not a reserved row; a reserved word does
not. -/
def Obligations.WordsDecodeUnlessReserved : Prop :=
  ∀ w : BitVec 16, (∃ i, decode (.stimulus w) = .ok i ∧ isReservedRow i = false) ↔ reservedWord w = false

/-- Words and bytes written out from the spec's encodings decode to the instructions they stand for. -/
def Obligations.SampleWordsDecode : Prop :=
  decodeTableWord 16 0x1801 = some (.edge .mouse true) ∧ decodeTableWord 16 0x3000 = some (.kick .kbd) ∧
  decodeTableWord 16 0x4C1C = some (.pushTx .mouse 0x1C) ∧ decodeTableWord 16 0x50ED = some (.emit .kbd 0xED) ∧
  decodeTableWord 16 0x6507 = some (.setlocks 0x07) ∧ decodeTableWord 16 0x7800 = some .getmove ∧
  decodeTableWord 8 0xF3 = some .cmdSetRate ∧ decodeTableWord 8 0xE0 = some .scExtPrefix

/-- R139: each pseudo-stimulus is its expansion, level by level. -/
def Obligations.PseudoStimuliAreTheirExpansions : Prop :=
  ∀ (ch : Chan) (b : Byte) (st p t a : Bool) (s : State),
    let frame (x y z : Bool) : List Instr :=
      [.edge ch x, .edge ch (b.getLsbD 0), .edge ch (b.getLsbD 1), .edge ch (b.getLsbD 2), .edge ch (b.getLsbD 3),
        .edge ch (b.getLsbD 4), .edge ch (b.getLsbD 5), .edge ch (b.getLsbD 6), .edge ch (b.getLsbD 7),
        .edge ch y, .edge ch z]
    exec (.rxbyte ch b) s = execAll (frame false (oddParity b) true) s ∧
    exec (.rxframe ch st b p t) s = execAll (frame st p t) s ∧
    exec (.txclock ch b a) s = execAll (frame false (oddParity b) a) s ∧
    exec (.settle ch) s = execAll [.timer ch] s ∧
    exec (.pulse ch) s = execAll [.timer ch] s

/-- R102: the parity bit is 1 exactly when the byte holds an even number of ones. -/
def Obligations.OddParityIsOneIffPopcountEven : Prop :=
  ∀ d : Byte, oddParity d = true ↔ ((List.range 8).countP fun i => d.getLsbD i) % 2 = 0

/-! ## Steps (00_scope.md, 30_encoding.md) -/

/-- A step whose input decodes to an instruction runs that instruction, issued by the context named or by its own
agent, on the state without that input; the same for a table word placed by `withFetchWord` and for a script line. Before
construction every instruction but RESET is refused (log 26). A code that no row lists is refused if it is a stimulus
word (R26, R137); wire levels and bytes run as the frame of those levels, the mouse's frame of that byte, the emit of that
byte or one decode step of it: model's choice, log 17. A line `@t=N` fixes what `now()` returns for the next foreground
stimulus, until that operation has returned (R138). The tape, and which agent runs a code with no issuer named, are the
model's choice: logs 1 and 18. -/
def Obligations.StepRunsDecodedInstruction : Prop :=
  (∀ (s : State) (rest : List Input) (issuer : Option Context) (c : Code) (i : Instr),
    s.tape = .code issuer c :: rest → decode c = .ok i →
    ((s.built = true ∨ i = .reset) → step s = execIssued issuer i { s with tape := rest } ∧
      (issuer = none → step s = exec i { s with tape := rest })) ∧
    (s.built = false → i ≠ .reset → step s = .refused .notConstructed)) ∧
  (∀ (s : State) (nbits w : Nat) (i : Instr), decodeTableWord nbits w = some i →
    ((s.built = true ∨ i = .reset) → step (s.withFetchWord nbits w) = exec i s) ∧
    (s.built = false → i ≠ .reset → step (s.withFetchWord nbits w) = .refused .notConstructed)) ∧
  (∀ (s : State) (rest : List Input) (c : Code) (r : Reject), s.built = true → s.tape = .code none c :: rest →
    decode c = .reject r →
    let u := { s with tape := rest }
    match c with
    | .stimulus _ => step s = .refused .reservedStimulus
    | .wireD2H ch bits => step s =
      exec (.rxframe ch (bits.getLsbD 0) (bits.extractLsb' 1 8) (bits.getLsbD 9) (bits.getLsbD 10)) u
    | .wireH2D ch bits => step s = exec (.frameH2D ch (bits.extractLsb' 1 8) (bits.getLsbD 9) (bits.getLsbD 11)) u
    | .byte8 b | .deviceReply b => step s = exec (.rxbyte .mouse b) u
    | .hostCmd b | .hostArg b => step s = exec (.emit .mouse b) u
    | .scancode b => step s = callOp (.decodeByte b) u) ∧
  (∀ (s : State) (rest : List Input) (i : Instr), s.tape = .line i :: rest →
    ((s.built = true ∨ i = .reset) → step s = exec i { s with tape := rest }) ∧
    (s.built = false → i ≠ .reset → step s = .refused .notConstructed)) ∧
  (∀ (s : State) (rest : List Input) (n : Word32), s.tape = .time n :: rest →
    step s = .next { s with tape := rest, hostNext := some n }) ∧
  (∀ (s : State) (n : Word32), s.hostNext = some n → s.called.readNow.1 = n ∧ s.called.readNow.2.readNow.1 = n ∧
    s.called.hostNext = none) ∧
  (∀ (s : State) (r : Ret), (s.returns r).hostFixed = none)

/-- R350: a foreground operation that an interrupt context issues is refused, but for the queue queries a handler owns
as well; and what an interrupt context owns is refused to the foreground, as an application's call too, and to the other
channel. Which context owns a host byte row, a device byte row, a scancode row or a wire row is the model's choice, logs
11, 12, 13 and 14. -/
def Obligations.WrongContextIsRefused : Prop :=
  (∀ (i : Instr) (op : FgOp) (ch : Chan) (s : State), fgOpOf i = some op → isrQuery ch i = none →
    execFrom (.isr ch) i s = .refused .wrongContext) ∧
  (∀ (i : Instr) (ch ch' : Chan) (s : State), isrChanOf i = some ch → execFrom .fg i s = .refused .wrongContext ∧
    (ch' ≠ ch → execFrom (.isr ch') i s = .refused .wrongContext) ∧
    ∀ c, decode c = .ok i → s.built = true → runCall c s = .refused .wrongContext)

/-! ## Construction (70_reset_and_hazards.md) -/

/-- R340, R341, R343: construction gives every channel field, queue index, kick latch and engine field its reset value,
releases the four lines in order, has no operation in progress and raises nothing; a configuration that fails validation
gives no block; and a RESET after construction is refused. -/
def Obligations.ResetConstructsTheBlock : Prop :=
  ∀ s : State,
    (s.built = false → validCfg s.cfg = true → ∃ t, exec .reset s = .next t ∧ t.built = true ∧ t.cfg = s.cfg ∧
      (∀ ch, (t.chn ch).status = .passive ∧ (t.chn ch).bitcnt = 0 ∧ (t.chn ch).shift = 0x00 ∧
        (t.chn ch).parity = true ∧ (t.chn ch).timerArmed = false ∧ (t.chn ch).err = false ∧
        (t.chn ch).clkOut = .rel ∧ (t.chn ch).dataOut = .rel ∧ (t.port ch).kickPend = false) ∧
      (∀ q, (t.queue q).cap = BitVec.ofNat 32 (capOf s.cfg q) ∧ (t.queue q).w = 0 ∧ (t.queue q).r = 0) ∧
      t.kb = { mods := 0x00, locks := 0x00, cache := 0x00, cacheValid := false } ∧
      t.ms = { stage := .U, psize := .three, ts := 0, lastLen := 0, acc := { x := 0, y := 0, z := 0, btns := 0 },
               prevBtns := 0 } ∧
      t.fg = none ∧ t.calls = [] ∧ t.notes = s.notes ∧
      t.wire = s.wire ++ [.latch (.data .kbd) .rel, .latch (.clk .kbd) .rel, .latch (.data .mouse) .rel,
        .latch (.clk .mouse) .rel]) ∧
    (s.built = false → validCfg s.cfg = false → exec .reset s = .refused .constructionError) ∧
    (s.built = true → exec .reset s = .refused .resetAfterConstruction)

/-- R10: the legal capacities are the powers of two from 8 to 2^31, and validation accepts exactly configurations
whose four capacities are legal and whose microsecond periods are nonzero. -/
def Obligations.ValidationIsPowersOfTwo : Prop :=
  (∀ c : Nat, capValid c = true ↔ ∃ k, 3 ≤ k ∧ k ≤ 31 ∧ c = 2 ^ k) ∧
  (∀ c : Cfg, validCfg c = true ↔ (∀ q, capValid (capOf c q) = true) ∧ c.tStartUs ≠ 0 ∧ c.tBitUs ≠ 0 ∧ c.tGapUs ≠ 0)

/-- The invariant holds at reset and after every construction. -/
def Obligations.InvariantHoldsAtReset : Prop :=
  StateOk State.reset ∧ ∀ s t : State, exec .reset s = .next t → StateOk t

/-- The invariant is kept by every step. -/
def Obligations.InvariantIsKeptByEveryStep : Prop :=
  ∀ s t : State, StateOk s → step s = .next t → StateOk t

/-- No step from the invariant faults, so no run does: "No stimulus of the block faults or traps". -/
def Obligations.InvariantStatesRunSafely : Prop := ∀ s : State, StateOk s → Safe s

/-- Every instruction but RESET and the three reserved rows answers a next state, which keeps the invariant, from every
state of the invariant: it completes, is ignored, or waits. That a TIMER, KICK, SETTLE or PULSE whose source is not
enabled answers a next state is the model's choice, log 8; that a call made while the foreground is busy does is the
model's choice, log 10; which action a byte or wire row stands for is the model's choice, logs 11 to 14. -/
def Obligations.EveryInstructionAnswersANextState : Prop :=
  ∀ (i : Instr) (s : State), StateOk s → i ≠ .reset → isReservedRow i = false → ∃ t, exec i s = .next t ∧ StateOk t

/-! ## Transceiver (40_transceiver.md) -/

/-- R142, R143, R144: the start bit, the eight data bits and the parity bit of a reception. -/
def Obligations.ReceivedBitEdges : Prop :=
  ∀ (ch : Chan) (d : Bool) (s : State),
    let c := s.chn ch
    ((c.status = .passive ∨ c.status = .postSettle) → c.legal = true →
      exec (.edge ch d) s = .next (s.setChn ch { c with
        err := d, shift := 0x00, parity := true, bitcnt := 1, status := .receiving, timerArmed := true,
        timerPeriod := s.cfg.tBitUs })) ∧
    (∀ k, 1 ≤ k → k ≤ 8 → c.status = .receiving → c.bitcnt.toNat = k →
      ∃ sh : Byte, (∀ i < 8, sh.getLsbD i = if i = k - 1 then d else c.shift.getLsbD i) ∧
        exec (.edge ch d) s = .next (s.setChn ch { c with
          shift := sh, parity := if d then !c.parity else c.parity, bitcnt := BitVec.ofNat 4 (k + 1),
          timerArmed := true })) ∧
    (c.status = .receiving → c.bitcnt = 9 →
      exec (.edge ch d) s = .next (s.setChn ch { c with
        err := if d = c.parity then c.err else true, bitcnt := 10, timerArmed := true }))

/-- R145, R146: the stop bit completes the frame and delivers the byte. What the transfer adds to the trace of R27 is
stated with the whole frame. -/
def Obligations.StopBitEdgeDelivers : Prop :=
  ∀ (ch : Chan) (d : Bool) (s : State), (s.chn ch).status = .receiving → (s.chn ch).bitcnt = 10 →
    let c := s.chn ch
    let q := (s.port ch).rx
    let err := if d then c.err else true
    ∃ trace, exec (.edge ch d) s = .next { s.setPort ch { s.port ch with
        chn := { c with err := err, bitcnt := 0, status := .postSettle, timerArmed := true,
                        timerPeriod := s.cfg.tGapUs }
        rx := if q.isFull then q else (q.writeSlot c.shift).publishW } with
      notes := s.notes ++ (if err then [.frameError ch] else []) ++ (if q.isFull then [.overflow ch] else [])
      wire := trace }

/-- R152, R153, R154, R155: the bits the host drives and the acknowledgement it samples. What the completed transfer adds
to the trace of R27 is stated with the whole send. -/
def Obligations.SentBitEdges : Prop :=
  ∀ (ch : Chan) (d : Bool) (s : State), (s.chn ch).status = .sending →
    let c := s.chn ch
    let drive (v : Bool) (c' : Channel) : State :=
      { s.setChn ch { c' with dataOut := if v then .rel else .low, timerArmed := true } with
        wire := s.wire ++ [.latch (.data ch) (if v then .rel else .low)] }
    (∀ k, 1 ≤ k → k ≤ 8 → c.bitcnt.toNat = k →
      exec (.edge ch d) s = .next (drive (c.shift.getLsbD (k - 1)) { c with
        parity := if c.shift.getLsbD (k - 1) then !c.parity else c.parity, bitcnt := BitVec.ofNat 4 (k + 1) })) ∧
    (c.bitcnt = 9 → exec (.edge ch d) s = .next (drive c.parity { c with bitcnt := 10 })) ∧
    (c.bitcnt = 10 → exec (.edge ch d) s = .next (drive true { c with bitcnt := 11 })) ∧
    (c.bitcnt = 11 → ∃ trace, exec (.edge ch d) s = .next { s.setChn ch { c with
        err := d, bitcnt := 0, status := .postSettle, timerArmed := true, timerPeriod := s.cfg.tGapUs } with
      wire := trace })

/-- R157, R158: an edge in `SendRequested` and a timer expiry in `Passive` are ignored; the expiry has disarmed the
timer (R148). -/
def Obligations.IgnoredEvents : Prop :=
  ∀ (ch : Chan) (s : State), (s.chn ch).legal = true →
    ((s.chn ch).status = .sendRequested → ∀ d, exec (.edge ch d) s = .next s) ∧
    ((s.chn ch).status = .passive → (s.chn ch).timerArmed = true →
      exec (.timer ch) s = .next (s.setChn ch { s.chn ch with timerArmed := false }))

/-- R147: the kick clears its latch, and starts a request-to-send exactly from `Passive` with a byte queued. -/
def Obligations.KickStartsASend : Prop :=
  ∀ (ch : Chan) (s : State), (s.port ch).kickPend = true → (s.chn ch).legal = true →
    ((s.chn ch).status = .passive → (s.port ch).tx.len ≠ 0 →
      exec (.kick ch) s = .next { s.setPort ch { s.port ch with
          kickPend := false
          chn := { s.chn ch with clkOut := .low, status := .sendRequested, timerArmed := true,
                                 timerPeriod := s.cfg.tStartUs } } with
        wire := s.wire ++ [.latch (.clk ch) .low] }) ∧
    (((s.chn ch).status ≠ .passive ∨ (s.port ch).tx.len = 0) →
      exec (.kick ch) s = .next (s.setPort ch { s.port ch with kickPend := false }))

/-- R149, R156: the watchdog abandons a frame in either direction, silently. -/
def Obligations.WatchdogAbandonsTheFrame : Prop :=
  ∀ (ch : Chan) (s : State), ((s.chn ch).status = .receiving ∨ (s.chn ch).status = .sending) →
    (s.chn ch).timerArmed = true → (s.chn ch).legal = true →
    exec (.timer ch) s = .next { s.setChn ch { s.chn ch with
        clkOut := .rel, dataOut := .rel, timerArmed := false, bitcnt := 0, status := .passive } with
      wire := s.wire ++ [.latch (.data ch) .rel, .latch (.clk ch) .rel] }

/-- R150: the gap expiry; SETTLE is this expiry. -/
def Obligations.GapExpiry : Prop :=
  ∀ (ch : Chan) (s : State) (i : Instr), (i = .timer ch ∨ i = .settle ch) → (s.chn ch).status = .postSettle →
    (s.chn ch).timerArmed = true → (s.chn ch).legal = true →
    ((s.port ch).tx.len = 0 →
      exec i s = .next (s.setChn ch { s.chn ch with timerArmed := false, status := .passive })) ∧
    ((s.port ch).tx.len ≠ 0 →
      exec i s = .next { s.setChn ch { s.chn ch with
          clkOut := .low, status := .sendRequested, timerArmed := true, timerPeriod := s.cfg.tStartUs } with
        wire := s.wire ++ [.latch (.clk ch) .low] })

/-- R151: the start-pulse expiry; PULSE is this expiry. -/
def Obligations.StartPulseExpiry : Prop :=
  ∀ (ch : Chan) (s : State) (i : Instr), (i = .timer ch ∨ i = .pulse ch) → (s.chn ch).status = .sendRequested →
    (s.chn ch).timerArmed = true → (s.chn ch).legal = true →
    let q := (s.port ch).tx
    (q.len ≠ 0 →
      exec i s = .next { s.setPort ch { s.port ch with
          chn := { s.chn ch with shift := q.readSlot, parity := true, err := false, bitcnt := 1, dataOut := .low,
                                 clkOut := .rel, status := .sending, timerArmed := true,
                                 timerPeriod := s.cfg.tBitUs }
          tx := { q with r := q.r + 1 } } with
        wire := s.wire ++ [.latch (.data ch) .low, .latch (.clk ch) .rel] }) ∧
    (q.len = 0 →
      exec i s = .next { s.setChn ch { s.chn ch with clkOut := .rel, status := .passive, timerArmed := false } with
        wire := s.wire ++ [.latch (.clk ch) .rel] })

/-- A TIMER or KICK whose source is not enabled runs no handler and changes nothing: model's choice, log 8. -/
def Obligations.DisabledSourceChangesNothing : Prop :=
  ∀ (ch : Chan) (s : State),
    ((s.chn ch).timerArmed = false → exec (.timer ch) s = .next s ∧ exec (.settle ch) s = .next s ∧
      exec (.pulse ch) s = .next s) ∧
    ((s.port ch).kickPend = false → exec (.kick ch) s = .next s)

/-- R162: a well-formed frame delivers its byte without error. Whatever the start, parity and stop bits, the byte is
still pushed, with exactly one `FrameError` when one of them is wrong, and a flipped data bit is such a parity
mismatch. The record of the transfer is the model's choice, log 5. -/
def Obligations.FramesDeliverTheirByte : Prop :=
  ∀ (ch : Chan) (b : Byte) (s : State),
    ((s.chn ch).status = .passive ∨ (s.chn ch).status = .postSettle) → (s.chn ch).legal = true →
    exec (.rxbyte ch b) s = .next (afterFrame ch b false s) ∧
    (∀ st p t, exec (.rxframe ch st b p t) s = .next (afterFrame ch b (st || (p != oddParity b) || !t) s)) ∧
    (∀ i < 8, exec (.rxframe ch false (b ^^^ BitVec.twoPow 8 i) (oddParity b) true) s =
      .next (afterFrame ch (b ^^^ BitVec.twoPow 8 i) true s))

/-- FRAME_D2H is the frame of its byte on its channel, whatever its parity bit, and the reply and status rows are a frame
of their byte on the mouse channel. Model's choice: logs 5, 12 and 14. -/
def Obligations.DeviceRowsDeliverTheirByte : Prop :=
  (∀ (ch : Chan) (b : Byte) (p : Bool) (s : State),
    ((s.chn ch).status = .passive ∨ (s.chn ch).status = .postSettle) → (s.chn ch).legal = true →
    exec (.frameD2H ch b p) s = .next (afterFrame ch b (p != oddParity b) s)) ∧
  (∀ (yo xo ys xs : Bool) (btns : BitVec 3) (i : Instr) (b : Byte) (s : State),
    (i, b) ∈ mouseBytes yo xo ys xs btns →
    (s.mouse.chn.status = .passive ∨ s.mouse.chn.status = .postSettle) → s.mouse.chn.legal = true →
    exec i s = .next (afterFrame .mouse b false s))

/-- R163: the start-pulse expiry and 11 edges, whatever the device's levels, drive start bit, data bits, odd parity and
release of the oldest queued byte, and sample the acknowledgement. The record of the transfer is the model's choice,
log 5. -/
def Obligations.SendDrivesTheOldestByte : Prop :=
  ∀ (ch : Chan) (ds : List Bool) (a : Bool) (s : State), ds.length = 10 → (s.chn ch).status = .sendRequested →
    (s.chn ch).timerArmed = true → (s.chn ch).legal = true → (s.port ch).tx.len ≠ 0 →
    execAll (.timer ch :: (ds ++ [a]).map (.edge ch)) s = .next (afterTransfer ch a s)

/-- TXCLOCK from the start of a send clocks it to its end: the eight data bits of `ch.shift`, the odd parity, the
release, and the acknowledgement, whatever byte the operand names. FRAME_H2D is a whole transfer of the oldest queued
byte, from the expiry that ends the request. Model's choice: logs 5, 14 and 15. -/
def Obligations.ClockedSendCompletes : Prop :=
  (∀ (ch : Chan) (b : Byte) (a : Bool) (s : State), (s.chn ch).status = .sending → (s.chn ch).bitcnt = 1 →
    (s.chn ch).parity = true →
    let c := s.chn ch
    exec (.txclock ch b a) s = .next { s.setChn ch { c with
        status := .postSettle, bitcnt := 0, parity := oddParity c.shift, timerArmed := true,
        timerPeriod := s.cfg.tGapUs, err := a, dataOut := .rel } with
      wire := s.wire ++ sendWire ch c.shift (oddParity c.shift) ++ [.sent ch c.shift a] }) ∧
  (∀ (ch : Chan) (d : Byte) (p a : Bool) (s : State), (s.chn ch).status = .sendRequested →
    (s.chn ch).timerArmed = true → (s.chn ch).legal = true → (s.port ch).tx.len ≠ 0 →
    exec (.frameH2D ch d p a) s = .next (afterTransfer ch a s))

/-! ## What each context leaves alone (10_state.md, 60_exceptions.md) -/

/-- Whatever an interrupt context runs writes only its own channel record, its RX queue by pushes, its TX queue by pops,
and clears its kick latch; the other channel, the engines, the configuration and the interrupted foreground operation
stay. That the device byte rows and the wire rows are handler runs of their channel is the model's choice, logs 12 and
14. -/
def Obligations.InterruptSideFrame : Prop :=
  ∀ (i : Instr) (ch : Chan) (s t : State), isrChanOf i = some ch → exec i s = .next t → IsrWrites ch s t

/-- Whatever the foreground runs writes only the engines, RX queues by pops, TX queues by pushes, and sets kick latches;
no channel record and no line changes. Only GETMOVE writes the mouse engine (R51). That the host byte rows, the scancode
rows, and a LEN or FULL with no issuer named are foreground operations is the model's choice, logs 11, 13 and 18. -/
def Obligations.ForegroundFrame : Prop :=
  ∀ (i : Instr) (op : FgOp) (s t : State), fgOpOf i = some op → exec i s = .next t →
    FgWrites s t ∧ (i ≠ .getmove → t.ms = s.ms)

/-- Forms that store nothing: every slot of every queue buffer reads as before. That the slot a pop frees does is the
model's choice, log 3; that the scancode rows do, being a decode step and not the byte's arrival, is the model's choice,
log 13; so is that a TIMER, KICK, SETTLE or PULSE whose source is not enabled does, log 8. -/
def Obligations.FormsThatStoreNothing : Prop :=
  ∀ (i : Instr) (ch : Chan) (s t : State),
    i ∈ [Instr.timer ch, .kick ch, .settle ch, .pulse ch, .popTx ch, .popRx ch, .lenRx ch, .fullRx ch, .lenTx ch,
      .fullTx ch, .getsc, .locks, .ctrls, .scExtPrefix, .scBrkPrefix, .scE1] →
    exec i s = .next t → SameSlots s t

/-- Forms that store at most one byte store it in the slot that R183 gives for the queue's write index: every other slot
reads as before, and where there is room the byte is read back from that slot. That a command, rate or LED row stores its
byte in the TX queue of its device is the model's choice, log 11. -/
def Obligations.FormsThatStoreOneByte : Prop :=
  (∀ (ch : Chan) (b : Byte) (s t : State), exec (.pushRx ch b) s = .next t →
    let q := (s.port ch).rx
    SameSlotsBut (.rx ch) (q.slot q.w) s t ∧
    (StateOk s → q.isFull = false → Memory.read (t.port ch).rx.buf (q.slot q.w) = b)) ∧
  (∀ (ch : Chan) (d : Bool) (s t : State), exec (.edge ch d) s = .next t →
    let q := (s.port ch).rx
    let last := (s.chn ch).status = .receiving ∧ (s.chn ch).bitcnt = 10
    SameSlotsBut (.rx ch) (q.slot q.w) s t ∧ (¬ last → SameSlots s t) ∧
    (StateOk s → last → q.isFull = false → Memory.read (t.port ch).rx.buf (q.slot q.w) = (s.chn ch).shift)) ∧
  (∀ (i : Instr) (ch : Chan) (b : Byte) (s t : State),
    (i = .pushTx ch b ∨ i = .emit ch b ∨ (i, ch, b) ∈ byteCommands ∨
      (∃ c n l : Bool, (i, ch, b) = (.ledArg c n l, .kbd, ledByte c n l))) →
    exec i s = .next t →
    let q := (s.port ch).tx
    SameSlotsBut (.tx ch) (q.slot q.w) s t ∧
    (StateOk s → s.fgIdle = true → q.isFull = false → Memory.read (t.port ch).tx.buf (q.slot q.w) = b))

/-- Every instruction but RESET: a slot that no push of it filled reads as before. That a slot freed by a pop does is the
model's choice, log 3; which pushes a row of a byte or wire format makes is the model's choice, logs 11 to 14. -/
def Obligations.OnlyPushesStore : Prop :=
  ∀ (i : Instr) (s t : State), StateOk s → i ≠ .reset → exec i s = .next t → OnlyPushedSlots s t

/-! ## Queues (20_memory.md, 41_queue.md) -/

/-- R185 to R187 with R183 and R184 in terms of the contents: the fullness test is `n ≥ C`; pushing appends exactly when
there is room and otherwise changes nothing; popping takes the oldest byte; a queue is empty exactly when its indices
are equal; and the queue invariant stays. -/
def Obligations.QueueContents : Prop :=
  (∀ (c : Nat) (n : Word32), capValid c = true → (fullAt (BitVec.ofNat 32 c) n = true ↔ c ≤ n.toNat)) ∧
  (∀ (c : Nat) (q : Queue) (b : Byte), QueueOk c q →
    (q.len.toNat < c → (q.push b).1 = true ∧ (q.push b).2.contents = q.contents ++ [b]) ∧
    (q.len.toNat = c → (q.push b).1 = false ∧ (q.push b).2 = q) ∧
    (q.contents = [] ↔ q.w = q.r) ∧
    q.pop.1 = q.contents.head? ∧ q.pop.2.contents = q.contents.tail ∧
    QueueOk c (q.push b).2 ∧ QueueOk c q.pop.2)

/-- R87: whatever the interleaving, at the granularity of R80, the bytes popped followed by the bytes still queued are
the bytes queued at the start followed by the bytes accepted, and the occupancy never exceeds `C`. -/
def Obligations.QueuesAreFifoUnderEveryInterleaving : Prop :=
  (∀ (c : Nat) (q : Queue) (es : List (Option Byte)), QueueOk c q →
    let x := es.foldl RxRun.step ⟨q, .readW, [], []⟩
    x.popped ++ x.q.contents = q.contents ++ x.accepted ∧ x.q.len.toNat ≤ c) ∧
  (∀ (c : Nat) (q : Queue) (es : List (Option Byte)), QueueOk c q →
    let x := es.foldl TxRun.step ⟨q, .readR, 0, [], []⟩
    x.popped ++ x.q.contents = q.contents ++ x.accepted ∧ x.q.len.toNat ≤ c)

/-- R183, R191: PUSH_RX by the interrupt side, and PUSH_TX by the foreground, which raises the kick; where the interrupt
side's result is recorded is the model's choice, log 5. -/
def Obligations.PushResult : Prop :=
  ∀ (ch : Chan) (b : Byte) (s : State),
    let rx := (s.port ch).rx
    let tx := (s.port ch).tx
    (rx.isFull = true → exec (.pushRx ch b) s = .next { s with isrRets := s.isrRets ++ [.bool false] }) ∧
    (rx.isFull = false → exec (.pushRx ch b) s = .next { s.setPort ch { s.port ch with
        rx := { rx with buf := Memory.write rx.buf (rx.slot rx.w) b, w := rx.w + 1 } } with
      isrRets := s.isrRets ++ [.bool true] }) ∧
    (s.fgIdle = true → tx.isFull = true → exec (.pushTx ch b) s = .next (s.called.returns (.bool false))) ∧
    (s.fgIdle = true → tx.isFull = false → exec (.pushTx ch b) s = .next ((s.called.setPort ch { s.port ch with
        tx := { tx with buf := Memory.write tx.buf (tx.slot tx.w) b, w := tx.w + 1 }
        kickPend := true }).returns (.bool true)))

/-- R181, R182, R184, R201: POP_RX and GETSC by the foreground, POP_TX by the interrupt side, LEN and FULL by either side
of the queue; where the interrupt side's results are recorded, that the freed slot keeps its byte, and that a LEN or FULL
with no issuer named is the foreground's, is the model's choice, logs 5, 3 and 18. -/
def Obligations.PopAndQueryResult : Prop :=
  ∀ (ch : Chan) (s : State),
    let rx := (s.port ch).rx
    let tx := (s.port ch).tx
    (s.fgIdle = true → ∀ i, (i = .popRx ch ∨ (ch = .kbd ∧ i = .getsc)) →
      (rx.w = rx.r → exec i s = .next (s.called.returns (.byte none))) ∧
      (rx.w ≠ rx.r → exec i s = .next ((s.called.setPort ch { s.port ch with rx := { rx with r := rx.r + 1 } }).returns
        (.byte (some (Memory.read rx.buf (rx.slot rx.r))))))) ∧
    (s.fgIdle = true →
      exec (.lenRx ch) s = .next (s.called.returns (.len (rx.w - rx.r))) ∧
      exec (.lenTx ch) s = .next (s.called.returns (.len (tx.w - tx.r))) ∧
      exec (.fullRx ch) s = .next (s.called.returns (.bool ((rx.w - rx.r) &&& ~~~(rx.cap - 1) != 0))) ∧
      exec (.fullTx ch) s = .next (s.called.returns (.bool ((tx.w - tx.r) &&& ~~~(tx.cap - 1) != 0)))) ∧
    (execFrom (.isr ch) (.lenRx ch) s = .next { s with isrRets := s.isrRets ++ [.len (rx.w - rx.r)] } ∧
      execFrom (.isr ch) (.lenTx ch) s = .next { s with isrRets := s.isrRets ++ [.len (tx.w - tx.r)] } ∧
      execFrom (.isr ch) (.fullRx ch) s =
        .next { s with isrRets := s.isrRets ++ [.bool ((rx.w - rx.r) &&& ~~~(rx.cap - 1) != 0)] } ∧
      execFrom (.isr ch) (.fullTx ch) s =
        .next { s with isrRets := s.isrRets ++ [.bool ((tx.w - tx.r) &&& ~~~(tx.cap - 1) != 0)] }) ∧
    (tx.w = tx.r → exec (.popTx ch) s = .next { s with isrRets := s.isrRets ++ [.byte none] }) ∧
    (tx.w ≠ tx.r → exec (.popTx ch) s = .next { s.setPort ch { s.port ch with tx := { tx with r := tx.r + 1 } } with
      isrRets := s.isrRets ++ [.byte (some (Memory.read tx.buf (tx.slot tx.r)))] })

/-- R190: EMIT queues its byte at once when there is room; otherwise it asks for a drain and waits, and tries again when
the foreground runs next. When that is, the form of the wait and the record of the return are the model's choice: logs
1, 10 and 5. -/
def Obligations.EmitQueuesOrWaits : Prop :=
  ∀ (ch : Chan) (b : Byte) (s : State),
    let q := (s.port ch).tx
    let waiting : Task := .push .readR (.tx ch) b (.emit [] .ret)
    let done (u : State) := (u.setPort ch { s.port ch with
      tx := { q with buf := Memory.write q.buf (q.slot q.w) b, w := q.w + 1 }
      kickPend := true }).returns .unit
    let waits (u : State) := (u.setPort ch { s.port ch with kickPend := true }).paused waiting
    (s.fgIdle = true →
      (q.isFull = false → exec (.emit ch b) s = .next (done s.called)) ∧
      (q.isFull = true → exec (.emit ch b) s = .next (waits s.called))) ∧
    (s.fg = some waiting → s.tape = [] →
      (q.isFull = false → step s = .next (done s)) ∧ (q.isFull = true → step s = .next (waits s)))

/-- R105, R106, R109: as rows of their own, the command, rate and LED bytes are the emit (R190) of that byte to the device
they belong to; with a full queue each waits. The LED byte has scroll lock in bit 0, num lock in bit 1, caps lock in bit
2. Model's choice: log 11, and logs 5 and 10 for the form of the wait and the record of the return. -/
def Obligations.ByteRowsReachTheirDevice : Prop :=
  ∀ (s : State) (i : Instr) (ch : Chan) (b : Byte), s.fgIdle = true →
    ((i, ch, b) ∈ byteCommands ∨ ∃ c n l : Bool, i = .ledArg c n l ∧ ch = .kbd ∧
      b = BitVec.ofNat 8 (l.toNat + 2 * n.toNat + 4 * c.toNat)) →
    let q := (s.port ch).tx
    (q.isFull = false → exec i s = .next ((s.called.setPort ch { s.port ch with
      tx := { q with buf := Memory.write q.buf (q.slot q.w) b, w := q.w + 1 }
      kickPend := true }).returns .unit)) ∧
    (q.isFull = true → exec i s = .next ((s.called.setPort ch { s.port ch with kickPend := true }).paused
      (.push .readR (.tx ch) b (.emit [] .ret))))

/-! ## Foreground operations between micro-steps (20_memory.md, 60_exceptions.md) -/

/-- R79, R80: an operation in progress that is run by micro-steps with nothing between them ends where the uninterrupted
run of it ends. That an instruction's own run is the uninterrupted one is the model's choice, log 9. -/
def Obligations.MicroStepsMakeUpTheOperation : Prop :=
  ∀ (s : State) (t : Task), StateOk s → s.fg = some t → ∃ n, 0 < n ∧ fgMicros n s = fgTurn s

/-- An operation called on an idle foreground begins at once, and one called while an earlier one has not returned waits
behind it and changes nothing else; when the foreground is free again and nothing is on the tape, the oldest call begins.
The value that an `@t` line fixes goes with the operation called next (R138). Model's choice: logs 1 and 10, and logs 11,
13 and 18 for the byte rows and a LEN or FULL with no issuer named being foreground operations. -/
def Obligations.CallsWaitTheirTurn : Prop :=
  (∀ (i : Instr) (op : FgOp) (s : State), fgOpOf i = some op →
    (s.fgIdle = true → exec i s = runOp op { s with hostFixed := s.hostNext, hostNext := none }) ∧
    (s.fgIdle = false → exec i s = .next { s with calls := s.calls ++ [⟨op, s.hostNext⟩], hostNext := none })) ∧
  (∀ (c : Call) (rest : List Call) (s : State), s.fg = none → s.tape = [] → s.calls = c :: rest →
    step s = runOp c.op { s with calls := rest, hostFixed := c.time }) ∧
  (∀ (s : State) (rest : List Input) (c : Code) (i : Instr) (op : FgOp), s.built = true → s.tape = .call c :: rest →
    decode c = .ok i → fgOpOf i = some op →
    step s = .next { s with tape := rest, calls := s.calls ++ [⟨op, s.hostNext⟩], hostNext := none })

/-! ## Keyboard (42_keyboard.md) -/

/-- R218, R219. -/
def Obligations.LockAndControlStatus : Prop :=
  ∀ s : State, s.fgIdle = true → exec .locks s = .next (s.called.returns (.mask s.kb.locks)) ∧
    exec .ctrls s = .next (s.called.returns (.mask s.kb.mods))

/-- R190, R220: SETLOCKS stores the three lock bits and queues 0xED and the mask; with too little room it asks for a
drain and waits with the bytes that are left. The form of the wait and the record of the return are the model's choice,
logs 5 and 10. -/
def Obligations.SetLocksQueuesTheLedCommand : Prop :=
  ∀ (m : Byte) (s : State), StateOk s → s.fgIdle = true →
    (kbdRoom s 2 → ∃ t, exec (.setlocks m) s = .next t ∧ KeyboardRan s t ∧ Over t ∧
      t.kb = { s.kb with locks := m &&& 0x07 } ∧ t.kbd.rx = s.kbd.rx ∧
      t.kbd.tx.contents = s.kbd.tx.contents ++ [0xED, m &&& 0x07] ∧ t.kbd.kickPend = true ∧
      t.rets = s.rets ++ [.unit]) ∧
    (¬ kbdRoom s 2 → kbdRoom s 1 → ∃ t, exec (.setlocks m) s = .next t ∧ KeyboardRan s t ∧ t.kbd.rx = s.kbd.rx ∧
      t.fg = some (.push .readR (.tx .kbd) (m &&& 0x07) (.emit [] .ret)) ∧
      t.kb = { s.kb with locks := m &&& 0x07 } ∧ t.kbd.tx.contents = s.kbd.tx.contents ++ [0xED] ∧
      t.kbd.kickPend = true ∧ t.rets = s.rets) ∧
    (¬ kbdRoom s 1 → ∃ t, exec (.setlocks m) s = .next t ∧ KeyboardRan s t ∧ t.kbd.rx = s.kbd.rx ∧
      t.fg = some (.push .readR (.tx .kbd) 0xED (.emit [m &&& 0x07] .ret)) ∧
      t.kb = { s.kb with locks := m &&& 0x07 } ∧ t.kbd.tx = s.kbd.tx ∧ t.kbd.kickPend = true ∧ t.rets = s.rets)

/-- R216, R217, R221: with the cache valid, PEEK says true and GETKEY consumes the cached character, and neither reads
the queue. Without, both decode the queued bytes up to the first character or to the end, emitting the LED command of
every lock key on the way (R208), and PEEK caches the character. A lock key whose LED command finds the TX queue full
makes the operation wait with the bytes that are left (R190), at most one behind the byte to push; resumed, it pushes what
there is room for and, when that is all of it, goes on decoding. The form of the wait is the model's choice: logs 1 and
10. -/
def Obligations.PeekAndGetKey : Prop :=
  (∀ s : State, s.fgIdle = true → s.kb.cacheValid = true →
    exec .peek s = .next (s.called.returns (.bool true)) ∧
    exec .getkey s = .next (State.returns { s.called with kb := { s.kb with cacheValid := false } }
      (.byte (some s.kb.cache)))) ∧
  (∀ s : State, StateOk s → s.fgIdle = true → s.kb.cacheValid = false →
    let r := scanKeys s.cfg (kbdFree s) s.kb s.kbd.rx.contents
    (∃ t, exec .getkey s = .next t ∧ Scanned false s t r) ∧ (∃ t, exec .peek s = .next t ∧ Scanned true s t r)) ∧
  (∀ (s : State) (b : Byte) (rest : List Byte) (peek : Bool), StateOk s → s.tape = [] → rest.length ≤ 1 →
    s.fg = some (.push .readR (.tx .kbd) b (.emit rest (.nextChar peek))) →
    ∃ t, step s = .next t ∧ Scanned peek s t (resumeKeys s.cfg (kbdFree s) (b :: rest) s.kb s.kbd.rx.contents))

/-- R202, R203, R215: the prefixes set their flag and produce nothing; every other byte clears both flags; no byte
touches the cache. -/
def Obligations.PrefixFlags : Prop :=
  ∀ (cfg : Cfg) (kb : Kb) (c : Byte),
    let r := decodeByte cfg kb c
    (c = 0xE0 → r = (.nothing, { kb with mods := kb.mods ||| 0x10 })) ∧
    (c = 0xF0 → r = (.nothing, { kb with mods := kb.mods ||| 0x20 })) ∧
    (c ≠ 0xE0 → c ≠ 0xF0 → r.2.mods.getLsbD 4 = false ∧ r.2.mods.getLsbD 5 = false) ∧
    r.2.cache = kb.cache ∧ r.2.cacheValid = kb.cacheValid

/-- R204, R205, R206, R207, R222, R223, and the toggle of R208: a break clears its own sticky modifier and nothing else;
the makes of the modifiers set theirs; left Alt and the fake shifts change nothing; a lock key toggles its bit and asks
for the LED command, whose emission is stated with the decode loop. None of them is a character. -/
def Obligations.ModifierAndLockKeys : Prop :=
  ∀ (cfg : Cfg) (kb : Kb),
    let e := kb.mods.getLsbD 4
    let sets (m : Byte) : KeyResult × Kb := (.nothing, { kb with mods := (kb.mods &&& 0xCF) ||| m })
    let toggles (m : Byte) : KeyResult × Kb := (.lock, { kb with locks := kb.locks ^^^ m, mods := kb.mods &&& 0xCF })
    (kb.mods.getLsbD 5 = true → ∀ c : Byte, c ≠ 0xE0 → c ≠ 0xF0 →
      decodeByte cfg kb c = (.nothing, { kb with mods := kb.mods &&&
        (if c = 0x12 ∧ e = false then 0xCE else if c = 0x59 ∧ e = false then 0xCD else if c = 0x14 then 0xCB
         else if c = 0x11 ∧ e = true then 0xC7 else 0xCF) })) ∧
    (kb.mods.getLsbD 5 = false →
      (e = false → decodeByte cfg kb 0x12 = sets 0x01 ∧ decodeByte cfg kb 0x59 = sets 0x02 ∧
        decodeByte cfg kb 0x11 = sets 0x00 ∧ decodeByte cfg kb 0x58 = toggles 0x04 ∧
        decodeByte cfg kb 0x77 = toggles 0x02 ∧ decodeByte cfg kb 0x7E = toggles 0x01) ∧
      decodeByte cfg kb 0x14 = sets 0x04 ∧
      (e = true → decodeByte cfg kb 0x11 = sets 0x08 ∧ decodeByte cfg kb 0x12 = sets 0x00 ∧
        decodeByte cfg kb 0x59 = sets 0x00))

/-- R209 to R214: an extended code that is no modifier maps through the navigation table alone, whatever the locks and
modifiers; a plain code that is no modifier and no lock maps through the table that the range, the locks and the
modifiers select; a table value of 0, a code outside every table and an extended code outside the table are no
character. -/
def Obligations.CharacterCodes : Prop :=
  ∀ (cfg : Cfg) (kb : Kb) (c : Byte), kb.mods.getLsbD 5 = false → c ≠ 0xE0 → c ≠ 0xF0 →
    let nav : List (Byte × Byte) :=
      [(0x75, cfg.nav.up), (0x72, cfg.nav.down), (0x6B, cfg.nav.left), (0x74, cfg.nav.right), (0x70, cfg.nav.insert),
        (0x71, cfg.nav.delete), (0x6C, cfg.nav.home), (0x69, cfg.nav.endKey), (0x7D, cfg.nav.pgup),
        (0x7A, cfg.nav.pgdn), (0x5A, cfg.nav.kpenter), (0x4A, cfg.nav.kpslash)]
    let km := cfg.km
    let shift := kb.mods.getLsbD 0 || kb.mods.getLsbD 1
    let caps := kb.locks.getLsbD 2
    let table : Table :=
      if 0x69 ≤ c.toNat ∧ c.toNat ≤ 0x7D then (if kb.locks.getLsbD 1 then km.numon else km.numoff)
      else if kb.mods.getLsbD 3 = true ∧ km.altgrInUse = true then km.altgr
      else if shift then (if caps then km.shiftcaps else km.shift)
      else (if caps then km.noshiftcaps else km.noshift)
    let ends (v : Byte) : KeyResult × Kb :=
      (if v = 0 then .nothing else .char v, { kb with mods := kb.mods &&& 0xCF })
    (kb.mods.getLsbD 4 = true → c ∉ [0x12, 0x59, 0x14, 0x11] →
      decodeByte cfg kb c = ends ((nav.lookup c).getD 0)) ∧
    (kb.mods.getLsbD 4 = false → c ∉ [0x12, 0x59, 0x14, 0x11, 0x58, 0x77, 0x7E] →
      decodeByte cfg kb c = ends (if 0x83 < c.toNat then 0 else tableGet table c))

/-- R226: ctrl never changes a decoded character. -/
def Obligations.CtrlNeverChangesACharacter : Prop :=
  ∀ (cfg : Cfg) (kb : Kb) (c : Byte),
    (decodeByte cfg { kb with mods := kb.mods ^^^ 0x04 } c).1 = (decodeByte cfg kb c).1

/-- The scancode rows are one decode step of their byte: model's choice, log 13. -/
def Obligations.ScancodeRowsAreDecodeSteps : Prop :=
  ∀ s : State, s.fgIdle = true →
    exec .scExtPrefix s = .next (State.returns { s.called with kb := { s.kb with mods := s.kb.mods ||| 0x10 } }
      (.byte none)) ∧
    exec .scBrkPrefix s = .next (State.returns { s.called with kb := { s.kb with mods := s.kb.mods ||| 0x20 } }
      (.byte none)) ∧
    exec .scE1 s = .next (State.returns { s.called with kb := { s.kb with mods := s.kb.mods &&& 0xCF } } (.byte none))

/-! ## Mouse (43_mouse.md) -/

/-- R251: stage `U` drains the RX queue, sends reset, and goes to `RST`. -/
def Obligations.UninitializedSendsReset : Prop :=
  ∀ s : State, StateOk s → s.fgIdle = true → s.ms.stage = .U → mouseRoom s 1 →
    ∃ t, exec .getmove s = .next t ∧ MouseCallDone s t ∧ t.mouse.rx.contents = [] ∧
      t.mouse.tx.contents = s.mouse.tx.contents ++ [0xFF] ∧ t.mouse.kickPend = true ∧
      t.ms = { s.ms with stage := .RST, ts := s.called.readNow.1 } ∧ t.notes = s.notes ∧ t.rets = s.rets ++ [.move none]

/-- R252 to R255: the expected reply, however late, sends the next command and goes to the next stage; bytes beyond the
reply stay queued. -/
def Obligations.ExpectedReplyAdvances : Prop :=
  ∀ (s : State) (st st' : Stage) (reply command rest : List Byte), StateOk s → s.fgIdle = true →
    (st, reply, command, st') ∈ awaitTable → s.ms.stage = st → s.mouse.rx.contents = reply ++ rest →
    mouseRoom s command.length →
    ∃ t, exec .getmove s = .next t ∧ MouseCallDone s t ∧ t.mouse.rx.contents = rest ∧
      t.mouse.tx.contents = s.mouse.tx.contents ++ command ∧ t.mouse.kickPend = true ∧
      t.ms = { s.ms with stage := st', ts := s.called.readNow.1 } ∧ t.notes = s.notes ∧ t.rets = s.rets ++ [.move none]

/-- R256, R257: the identify reply sets the packet size and goes on by policy, Policy A without sending anything; the
acknowledged enable command starts streaming. -/
def Obligations.IdentifyAndEnable : Prop :=
  ∀ (s : State) (id : Byte) (rest : List Byte), StateOk s → s.fgIdle = true →
    (s.ms.stage = .ID → (id = 0x00 ∨ id = 0x03) → s.mouse.rx.contents = 0xFA :: id :: rest →
      s.cfg.policy = .A ∨ mouseRoom s 1 →
      let ps := if id = 0x03 then PSize.four else PSize.three
      ∃ t, exec .getmove s = .next t ∧ MouseCallDone s t ∧ t.mouse.rx.contents = rest ∧ t.notes = s.notes ∧
        t.rets = s.rets ++ [.move none] ∧
        (s.cfg.policy = .C → t.mouse.tx.contents = s.mouse.tx.contents ++ [0xF4] ∧ t.mouse.kickPend = true ∧
          t.ms = { s.ms with psize := ps, stage := .ENA, ts := s.called.readNow.1 }) ∧
        (s.cfg.policy = .A → t.mouse.tx = s.mouse.tx ∧ t.mouse.kickPend = s.mouse.kickPend ∧
          t.ms = { s.ms with psize := ps, stage := .POLL }) ∧
        (s.cfg.policy = .B → t.mouse.tx.contents = s.mouse.tx.contents ++ [0xEB] ∧ t.mouse.kickPend = true ∧
          t.ms = { s.ms with psize := ps, stage := .POLL, ts := s.called.readNow.1 })) ∧
    (s.ms.stage = .ENA → s.mouse.rx.contents = 0xFA :: rest →
      ∃ t, exec .getmove s = .next t ∧ MouseCallDone s t ∧ t.mouse.rx.contents = rest ∧ t.mouse.tx = s.mouse.tx ∧
        t.mouse.kickPend = s.mouse.kickPend ∧
        t.ms = { s.ms with stage := .STREAM, lastLen := 0, ts := s.called.readNow.1 } ∧
        t.notes = s.notes ∧ t.rets = s.rets ++ [.move none])

/-- R268, R269, R270, R313, R314 outside stage `POLL`: a complete reply that is not the expected one is popped, reported
and sends the engine back to `U`; an incomplete reply past its deadline is a timeout with the same effect; before the
deadline nothing happens. -/
def Obligations.FailedReplyReturnsToU : Prop :=
  ∀ (s : State) (st : Stage) (n : Nat) (T : Word32), StateOk s → s.fgIdle = true → (st, n, T) ∈ replyTable s.cfg →
    s.ms.stage = st →
    (n ≤ s.mouse.rx.contents.length → ¬ replyExpected st (s.mouse.rx.contents.take n) →
      ∃ t, exec .getmove s = .next t ∧ MouseCallDone s t ∧ t.mouse.rx.contents = s.mouse.rx.contents.drop n ∧
        t.mouse.tx = s.mouse.tx ∧ t.mouse.kickPend = s.mouse.kickPend ∧ t.ms = failedMs s.ms.ts ∧
        t.notes = s.notes ++ [.protocolViolation .mouse st] ∧ t.rets = s.rets ++ [.move none]) ∧
    (s.mouse.rx.contents.length < n →
      ∃ t, exec .getmove s = .next t ∧ MouseCallDone s t ∧ t.mouse = s.mouse ∧ t.rets = s.rets ++ [.move none] ∧
        (T.toNat < (s.called.readNow.1 - s.ms.ts).toNat → t.ms = failedMs s.ms.ts ∧
          t.notes = s.notes ++ [.timeout .mouse st]) ∧
        ((s.called.readNow.1 - s.ms.ts).toNat ≤ T.toNat → t.ms = s.ms ∧ t.notes = s.notes))

/-- R259, R260, R267 with a whole packet queued behind its acknowledgement: Policies A and B send one request and report
the packet when it moved or its buttons differ. Without the acknowledgement it is a protocol violation and only that
byte is popped; Policy A has sent its request before it looks, Policy B sends none. -/
def Obligations.PolledPacket : Prop :=
  ∀ (s : State) (a : Byte) (pkt rest : List Byte), StateOk s → s.fgIdle = true → s.ms.stage = .POLL →
    pkt.length = s.ms.psize.bytes → s.mouse.rx.contents = a :: (pkt ++ rest) →
    let p := decodePacket s.ms.psize pkt
    (a = 0xFA → mouseRoom s 1 →
      ∃ t, exec .getmove s = .next t ∧ MouseCallDone s t ∧ t.mouse.rx.contents = rest ∧
        t.mouse.tx.contents = s.mouse.tx.contents ++ [0xEB] ∧ t.mouse.kickPend = true ∧ t.notes = s.notes ∧
        (reportable p s.ms.prevBtns → t.rets = s.rets ++ [.move (some p)] ∧
          t.ms = { s.ms with ts := s.called.readNow.1, acc := Move.zero, prevBtns := p.btns }) ∧
        (¬ reportable p s.ms.prevBtns → t.rets = s.rets ++ [.move none] ∧
          t.ms = { s.ms with ts := s.called.readNow.1, acc := Move.zero })) ∧
    (a ≠ 0xFA → s.cfg.policy = .B ∨ mouseRoom s 1 →
      ∃ t, exec .getmove s = .next t ∧ MouseCallDone s t ∧ t.mouse.rx.contents = pkt ++ rest ∧
        t.notes = s.notes ++ [.protocolViolation .mouse .POLL] ∧ t.rets = s.rets ++ [.move none] ∧
        (s.cfg.policy = .A → t.mouse.tx.contents = s.mouse.tx.contents ++ [0xEB] ∧ t.mouse.kickPend = true ∧
          t.ms = failedMs s.called.readNow.1) ∧
        (s.cfg.policy = .B → t.mouse.tx = s.mouse.tx ∧ t.mouse.kickPend = s.mouse.kickPend ∧
          t.ms = failedMs s.ms.ts))

/-- R259, R260: with less than a packet queued, Policy B answers nothing until its deadline; Policy A has sent its
request, counts the deadline from it, and waits until then. Resumed, its loop looks again: at a packet that has arrived,
as in R259 without a new request, or else at a later `now()` against the same deadline. The form of the wait is the
model's choice: logs 1 and 10. -/
def Obligations.PollWithoutAPacket : Prop :=
  (∀ s : State, StateOk s → s.fgIdle = true → s.ms.stage = .POLL → s.mouse.rx.len.toNat ≤ s.ms.psize.bytes →
    (s.cfg.policy = .B → ∃ t, exec .getmove s = .next t ∧ MouseCallDone s t ∧ t.mouse = s.mouse ∧
      t.rets = s.rets ++ [.move none] ∧
      (s.cfg.tReadMs.toNat < (s.called.readNow.1 - s.ms.ts).toNat → t.ms = failedMs s.ms.ts ∧
        t.notes = s.notes ++ [.timeout .mouse .POLL]) ∧
      ((s.called.readNow.1 - s.ms.ts).toNat ≤ s.cfg.tReadMs.toNat → t.ms = s.ms ∧ t.notes = s.notes)) ∧
    (s.cfg.policy = .A → mouseRoom s 1 →
      let t1 := s.called.readNow.1
      let t2 := s.called.readNow.2.readNow.1
      ∃ t, exec .getmove s = .next t ∧ t.mouse.rx = s.mouse.rx ∧
        t.mouse.tx.contents = s.mouse.tx.contents ++ [0xEB] ∧ t.kbd = s.kbd ∧ t.kb = s.kb ∧
        (s.cfg.tReadMs.toNat < (t2 - t1).toNat → t.fg = none ∧ t.ms = failedMs t1 ∧
          t.notes = s.notes ++ [.timeout .mouse .POLL] ∧ t.rets = s.rets ++ [.move none]) ∧
        ((t2 - t1).toNat ≤ s.cfg.tReadMs.toNat → t.fg = some (.len (.rx .mouse) .poll) ∧
          t.ms = { s.ms with ts := t1 } ∧ t.notes = s.notes ∧ t.rets = s.rets))) ∧
  (∀ s : State, StateOk s → s.tape = [] → s.ms.stage = .POLL → s.cfg.policy = .A →
    s.fg = some (.len (.rx .mouse) .poll) →
    (s.mouse.rx.len.toNat ≤ s.ms.psize.bytes →
      ((s.readNow.1 - s.ms.ts).toNat ≤ s.cfg.tReadMs.toNat → step s = .next s.readNow.2) ∧
      (s.cfg.tReadMs.toNat < (s.readNow.1 - s.ms.ts).toNat → ∃ t, step s = .next t ∧ MouseCallDone s t ∧
        t.mouse = s.mouse ∧ t.ms = failedMs s.ms.ts ∧ t.notes = s.notes ++ [.timeout .mouse .POLL] ∧
        t.rets = s.rets ++ [.move none])) ∧
    (∀ (a : Byte) (pkt rest : List Byte), pkt.length = s.ms.psize.bytes → s.mouse.rx.contents = a :: (pkt ++ rest) →
      let p := decodePacket s.ms.psize pkt
      ∃ t, step s = .next t ∧ MouseCallDone s t ∧ t.mouse.tx = s.mouse.tx ∧ t.mouse.kickPend = s.mouse.kickPend ∧
        (a = 0xFA → t.mouse.rx.contents = rest ∧ t.notes = s.notes ∧
          (reportable p s.ms.prevBtns → t.rets = s.rets ++ [.move (some p)] ∧
            t.ms = { s.ms with acc := Move.zero, prevBtns := p.btns }) ∧
          (¬ reportable p s.ms.prevBtns → t.rets = s.rets ++ [.move none] ∧
            t.ms = { s.ms with acc := Move.zero })) ∧
        (a ≠ 0xFA → t.mouse.rx.contents = pkt ++ rest ∧ t.notes = s.notes ++ [.protocolViolation .mouse .POLL] ∧
          t.rets = s.rets ++ [.move none] ∧ t.ms = failedMs s.ms.ts)))

/-- R261: Policy C with less than a packet queued: the occupancy is dated, and a partial packet older than the read
timeout is dropped without a notification. The second and third reads of `now()` follow the first when the occupancy
changed. -/
def Obligations.PartialPacketIsDroppedAfterTheTimeout : Prop :=
  ∀ s : State, StateOk s → s.fgIdle = true → s.ms.stage = .STREAM → s.mouse.rx.len.toNat < s.ms.psize.bytes →
    let L := s.mouse.rx.len
    let u := if L ≠ s.ms.lastLen then s.called.readNow.2 else s.called
    let ms1 := if L ≠ s.ms.lastLen then { s.ms with ts := s.called.readNow.1, lastLen := L } else s.ms
    ∃ t, exec .getmove s = .next t ∧ MouseCallDone s t ∧ t.mouse.tx = s.mouse.tx ∧
      t.mouse.kickPend = s.mouse.kickPend ∧ t.notes = s.notes ∧ t.rets = s.rets ++ [.move none] ∧
      ((L = 0 ∨ (u.readNow.1 - ms1.ts).toNat ≤ s.cfg.tReadMs.toNat) → t.mouse.rx = s.mouse.rx ∧ t.ms = ms1) ∧
      (L ≠ 0 → s.cfg.tReadMs.toNat < (u.readNow.1 - ms1.ts).toNat → t.mouse.rx.contents = [] ∧
        t.ms = { ms1 with lastLen := 0, ts := u.readNow.2.readNow.1 })

/-- R262: Policy C with whole packets queued: their movements are summed up to a change of buttons or to the last of
them, and reported once. -/
def Obligations.StreamedPacketsAreCoalesced : Prop :=
  ∀ s : State, StateOk s → s.fgIdle = true → s.ms.stage = .STREAM → s.ms.psize.bytes ≤ s.mouse.rx.len.toNat →
    let L := s.mouse.rx.len
    let r := coalesce s.ms.psize s.ms.prevBtns (L.toNat / s.ms.psize.bytes) s.ms.acc s.mouse.rx.contents
    ∃ t, exec .getmove s = .next t ∧ MouseCallDone s t ∧ t.mouse.rx.contents = r.2 ∧ t.mouse.tx = s.mouse.tx ∧
      t.mouse.kickPend = s.mouse.kickPend ∧ t.notes = s.notes ∧ t.rets = s.rets ++ [.move (some r.1)] ∧
      t.ms = { s.ms with
        ts := if L ≠ s.ms.lastLen then s.called.readNow.1 else s.ms.ts
        lastLen := BitVec.ofNat 32 r.2.length
        acc := Move.zero
        prevBtns := r.1.btns }

/-- R263, R264, R265, R266: the fields of a packet as integers. -/
def Obligations.PacketDecodesToItsMovement : Prop :=
  ∀ (ps : PSize) (status dx dy dz : Byte),
    let pkt := if ps = .four then [status, dx, dy, dz] else [status, dx, dy]
    let p := decodePacket ps pkt
    let moved (sign overflow : Bool) (d : Byte) : Int :=
      if overflow then (if sign then -256 else 255) else (if sign then (d.toNat : Int) - 256 else d.toNat)
    p.x.toInt = moved (status.getLsbD 4) (status.getLsbD 6) dx ∧
    p.y.toInt = moved (status.getLsbD 5) (status.getLsbD 7) dy ∧
    p.z.toInt = (if ps = .four then dz.toInt else 0) ∧
    p.btns.toNat = status.toNat % 8

/-- R273: no step changes the configuration. -/
def Obligations.ConfigurationNeverChanges : Prop :=
  ∀ s t : State, step s = .next t → t.cfg = s.cfg

/-- R190, R271: GETMOVE in every stage that sends, with room in the TX queue for only `k` of the command's bytes, queues
those, asks for a drain and waits to push the next, the rule's work before the send being done and nothing being
returned. Resumed with at most one byte behind the byte to push, since no command has more than two (R105, R271), it
pushes what there is room for; when that is all, the timestamp is read and the rule goes on: a
reply stage moves to the next stage and returns, Policy B reports the packet in `ms.acc` (R56), Policy A comes to its
loop. The form of the wait is the model's choice: logs 1 and 10. -/
def Obligations.MouseCommandsWaitForRoom : Prop :=
  (∀ (s : State) (cmd left : List Byte) (th : SendThen) (ms : Ms) (k : Nat), StateOk s → s.fgIdle = true →
    nextCommand s = some (cmd, th, ms, left) → k < cmd.length → s.mouse.tx.len.toNat + k = s.cfg.capTxMouse →
    ∃ t, exec .getmove s = .next t ∧ CommandWaits s t cmd th k ∧ t.mouse.rx.contents = left ∧ t.ms = ms ∧
      t.hostFixed = s.hostNext) ∧
  (∀ (s : State) (b : Byte) (rest : List Byte) (th : SendThen), StateOk s → s.tape = [] → rest.length ≤ 1 →
    s.fg = some (.push .readR (.tx .mouse) b (.emit rest (.stamp th))) →
    let cmd := b :: rest
    let sent (t : State) : Prop := t.mouse.rx = s.mouse.rx ∧ t.mouse.tx.contents = s.mouse.tx.contents ++ cmd ∧
      t.mouse.kickPend = true ∧ t.notes = s.notes
    (∀ k < cmd.length, s.mouse.tx.len.toNat + k = s.cfg.capTxMouse →
      ∃ t, step s = .next t ∧ CommandWaits s t cmd th k ∧ t.mouse.rx = s.mouse.rx ∧ t.ms = s.ms ∧
        t.hostFixed = s.hostFixed) ∧
    (mouseRoom s cmd.length →
      (∀ st, th = .toStage st → ∃ t, step s = .next t ∧ MouseCallDone s t ∧ sent t ∧
        t.ms = { s.ms with stage := st, ts := s.readNow.1 } ∧ t.rets = s.rets ++ [.move none]) ∧
      (th = .reportB → ∃ t, step s = .next t ∧ MouseCallDone s t ∧ sent t ∧
        (reportable s.ms.acc s.ms.prevBtns → t.rets = s.rets ++ [.move (some s.ms.acc)] ∧
          t.ms = { s.ms with ts := s.readNow.1, acc := Move.zero, prevBtns := s.ms.acc.btns }) ∧
        (¬ reportable s.ms.acc s.ms.prevBtns → t.rets = s.rets ++ [.move none] ∧
          t.ms = { s.ms with ts := s.readNow.1, acc := Move.zero })) ∧
      (th = .pollA → ∃ n t, fgMicros n s = .next t ∧ sent t ∧ t.fg = some (.len (.rx .mouse) .poll) ∧
        t.ms = { s.ms with ts := s.readNow.1 } ∧ t.rets = s.rets)))
end

