-- ==== Sys2Proof/Laws/Memory.lean ====
section
/-! SUPPORT. Queue buffers: reading after writing, and the canonical form under every memory operation. -/

namespace Sys2Proof.Machine

open Sys2Proof

/-- In a buffer whose slots lie above `lo`, a slot not above `lo` is not listed. -/
theorem read_of_le {m : Memory} {lo i : Nat} (h : Memory.wfAbove (some lo) m = true) (hi : i ≤ lo) :
    Memory.read m i = unlistedByte := by
  induction m generalizing lo with
  | nil => rfl
  | cons c m ih =>
    obtain ⟨a, v⟩ := c
    simp only [Memory.wfAbove, Option.all_some, Bool.and_eq_true, decide_eq_true_eq] at h
    have ha : a ≠ i := by omega
    simp [Memory.read, ha, ih h.2 (by omega)]

/-- A lower bound may be lowered. -/
theorem wfAbove_mono {m : Memory} {lo lo' : Nat} (h : Memory.wfAbove (some lo) m = true) (hl : lo' ≤ lo) :
    Memory.wfAbove (some lo') m = true := by
  cases m with
  | nil => rfl
  | cons c m =>
    obtain ⟨a, v⟩ := c
    simp only [Memory.wfAbove, Option.all_some, Bool.and_eq_true, decide_eq_true_eq] at h ⊢
    exact ⟨⟨by omega, h.1.2⟩, h.2⟩

/-- The form above a bound is a form. -/
theorem wfAbove_none {m : Memory} {lo : Option Nat} (h : Memory.wfAbove lo m = true) :
    Memory.wfAbove none m = true := by
  cases m with
  | nil => rfl
  | cons c m =>
    obtain ⟨a, v⟩ := c
    simp only [Memory.wfAbove, Bool.and_eq_true] at h ⊢
    exact ⟨⟨by simp, h.1.2⟩, h.2⟩

/-- A write keeps the canonical form, above any bound that the written slot respects. -/
theorem write_wfAbove {m : Memory} {lo : Option Nat} {i : Nat} (v : Byte) (h : Memory.wfAbove lo m = true)
    (hi : lo.all (· < i) = true) : Memory.wfAbove lo (Memory.write m i v) = true := by
  induction m generalizing lo with
  | nil =>
    unfold Memory.write
    split <;> simp_all [Memory.wfAbove]
  | cons c m ih =>
    obtain ⟨a, x⟩ := c
    simp only [Memory.wfAbove, Bool.and_eq_true, bne_iff_ne, ne_eq] at h
    obtain ⟨⟨hlo, hx⟩, hm⟩ := h
    simp only [Memory.write]
    split
    · rename_i hia
      split
      · simp [Memory.wfAbove, hlo, hx, hm]
      · rename_i hv
        simp [Memory.wfAbove, hi, hv, hx, hm, hia]
    · split
      · rename_i hia
        split
        · cases lo with
          | none => exact wfAbove_none hm
          | some l =>
            simp only [Option.all_some, decide_eq_true_eq] at hlo
            exact wfAbove_mono hm (by omega)
        · rename_i hv
          subst hia
          simp [Memory.wfAbove, hi, hv, hm]
      · have : Memory.wfAbove (some a) (Memory.write m i v) = true := by
          refine ih hm ?_
          simp only [Option.all_some, decide_eq_true_eq]
          omega
        simp [Memory.wfAbove, hlo, hx, this]

/-- A write keeps the canonical form. -/
theorem write_wf {m : Memory} (i : Nat) (v : Byte) (h : m.wf = true) : Memory.wf (Memory.write m i v) = true :=
  write_wfAbove v h rfl

/-- Reading the written slot of a canonical buffer above a bound. -/
theorem read_write_above {m : Memory} {lo : Option Nat} {i : Nat} (v : Byte) (h : Memory.wfAbove lo m = true) :
    Memory.read (Memory.write m i v) i = v := by
  induction m generalizing lo with
  | nil =>
    unfold Memory.write
    split <;> simp_all [Memory.read]
  | cons c m ih =>
    obtain ⟨a, x⟩ := c
    simp only [Memory.wfAbove, Bool.and_eq_true, bne_iff_ne, ne_eq] at h
    simp only [Memory.write]
    split
    · rename_i hia
      split
      · rename_i hv
        have : a ≠ i := by omega
        simp only [Memory.read, this, if_false, hv]
        exact read_of_le h.2 (by omega)
      · simp [Memory.read]
    · split
      · rename_i hia
        split
        · rename_i hv
          rw [hv]
          exact read_of_le h.2 (by omega)
        · simp [Memory.read]
      · rename_i h1 h2
        have : a ≠ i := fun e => h2 e.symm
        simp [Memory.read, this, ih h.2]

/-- Reading the written slot gives the written byte. -/
theorem read_write {m : Memory} (i : Nat) (v : Byte) (h : m.wf = true) :
    Memory.read (Memory.write m i v) i = v :=
  read_write_above v h

/-- Reading another slot gives what it gave before. -/
theorem read_write_ne {m : Memory} {i j : Nat} (v : Byte) (hij : j ≠ i) :
    Memory.read (Memory.write m i v) j = Memory.read m j := by
  induction m with
  | nil =>
    unfold Memory.write
    split
    · rfl
    · simp [Memory.read, Ne.symm hij]
  | cons c m ih =>
    obtain ⟨a, x⟩ := c
    simp only [Memory.write]
    split
    · split
      · rfl
      · simp [Memory.read, Ne.symm hij]
    · split
      · rename_i hia
        subst hia
        split <;> simp [Memory.read, Ne.symm hij]
      · simp only [Memory.read, ih]

/-- Every listed slot after a write is the written one or was listed before. -/
theorem mem_write {m : Memory} {i : Nat} {v : Byte} {c : Host.Cell} (h : c ∈ Memory.write m i v) :
    c.1 = i ∨ c ∈ m := by
  induction m with
  | nil =>
    unfold Memory.write at h
    split at h
    · cases h
    · simp only [List.mem_singleton] at h
      exact .inl (by rw [h])
  | cons d m ih =>
    obtain ⟨a, x⟩ := d
    simp only [Memory.write] at h
    split at h
    · split at h
      · exact .inr h
      · rcases List.mem_cons.1 h with h | h
        · exact .inl (by rw [h])
        · exact .inr h
    · split at h
      · split at h
        · exact .inr (List.mem_cons_of_mem _ h)
        · rcases List.mem_cons.1 h with h | h
          · exact .inl (by rw [h])
          · exact .inr (List.mem_cons_of_mem _ h)
      · rcases List.mem_cons.1 h with h | h
        · exact .inr (by rw [h]; exact List.mem_cons_self)
        · rcases ih h with h | h
          · exact .inl h
          · exact .inr (List.mem_cons_of_mem _ h)

/-- The buffers of the reset state are canonical. -/
theorem reset_buffers_wf :
    (State.reset.kbd.rx.buf.wf && State.reset.kbd.tx.buf.wf && State.reset.mouse.rx.buf.wf
      && State.reset.mouse.tx.buf.wf) = true := by decide

end Sys2Proof.Machine
end

