-- ==== Sys2Proof/Laws/Queue.lean ====
section
/-! SUPPORT. Byte queues: capacities are powers of two, slots and fullness as arithmetic, and what push and pop do to
the contents (spec/20_memory.md R74, 41_queue.md R181 to R187). -/

namespace Sys2Proof.Machine

open Sys2Proof

/-! ## Capacities -/

theorem pow2_of_isPow2 : ∀ (n c : Nat), c ≤ n → isPow2 c = true → ∃ k, c = 2 ^ k := by
  intro n
  induction n with
  | zero => intro c hc h; simp_all [isPow2]
  | succ n ih =>
    intro c hc h
    simp only [isPow2, Bool.and_eq_true, bne_iff_ne, ne_eq, beq_iff_eq] at h
    obtain ⟨h0, hand⟩ := h
    by_cases h1 : c = 1
    · exact ⟨0, by simp [h1]⟩
    · have hdiv : c / 2 &&& (c - 1) / 2 = 0 := by
        rw [← Nat.and_div_two, hand]
      rcases Nat.mod_two_eq_zero_or_one c with he | ho
      · have e : (c - 1) / 2 = c / 2 - 1 := by omega
        rw [e] at hdiv
        obtain ⟨k, hk⟩ := ih (c / 2) (by omega) (by
          simp only [isPow2, Bool.and_eq_true, bne_iff_ne, ne_eq, beq_iff_eq]
          exact ⟨by omega, hdiv⟩)
        exact ⟨k + 1, by rw [Nat.pow_succ, ← hk]; omega⟩
      · have e : (c - 1) / 2 = c / 2 := by omega
        rw [e, Nat.and_self] at hdiv
        omega

/-- A legal capacity is `2^k` with `3 ≤ k ≤ 31` (R10). -/
theorem capValid_pow {c : Nat} (h : capValid c = true) : ∃ k, c = 2 ^ k ∧ 3 ≤ k ∧ k ≤ 31 := by
  simp only [capValid, Bool.and_eq_true, decide_eq_true_eq] at h
  obtain ⟨k, rfl⟩ := pow2_of_isPow2 c c (Nat.le_refl _) h.1.1
  refine ⟨k, rfl, ?_, ?_⟩
  · by_contra hk
    have : 2 ^ k < 2 ^ 3 := Nat.pow_lt_pow_right (by omega) (by omega)
    omega
  · by_contra hk
    have : 2 ^ 31 < 2 ^ k := Nat.pow_lt_pow_right (by omega) (by omega)
    omega

theorem capValid_bounds {c : Nat} (h : capValid c = true) : 8 ≤ c ∧ c ≤ 2147483648 := by
  simp only [capValid, Bool.and_eq_true, decide_eq_true_eq] at h
  exact ⟨h.1.2, h.2⟩

theorem capValid_dvd {c : Nat} (h : capValid c = true) : c ∣ 4294967296 := by
  obtain ⟨k, rfl, _, hk⟩ := capValid_pow h
  exact Nat.pow_dvd_pow 2 (by omega : k ≤ 32)

theorem toNat_cap {c : Nat} (h : capValid c = true) : (BitVec.ofNat 32 c).toNat = c := by
  have := capValid_bounds h
  simp only [BitVec.toNat_ofNat]
  omega

/-- `idx & (C-1)` is `idx mod C` for a legal capacity. -/
theorem slot_eq {q : Queue} {c : Nat} (h : capValid c = true) (hq : q.cap = BitVec.ofNat 32 c) (i : Word32) :
    q.slot i = i.toNat % c := by
  obtain ⟨k, rfl, hk3, hk⟩ := capValid_pow h
  have h1 : (BitVec.ofNat 32 (2 ^ k) - 1 : Word32).toNat = 2 ^ k - 1 := by
    have hb := capValid_bounds h
    have := toNat_cap h
    rw [BitVec.toNat_sub, this]
    have h1 : (1 : Word32).toNat = 1 := rfl
    rw [h1]
    omega
  simp only [Queue.slot, hq, BitVec.toNat_and, h1]
  exact Nat.and_two_pow_sub_one_eq_mod _ _

/-- A slot is always inside the buffer (R16). -/
theorem slot_lt {q : Queue} {c : Nat} (h : capValid c = true) (hq : q.cap = BitVec.ofNat 32 c) (i : Word32) :
    q.slot i < c := by
  rw [slot_eq h hq]
  have := (capValid_bounds h).1
  exact Nat.mod_lt _ (by omega)

/-- `(n & ~(C-1)) ≠ 0` says `n ≥ C` for a legal capacity. -/
theorem fullAt_eq {c : Nat} (h : capValid c = true) (n : Word32) :
    fullAt (BitVec.ofNat 32 c) n = decide (c ≤ n.toNat) := by
  obtain ⟨k, rfl, hk3, hk⟩ := capValid_pow h
  have hn := n.isLt
  have hm : (BitVec.ofNat 32 (2 ^ k) - 1 : Word32) = BitVec.ofNat 32 (2 ^ k - 1) := by
    apply BitVec.eq_of_toNat_eq
    have hb := capValid_bounds h
    have := toNat_cap h
    rw [BitVec.toNat_sub, this, BitVec.toNat_ofNat]
    have h1 : (1 : Word32).toNat = 1 := rfl
    rw [h1]
    omega
  have key : (n &&& ~~~(BitVec.ofNat 32 (2 ^ k) - 1) = 0) ↔ n.toNat < 2 ^ k := by
    rw [hm]
    constructor
    · intro h0
      by_contra hge
      have hge : 2 ^ k ≤ n.toNat := by omega
      obtain ⟨i, hi, hbit⟩ : ∃ i, k ≤ i ∧ n.toNat.testBit i = true := by
        by_contra hno
        push Not at hno
        have : n.toNat < 2 ^ k := Nat.lt_pow_two_of_testBit _ fun i hi => by
          simpa using hno i hi
        omega
      have hlt : i < 32 := by
        by_contra hc
        have : n.toNat < 2 ^ i := Nat.lt_of_lt_of_le hn (Nat.pow_le_pow_right (by omega) (by omega))
        rw [Nat.testBit_lt_two_pow this] at hbit
        exact absurd hbit (by simp)
      have := congrArg (fun v : Word32 => v.getLsbD i) h0
      simp only [BitVec.getLsbD_and, BitVec.getLsbD_not, hlt, decide_true, Bool.true_and, BitVec.getLsbD_ofNat] at this
      have hz : (2 ^ k - 1).testBit i = false := by
        rw [Nat.testBit_two_pow_sub_one]
        simpa using hi
      rw [hz] at this
      have hb : n.getLsbD i = true := hbit
      simp [hb] at this
    · intro hlt
      apply BitVec.eq_of_getLsbD_eq
      intro i hi
      simp only [BitVec.getLsbD_and, BitVec.getLsbD_not, hi, decide_true, Bool.true_and, BitVec.getLsbD_ofNat]
      rw [Nat.testBit_two_pow_sub_one]
      by_cases hik : i < k
      · simp [hik]
      · have : n.toNat < 2 ^ i := Nat.lt_of_lt_of_le hlt (Nat.pow_le_pow_right (by omega) (by omega))
        have hb : n.getLsbD i = false := Nat.testBit_lt_two_pow this
        simp [hb]
  unfold fullAt
  by_cases hc : n.toNat < 2 ^ k
  · rw [key.2 hc]
    simp only [bne_self_eq_false]
    symm
    simpa using hc
  · have : ¬ (n &&& ~~~(BitVec.ofNat 32 (2 ^ k) - 1) = 0) := fun e => hc (key.1 e)
    simp only [show (n &&& ~~~(BitVec.ofNat 32 (2 ^ k) - 1) != 0) = true from by simpa using this]
    symm
    simpa using hc

/-! ## Legal queues -/

/-- A queue after construction. -/
theorem QueueOk.empty {c : Nat} (h : capValid c = true) : QueueOk c (Queue.empty c) where
  cap := h
  capEq := rfl
  len := by simp [Queue.empty, Queue.len]
  buf := rfl
  within := by simp [Queue.empty]

theorem isFull_eq {c : Nat} {q : Queue} (h : QueueOk c q) : q.isFull = decide (c ≤ q.len.toNat) := by
  rw [Queue.isFull, h.capEq, fullAt_eq h.cap]

/-- One byte more. -/
theorem len_publishW {q : Queue} (h : q.len.toNat < 4294967295) :
    q.publishW.len.toNat = q.len.toNat + 1 := by
  simp only [Queue.len, Queue.publishW] at *
  bv_omega

/-- One byte less. -/
theorem len_publishR {q : Queue} (h : q.w ≠ q.r) : q.publishR.len.toNat = q.len.toNat - 1 := by
  simp only [Queue.len, Queue.publishR] at *
  bv_omega

/-- Empty means equal indices (R186). -/
theorem len_eq_zero {q : Queue} : q.len.toNat = 0 ↔ q.w = q.r := by
  simp only [Queue.len]
  constructor <;> intro h <;> bv_omega

theorem len_ne_zero {q : Queue} : q.len ≠ 0 ↔ q.w ≠ q.r := by
  simp only [Queue.len]
  constructor <;> intro h <;> bv_omega

@[simp] theorem writeSlot_w (q : Queue) (b : Byte) : (q.writeSlot b).w = q.w := rfl
@[simp] theorem writeSlot_r (q : Queue) (b : Byte) : (q.writeSlot b).r = q.r := rfl
@[simp] theorem writeSlot_cap (q : Queue) (b : Byte) : (q.writeSlot b).cap = q.cap := rfl
@[simp] theorem writeSlot_len (q : Queue) (b : Byte) : (q.writeSlot b).len = q.len := rfl
@[simp] theorem publishW_r (q : Queue) : q.publishW.r = q.r := rfl
@[simp] theorem publishW_w (q : Queue) : q.publishW.w = q.w + 1 := rfl
@[simp] theorem publishW_buf (q : Queue) : q.publishW.buf = q.buf := rfl
@[simp] theorem publishW_cap (q : Queue) : q.publishW.cap = q.cap := rfl
@[simp] theorem publishR_r (q : Queue) : q.publishR.r = q.r + 1 := rfl
@[simp] theorem publishR_w (q : Queue) : q.publishR.w = q.w := rfl
@[simp] theorem publishR_buf (q : Queue) : q.publishR.buf = q.buf := rfl
@[simp] theorem publishR_cap (q : Queue) : q.publishR.cap = q.cap := rfl
@[simp] theorem slot_writeSlot (q : Queue) (b : Byte) (i : Word32) : (q.writeSlot b).slot i = q.slot i := rfl
@[simp] theorem slot_publishW (q : Queue) (i : Word32) : q.publishW.slot i = q.slot i := rfl
@[simp] theorem slot_publishR (q : Queue) (i : Word32) : q.publishR.slot i = q.slot i := rfl

theorem QueueOk.writeSlot {c : Nat} {q : Queue} (h : QueueOk c q) (b : Byte) : QueueOk c (q.writeSlot b) where
  cap := h.cap
  capEq := h.capEq
  len := h.len
  buf := write_wf _ _ h.buf
  within := by
    intro x hx
    rcases mem_write hx with e | hx
    · rw [e]
      exact slot_lt h.cap h.capEq _
    · exact h.within x hx

theorem QueueOk.publishW {c : Nat} {q : Queue} (h : QueueOk c q) (hf : q.isFull = false) :
    QueueOk c q.publishW where
  cap := h.cap
  capEq := h.capEq
  len := by
    have hb := (capValid_bounds h.cap).2
    rw [isFull_eq h] at hf
    have hlt : q.len.toNat < c := by simpa using hf
    rw [len_publishW (by omega)]
    omega
  buf := h.buf
  within := h.within

theorem QueueOk.publishR {c : Nat} {q : Queue} (h : QueueOk c q) (hne : q.w ≠ q.r) : QueueOk c q.publishR where
  cap := h.cap
  capEq := h.capEq
  len := by
    have := h.len
    rw [len_publishR hne]
    omega
  buf := h.buf
  within := h.within

theorem isFull_writeSlot (q : Queue) (b : Byte) : (q.writeSlot b).isFull = q.isFull := rfl

/-- What a push does: nothing when full; else the slot, then `w` (R183). -/
theorem push_full {q : Queue} (b : Byte) (h : q.isFull = true) : q.push b = (false, q) := by
  simp [Queue.push, h]

theorem push_room {q : Queue} (b : Byte) (h : q.isFull = false) :
    q.push b = (true, (q.writeSlot b).publishW) := by
  simp [Queue.push, h]

theorem QueueOk.push {c : Nat} {q : Queue} (h : QueueOk c q) (b : Byte) : QueueOk c (q.push b).2 := by
  cases hf : q.isFull with
  | true => rw [push_full b hf]; exact h
  | false => rw [push_room b hf]; exact (h.writeSlot b).publishW hf

theorem QueueOk.pop {c : Nat} {q : Queue} (h : QueueOk c q) : QueueOk c q.pop.2 := by
  unfold Queue.pop
  split
  · exact h
  · rename_i hne
    exact h.publishR hne

/-! ## Contents (R43) -/

/-- The bytes from `i`: appending one at the end. -/
theorem bytesFrom_succ (q : Queue) (n : Nat) (i : Word32) :
    q.bytesFrom i (n + 1) = q.bytesFrom i n ++ [Memory.read q.buf (q.slot (i + BitVec.ofNat 32 n))] := by
  induction n generalizing i with
  | zero => simp [Queue.bytesFrom]
  | succ n ih =>
    have e : i + 1 + BitVec.ofNat 32 n = i + BitVec.ofNat 32 (n + 1) := by bv_omega
    rw [Queue.bytesFrom, ih, Queue.bytesFrom, e, List.cons_append]

/-- The bytes of a range depend only on those slots. -/
theorem bytesFrom_congr {q q' : Queue} {n : Nat} {i : Word32}
    (h : ∀ k < n, Memory.read q.buf (q.slot (i + BitVec.ofNat 32 k))
      = Memory.read q'.buf (q'.slot (i + BitVec.ofNat 32 k))) :
    q.bytesFrom i n = q'.bytesFrom i n := by
  induction n with
  | zero => rfl
  | succ n ih =>
    rw [bytesFrom_succ, bytesFrom_succ, ih fun k hk => h k (by omega), h n (by omega)]

@[simp] theorem length_bytesFrom (q : Queue) (n : Nat) (i : Word32) : (q.bytesFrom i n).length = n := by
  induction n generalizing i with
  | zero => rfl
  | succ n ih => simp [Queue.bytesFrom, ih]

/-- The length of the contents is the occupancy. -/
@[simp] theorem length_contents (q : Queue) : q.contents.length = q.len.toNat := by
  simp [Queue.contents]

/-- Two residues of nearby numbers differ. -/
theorem mod_ne_of_near {c k n r : Nat} (hk : k < n) (hn : n < c) : (r + k) % c ≠ (r + n) % c := by
  intro e
  have h : (n - k) % c = 0 := by
    have := Nat.sub_mod_eq_zero_of_mod_eq e.symm
    rwa [show r + n - (r + k) = n - k from by omega] at this
  rw [Nat.mod_eq_of_lt (by omega)] at h
  omega

/-- Slot `r + k`, by the residue of `k` (R74): wrapping of the index does not disturb it. -/
theorem slot_add {c : Nat} {q : Queue} (h : QueueOk c q) (k : Nat) (hk : k ≤ c) :
    q.slot (q.r + BitVec.ofNat 32 k) = (q.r.toNat + k) % c := by
  have hb := capValid_bounds h.cap
  rw [slot_eq h.cap h.capEq, BitVec.toNat_add, BitVec.toNat_ofNat, Nat.mod_eq_of_lt (by omega : k < 2 ^ 32)]
  exact Nat.mod_mod_of_dvd _ (capValid_dvd h.cap)

/-- `w` is `r` and the occupancy. -/
theorem w_eq (q : Queue) : q.w = q.r + BitVec.ofNat 32 q.len.toNat := by
  simp only [Queue.len, BitVec.ofNat_toNat, BitVec.setWidth_eq]
  bv_omega

/-- A slot that holds a queued byte is not the slot a push writes (R74). -/
theorem slot_ne_of_lt {c : Nat} {q : Queue} (h : QueueOk c q) (hf : q.isFull = false) {k : Nat}
    (hk : k < q.len.toNat) : q.slot (q.r + BitVec.ofNat 32 k) ≠ q.slot q.w := by
  rw [isFull_eq h] at hf
  have hlt : q.len.toNat < c := by simpa using hf
  rw [w_eq q, slot_add h k (by omega), slot_add h _ (by omega)]
  exact mod_ne_of_near hk hlt

/-- A push that finds room appends its byte to the contents (R183). -/
theorem contents_push {c : Nat} {q : Queue} (h : QueueOk c q) (hf : q.isFull = false) (b : Byte) :
    (q.writeSlot b).publishW.contents = q.contents ++ [b] := by
  have hlt : q.len.toNat < c := by
    rw [isFull_eq h] at hf
    simpa using hf
  have hb := (capValid_bounds h.cap).2
  have hlen : (q.writeSlot b).publishW.len.toNat = q.len.toNat + 1 := by
    rw [len_publishW (by rw [writeSlot_len]; omega), writeSlot_len]
  rw [Queue.contents, hlen, bytesFrom_succ]
  congr 1
  · apply bytesFrom_congr
    intro k hk
    exact read_write_ne b (slot_ne_of_lt h hf hk)
  · have e : (q.writeSlot b).publishW.r + BitVec.ofNat 32 q.len.toNat = q.w := (w_eq q).symm
    rw [e]
    exact congrArg (· :: []) (read_write _ b h.buf)

/-- A pop that finds a byte takes the first of the contents (R184). -/
theorem contents_pop {q : Queue} (h : q.w ≠ q.r) : q.contents = q.readSlot :: q.publishR.contents := by
  have hn : q.len.toNat ≠ 0 := fun e => h (len_eq_zero.1 e)
  obtain ⟨n, hn⟩ := Nat.exists_eq_succ_of_ne_zero hn
  have e : q.publishR.bytesFrom (q.r + 1) n = q.bytesFrom (q.r + 1) n := bytesFrom_congr fun _ _ => rfl
  rw [Queue.contents, Queue.contents, len_publishR h, hn]
  exact congrArg (q.readSlot :: ·) e.symm

/-- An empty queue has no contents (R186). -/
theorem contents_nil {q : Queue} : q.contents = [] ↔ q.w = q.r := by
  rw [← len_eq_zero, ← length_contents]
  exact List.length_eq_zero_iff.symm

/-- `push` as contents: appended if there was room, unchanged if not (R183, R187). -/
theorem push_contents {c : Nat} {q : Queue} (h : QueueOk c q) (b : Byte) :
    (q.push b).2.contents = if q.isFull then q.contents else q.contents ++ [b] := by
  cases hf : q.isFull with
  | true => rw [push_full b hf]; rfl
  | false => rw [push_room b hf]; exact contents_push h hf b

/-- `pop` as contents: the first byte, and the rest stay (R184). -/
theorem pop_contents (q : Queue) : q.pop.1 = q.contents.head? ∧ q.pop.2.contents = q.contents.tail := by
  unfold Queue.pop
  split
  · rename_i h
    rw [contents_nil.2 h]
    exact ⟨rfl, rfl⟩
  · rename_i h
    rw [contents_pop h]
    exact ⟨rfl, rfl⟩

end Sys2Proof.Machine
end

