-- ==== Sys2Proof/Laws/State.lean ====
section
/-! SUPPORT. One lemma per field per state update, so that no later proof unfolds an update: what each named setter
leaves alone, what it writes, and how setters compose. -/

namespace Sys2Proof.Machine

open Sys2Proof

/-! ## Ports -/

@[simp] theorem port_kbd (s : State) : s.port .kbd = s.kbd := rfl
@[simp] theorem port_mouse (s : State) : s.port .mouse = s.mouse := rfl
@[simp] theorem setPort_kbd (s : State) (p : Port) : s.setPort .kbd p = { s with kbd := p } := rfl
@[simp] theorem setPort_mouse (s : State) (p : Port) : s.setPort .mouse p = { s with mouse := p } := rfl

@[simp] theorem port_setPort (s : State) (ch : Chan) (p : Port) : (s.setPort ch p).port ch = p := by
  cases ch <;> rfl

theorem port_setPort_ne (s : State) {ch ch' : Chan} (p : Port) (h : ch' ≠ ch) :
    (s.setPort ch p).port ch' = s.port ch' := by
  cases ch <;> cases ch' <;> first | rfl | exact absurd rfl h

@[simp] theorem setPort_setPort (s : State) (ch : Chan) (p p' : Port) :
    (s.setPort ch p).setPort ch p' = s.setPort ch p' := by
  cases ch <;> rfl

@[simp] theorem setPort_port (s : State) (ch : Chan) : s.setPort ch (s.port ch) = s := by
  cases ch <;> rfl

@[simp] theorem setPort_cfg (s : State) (ch : Chan) (p : Port) : (s.setPort ch p).cfg = s.cfg := by
  cases ch <;> rfl
@[simp] theorem setPort_built (s : State) (ch : Chan) (p : Port) : (s.setPort ch p).built = s.built := by
  cases ch <;> rfl
@[simp] theorem setPort_kb (s : State) (ch : Chan) (p : Port) : (s.setPort ch p).kb = s.kb := by
  cases ch <;> rfl
@[simp] theorem setPort_ms (s : State) (ch : Chan) (p : Port) : (s.setPort ch p).ms = s.ms := by
  cases ch <;> rfl
@[simp] theorem setPort_fg (s : State) (ch : Chan) (p : Port) : (s.setPort ch p).fg = s.fg := by
  cases ch <;> rfl
@[simp] theorem setPort_calls (s : State) (ch : Chan) (p : Port) : (s.setPort ch p).calls = s.calls := by
  cases ch <;> rfl
@[simp] theorem setPort_hostTime (s : State) (ch : Chan) (p : Port) : (s.setPort ch p).hostTime = s.hostTime := by
  cases ch <;> rfl
@[simp] theorem setPort_hostFixed (s : State) (ch : Chan) (p : Port) :
    (s.setPort ch p).hostFixed = s.hostFixed := by cases ch <;> rfl
@[simp] theorem setPort_hostNext (s : State) (ch : Chan) (p : Port) : (s.setPort ch p).hostNext = s.hostNext := by
  cases ch <;> rfl
@[simp] theorem setPort_draws (s : State) (ch : Chan) (p : Port) : (s.setPort ch p).draws = s.draws := by
  cases ch <;> rfl
@[simp] theorem setPort_rets (s : State) (ch : Chan) (p : Port) : (s.setPort ch p).rets = s.rets := by
  cases ch <;> rfl
@[simp] theorem setPort_isrRets (s : State) (ch : Chan) (p : Port) : (s.setPort ch p).isrRets = s.isrRets := by
  cases ch <;> rfl
@[simp] theorem setPort_notes (s : State) (ch : Chan) (p : Port) : (s.setPort ch p).notes = s.notes := by
  cases ch <;> rfl
@[simp] theorem setPort_wire (s : State) (ch : Chan) (p : Port) : (s.setPort ch p).wire = s.wire := by
  cases ch <;> rfl
@[simp] theorem setPort_tape (s : State) (ch : Chan) (p : Port) : (s.setPort ch p).tape = s.tape := by
  cases ch <;> rfl

/-! Updates of the other fields leave the ports alone. -/

@[simp] theorem port_with_cfg (s : State) (ch : Chan) (v : Cfg) :
    State.port { s with cfg := v } ch = s.port ch := by cases ch <;> rfl
@[simp] theorem port_with_built (s : State) (ch : Chan) (v : Bool) :
    State.port { s with built := v } ch = s.port ch := by cases ch <;> rfl
@[simp] theorem port_with_kb (s : State) (ch : Chan) (v : Kb) :
    State.port { s with kb := v } ch = s.port ch := by cases ch <;> rfl
@[simp] theorem port_with_ms (s : State) (ch : Chan) (v : Ms) :
    State.port { s with ms := v } ch = s.port ch := by cases ch <;> rfl
@[simp] theorem port_with_fg (s : State) (ch : Chan) (v : Option Task) :
    State.port { s with fg := v } ch = s.port ch := by cases ch <;> rfl
@[simp] theorem port_with_calls (s : State) (ch : Chan) (v : List Call) :
    State.port { s with calls := v } ch = s.port ch := by cases ch <;> rfl
@[simp] theorem port_with_hostTime (s : State) (ch : Chan) (v : Word32) :
    State.port { s with hostTime := v } ch = s.port ch := by cases ch <;> rfl
@[simp] theorem port_with_hostFixed (s : State) (ch : Chan) (v : Option Word32) :
    State.port { s with hostFixed := v } ch = s.port ch := by cases ch <;> rfl
@[simp] theorem port_with_hostNext (s : State) (ch : Chan) (v : Option Word32) :
    State.port { s with hostNext := v } ch = s.port ch := by cases ch <;> rfl
@[simp] theorem port_with_draws (s : State) (ch : Chan) (v : Nat) :
    State.port { s with draws := v } ch = s.port ch := by cases ch <;> rfl
@[simp] theorem port_with_rets (s : State) (ch : Chan) (v : List Ret) :
    State.port { s with rets := v } ch = s.port ch := by cases ch <;> rfl
@[simp] theorem port_with_isrRets (s : State) (ch : Chan) (v : List Ret) :
    State.port { s with isrRets := v } ch = s.port ch := by cases ch <;> rfl
@[simp] theorem port_with_notes (s : State) (ch : Chan) (v : List Note) :
    State.port { s with notes := v } ch = s.port ch := by cases ch <;> rfl
@[simp] theorem port_with_wire (s : State) (ch : Chan) (v : List WireEvent) :
    State.port { s with wire := v } ch = s.port ch := by cases ch <;> rfl
@[simp] theorem port_with_tape (s : State) (ch : Chan) (v : List Input) :
    State.port { s with tape := v } ch = s.port ch := by cases ch <;> rfl

/-! ## The derived setters are port updates -/

theorem chn_eq (s : State) (ch : Chan) : s.chn ch = (s.port ch).chn := rfl

theorem setChn_eq (s : State) (ch : Chan) (c : Channel) :
    s.setChn ch c = s.setPort ch { s.port ch with chn := c } := rfl

theorem setKick_eq (s : State) (ch : Chan) (k : Bool) :
    s.setKick ch k = s.setPort ch { s.port ch with kickPend := k } := rfl

@[simp] theorem queue_rx (s : State) (ch : Chan) : s.queue (.rx ch) = (s.port ch).rx := rfl
@[simp] theorem queue_tx (s : State) (ch : Chan) : s.queue (.tx ch) = (s.port ch).tx := rfl

@[simp] theorem setQueue_rx (s : State) (ch : Chan) (v : Queue) :
    s.setQueue (.rx ch) v = s.setPort ch { s.port ch with rx := v } := rfl

@[simp] theorem setQueue_tx (s : State) (ch : Chan) (v : Queue) :
    s.setQueue (.tx ch) v = s.setPort ch { s.port ch with tx := v } := rfl

@[simp] theorem queue_setQueue (s : State) (q : QSel) (v : Queue) : (s.setQueue q v).queue q = v := by
  cases q <;> simp

theorem queue_setQueue_ne (s : State) {q q' : QSel} (v : Queue) (h : q' ≠ q) :
    (s.setQueue q v).queue q' = s.queue q' := by
  cases q with
  | rx ch => cases q' with
    | rx ch' => simp [port_setPort_ne s _ (show ch' ≠ ch from fun e => h (e ▸ rfl))]
    | tx ch' => by_cases e : ch' = ch
                · subst e; simp
                · simp [port_setPort_ne s _ e]
  | tx ch => cases q' with
    | tx ch' => simp [port_setPort_ne s _ (show ch' ≠ ch from fun e => h (e ▸ rfl))]
    | rx ch' => by_cases e : ch' = ch
                · subst e; simp
                · simp [port_setPort_ne s _ e]

@[simp] theorem setQueue_setQueue (s : State) (q : QSel) (v v' : Queue) :
    (s.setQueue q v).setQueue q v' = s.setQueue q v' := by
  cases q <;> simp

@[simp] theorem setQueue_queue (s : State) (q : QSel) : s.setQueue q (s.queue q) = s := by
  cases q <;> exact setPort_port _ _

/-! ## Lines, timers, notifications, transfers -/

theorem setLine_clk (s : State) (ch : Chan) : s.setLine (.clk ch) =
    { s.setChn ch { s.chn ch with clkOut := .rel } with wire := s.wire ++ [.latch (.clk ch) .rel] } := by
  simp [State.setLine, setChn_eq]

theorem setLine_data (s : State) (ch : Chan) : s.setLine (.data ch) =
    { s.setChn ch { s.chn ch with dataOut := .rel } with wire := s.wire ++ [.latch (.data ch) .rel] } := by
  simp [State.setLine, setChn_eq]

theorem clearLine_clk (s : State) (ch : Chan) : s.clearLine (.clk ch) =
    { s.setChn ch { s.chn ch with clkOut := .low } with wire := s.wire ++ [.latch (.clk ch) .low] } := by
  simp [State.clearLine, setChn_eq]

theorem clearLine_data (s : State) (ch : Chan) : s.clearLine (.data ch) =
    { s.setChn ch { s.chn ch with dataOut := .low } with wire := s.wire ++ [.latch (.data ch) .low] } := by
  simp [State.clearLine, setChn_eq]

theorem raise_eq (s : State) (n : Note) : s.raise n = { s with notes := s.notes ++ [n] } := rfl

theorem transfer_eq (s : State) (e : WireEvent) : s.transfer e = { s with wire := s.wire ++ [e] } := rfl

/-- An update of another field moves past a port update. -/
theorem with_wire_setPort (s : State) (ch : Chan) (p : Port) (v : List WireEvent) :
    State.setPort { s with wire := v } ch p = { s.setPort ch p with wire := v } := by cases ch <;> rfl

theorem with_notes_setPort (s : State) (ch : Chan) (p : Port) (v : List Note) :
    State.setPort { s with notes := v } ch p = { s.setPort ch p with notes := v } := by cases ch <;> rfl

/-! ## Channel records and configuration under the line and timer operations -/

@[simp] theorem chn_setChn (s : State) (ch : Chan) (c : Channel) : (s.setChn ch c).chn ch = c := by
  cases ch <;> rfl
@[simp] theorem chn_setKick (s : State) (ch ch' : Chan) (k : Bool) : (s.setKick ch' k).chn ch = s.chn ch := by
  cases ch <;> cases ch' <;> rfl
@[simp] theorem chn_setQueue (s : State) (ch : Chan) (q : QSel) (v : Queue) : (s.setQueue q v).chn ch = s.chn ch := by
  cases ch <;> rcases q with c | c <;> cases c <;> rfl
@[simp] theorem chn_raise (s : State) (ch : Chan) (n : Note) : (s.raise n).chn ch = s.chn ch := by
  cases ch <;> rfl
@[simp] theorem chn_transfer (s : State) (ch : Chan) (e : WireEvent) : (s.transfer e).chn ch = s.chn ch := by
  cases ch <;> rfl
@[simp] theorem chn_armTimer (s : State) (ch : Chan) (us : Word32) :
    (s.armTimer ch us).chn ch = { s.chn ch with timerArmed := true, timerPeriod := us } := by
  cases ch <;> rfl
@[simp] theorem chn_restartTimer (s : State) (ch : Chan) :
    (s.restartTimer ch).chn ch = { s.chn ch with timerArmed := true } := by
  cases ch <;> rfl
@[simp] theorem chn_stopTimer (s : State) (ch : Chan) :
    (s.stopTimer ch).chn ch = { s.chn ch with timerArmed := false } := by
  cases ch <;> rfl
@[simp] theorem chn_setLine_clk (s : State) (ch : Chan) :
    (s.setLine (.clk ch)).chn ch = { s.chn ch with clkOut := .rel } := by
  cases ch <;> rfl
@[simp] theorem chn_setLine_data (s : State) (ch : Chan) :
    (s.setLine (.data ch)).chn ch = { s.chn ch with dataOut := .rel } := by
  cases ch <;> rfl
@[simp] theorem chn_clearLine_clk (s : State) (ch : Chan) :
    (s.clearLine (.clk ch)).chn ch = { s.chn ch with clkOut := .low } := by
  cases ch <;> rfl
@[simp] theorem chn_clearLine_data (s : State) (ch : Chan) :
    (s.clearLine (.data ch)).chn ch = { s.chn ch with dataOut := .low } := by
  cases ch <;> rfl
@[simp] theorem chn_driveLine (s : State) (ch : Chan) (b : Bool) :
    (s.driveLine (.data ch) b).chn ch = { s.chn ch with dataOut := if b then .rel else .low } := by
  cases b <;> simp [State.driveLine]

/-! ## Timebase -/

@[simp] theorem readNow_cfg (s : State) : s.readNow.2.cfg = s.cfg := by
  unfold State.readNow; split <;> rfl
@[simp] theorem readNow_built (s : State) : s.readNow.2.built = s.built := by
  unfold State.readNow; split <;> rfl
@[simp] theorem readNow_kbd (s : State) : s.readNow.2.kbd = s.kbd := by
  unfold State.readNow; split <;> rfl
@[simp] theorem readNow_mouse (s : State) : s.readNow.2.mouse = s.mouse := by
  unfold State.readNow; split <;> rfl
@[simp] theorem readNow_kb (s : State) : s.readNow.2.kb = s.kb := by
  unfold State.readNow; split <;> rfl
@[simp] theorem readNow_ms (s : State) : s.readNow.2.ms = s.ms := by
  unfold State.readNow; split <;> rfl
@[simp] theorem readNow_fg (s : State) : s.readNow.2.fg = s.fg := by
  unfold State.readNow; split <;> rfl
@[simp] theorem readNow_calls (s : State) : s.readNow.2.calls = s.calls := by
  unfold State.readNow; split <;> rfl
@[simp] theorem readNow_hostFixed (s : State) : s.readNow.2.hostFixed = s.hostFixed := by
  unfold State.readNow; split <;> simp_all
@[simp] theorem readNow_hostNext (s : State) : s.readNow.2.hostNext = s.hostNext := by
  unfold State.readNow; split <;> rfl
@[simp] theorem readNow_rets (s : State) : s.readNow.2.rets = s.rets := by
  unfold State.readNow; split <;> rfl
@[simp] theorem readNow_isrRets (s : State) : s.readNow.2.isrRets = s.isrRets := by
  unfold State.readNow; split <;> rfl
@[simp] theorem readNow_notes (s : State) : s.readNow.2.notes = s.notes := by
  unfold State.readNow; split <;> rfl
@[simp] theorem readNow_wire (s : State) : s.readNow.2.wire = s.wire := by
  unfold State.readNow; split <;> rfl
@[simp] theorem readNow_tape (s : State) : s.readNow.2.tape = s.tape := by
  unfold State.readNow; split <;> rfl

/-- The value a script line fixes is what is read, as often as it is read (R138). -/
theorem readNow_fixed {s : State} {t : Word32} (h : s.hostFixed = some t) :
    s.readNow = (t, { s with hostTime := t }) := by
  simp [State.readNow, h]

/-! ## Calls -/

@[simp] theorem called_cfg (s : State) : s.called.cfg = s.cfg := rfl
@[simp] theorem called_built (s : State) : s.called.built = s.built := rfl
@[simp] theorem called_kbd (s : State) : s.called.kbd = s.kbd := rfl
@[simp] theorem called_mouse (s : State) : s.called.mouse = s.mouse := rfl
@[simp] theorem called_kb (s : State) : s.called.kb = s.kb := rfl
@[simp] theorem called_ms (s : State) : s.called.ms = s.ms := rfl
@[simp] theorem called_fg (s : State) : s.called.fg = s.fg := rfl
@[simp] theorem called_hostTime (s : State) : s.called.hostTime = s.hostTime := rfl
@[simp] theorem called_draws (s : State) : s.called.draws = s.draws := rfl
@[simp] theorem called_rets (s : State) : s.called.rets = s.rets := rfl
@[simp] theorem called_isrRets (s : State) : s.called.isrRets = s.isrRets := rfl
@[simp] theorem called_notes (s : State) : s.called.notes = s.notes := rfl
@[simp] theorem called_wire (s : State) : s.called.wire = s.wire := rfl
@[simp] theorem called_tape (s : State) : s.called.tape = s.tape := rfl
@[simp] theorem called_calls (s : State) : s.called.calls = s.calls := rfl
@[simp] theorem called_hostFixed (s : State) : s.called.hostFixed = s.hostNext := rfl
@[simp] theorem called_hostNext (s : State) : s.called.hostNext = none := rfl
@[simp] theorem called_port (s : State) (ch : Chan) : s.called.port ch = s.port ch := by cases ch <;> rfl
@[simp] theorem held_cfg (s : State) (op : FgOp) : (s.held op).cfg = s.cfg := rfl
@[simp] theorem held_built (s : State) (op : FgOp) : (s.held op).built = s.built := rfl
@[simp] theorem held_kbd (s : State) (op : FgOp) : (s.held op).kbd = s.kbd := rfl
@[simp] theorem held_mouse (s : State) (op : FgOp) : (s.held op).mouse = s.mouse := rfl
@[simp] theorem held_kb (s : State) (op : FgOp) : (s.held op).kb = s.kb := rfl
@[simp] theorem held_ms (s : State) (op : FgOp) : (s.held op).ms = s.ms := rfl
@[simp] theorem held_fg (s : State) (op : FgOp) : (s.held op).fg = s.fg := rfl
@[simp] theorem held_hostTime (s : State) (op : FgOp) : (s.held op).hostTime = s.hostTime := rfl
@[simp] theorem held_draws (s : State) (op : FgOp) : (s.held op).draws = s.draws := rfl
@[simp] theorem held_rets (s : State) (op : FgOp) : (s.held op).rets = s.rets := rfl
@[simp] theorem held_isrRets (s : State) (op : FgOp) : (s.held op).isrRets = s.isrRets := rfl
@[simp] theorem held_notes (s : State) (op : FgOp) : (s.held op).notes = s.notes := rfl
@[simp] theorem held_wire (s : State) (op : FgOp) : (s.held op).wire = s.wire := rfl
@[simp] theorem held_tape (s : State) (op : FgOp) : (s.held op).tape = s.tape := rfl
@[simp] theorem held_hostFixed (s : State) (op : FgOp) : (s.held op).hostFixed = s.hostFixed := rfl
@[simp] theorem held_calls (s : State) (op : FgOp) : (s.held op).calls = s.calls ++ [⟨op, s.hostNext⟩] := rfl
@[simp] theorem held_hostNext (s : State) (op : FgOp) : (s.held op).hostNext = none := rfl
@[simp] theorem held_port (s : State) (op : FgOp) (ch : Chan) : (s.held op).port ch = s.port ch := by cases ch <;> rfl

/-! ## Sequencing -/

@[simp] theorem andThen_next (s : State) (f : State → Host.Outcome State Fault Refusal) :
    andThen (.next s) f = f s := rfl
@[simp] theorem andThen_fault (r : Fault) (f : State → Host.Outcome State Fault Refusal) :
    andThen (.fault r) f = .fault r := rfl
@[simp] theorem andThen_refused (r : Refusal) (f : State → Host.Outcome State Fault Refusal) :
    andThen (.refused r) f = .refused r := rfl

/-- What a sequence that ends in a next state went through. -/
theorem andThen_eq_next {o : Host.Outcome State Fault Refusal} {f : State → Host.Outcome State Fault Refusal}
    {t : State} (h : andThen o f = .next t) : ∃ s, o = .next s ∧ f s = .next t := by
  cases o with
  | next s => exact ⟨s, rfl, h⟩
  | fault r => cases h
  | refused r => cases h

end Sys2Proof.Machine
end

