-- ==== Sys2Proof/Laws/Handlers.lean ====
section
/-! SUPPORT. The interrupt handlers: when one runs, what it may write (spec/60_exceptions.md R317, R321), and that it
keeps a channel record in order (40_transceiver.md R159, R160, R164). -/

namespace Sys2Proof.Machine

open Sys2Proof

/-! ## Handler entry -/

/-- What taking an interrupt went through when it answers a next state. -/
theorem takeInterrupt_eq_next {s t : State} {irq : Irq} {body : State → State}
    (h : s.takeInterrupt irq body = .next t) :
    (s.irqEnabled irq = false ∧ t = s) ∨
    (s.irqEnabled irq = true ∧ (s.chn irq.chan).legal = true ∧ t = body (s.enterHandler irq)) := by
  unfold State.takeInterrupt at h
  cases he : s.irqEnabled irq <;> cases hl : (s.chn irq.chan).legal <;> simp_all

/-- A source that is not enabled changes nothing. -/
theorem takeInterrupt_disabled {s : State} {irq : Irq} (body : State → State) (h : s.irqEnabled irq = false) :
    s.takeInterrupt irq body = .next s := by
  simp [State.takeInterrupt, h]

/-- An enabled source runs its handler to the end. -/
theorem takeInterrupt_run {s : State} {irq : Irq} (body : State → State) (h : s.irqEnabled irq = true)
    (hl : (s.chn irq.chan).legal = true) : s.takeInterrupt irq body = .next (body (s.enterHandler irq)) := by
  simp [State.takeInterrupt, h, hl]

/-! ## What a handler may write -/

theorem IsrWrites.refl (ch : Chan) (s : State) : IsrWrites ch s s where
  frame := ⟨s.port ch, [], [], [], by simp⟩
  rx := ⟨[], rfl⟩
  tx := ⟨0, rfl⟩
  kick := id

theorem pushAll_append (q : Queue) (as bs : List Byte) : q.pushAll (as ++ bs) = (q.pushAll as).pushAll bs := by
  induction as generalizing q with
  | nil => rfl
  | cons a as ih => exact ih _

theorem popN_add (q : Queue) (m n : Nat) : q.popN (m + n) = (q.popN m).popN n := by
  induction m generalizing q with
  | zero => rw [Nat.zero_add]; rfl
  | succ m ih =>
    rw [Nat.succ_add]
    exact ih _

theorem IsrWrites.trans {ch : Chan} {s t u : State} (h : IsrWrites ch s t) (h' : IsrWrites ch t u) :
    IsrWrites ch s u where
  frame := by
    obtain ⟨p, ns, es, rs, e⟩ := h.frame
    obtain ⟨p', ns', es', rs', e'⟩ := h'.frame
    refine ⟨p', ns ++ ns', es ++ es', rs ++ rs', ?_⟩
    subst e
    rw [e']
    cases ch <;> simp
  rx := by
    obtain ⟨as, e⟩ := h.rx
    obtain ⟨bs, e'⟩ := h'.rx
    exact ⟨as ++ bs, by rw [e', e, pushAll_append]⟩
  tx := by
    obtain ⟨m, e⟩ := h.tx
    obtain ⟨n, e'⟩ := h'.tx
    exact ⟨m + n, by rw [e', e, popN_add]⟩
  kick := fun e => h.kick (h'.kick e)

/-- The raw shape of a handler's effect: a new channel record, a queue operation on each side, records. -/
theorem IsrWrites.intro {ch : Chan} {s t : State} (p : Port) (ns : List Note) (es : List WireEvent) (rs : List Ret)
    (e : t = { s.setPort ch p with notes := s.notes ++ ns, wire := s.wire ++ es, isrRets := s.isrRets ++ rs })
    (hr : p.rx = (s.port ch).rx ∨ ∃ b, p.rx = ((s.port ch).rx.push b).2)
    (ht : p.tx = (s.port ch).tx ∨ p.tx = (s.port ch).tx.pop.2)
    (hk : p.kickPend = true → (s.port ch).kickPend = true) : IsrWrites ch s t where
  frame := ⟨p, ns, es, rs, e⟩
  rx := by
    subst e
    rcases hr with hr | ⟨b, hr⟩
    · exact ⟨[], by cases ch <;> exact hr⟩
    · exact ⟨[b], by cases ch <;> exact hr⟩
  tx := by
    subst e
    rcases ht with ht | ht
    · exact ⟨0, by cases ch <;> exact ht⟩
    · exact ⟨1, by cases ch <;> exact ht⟩
  kick := by
    subst e
    cases ch <;> exact hk

/-- A push in the state, as port and kick (R183, R191). -/
theorem push_rx_eq (s : State) (ch : Chan) (b : Byte) :
    s.push (.rx ch) b =
      (((s.port ch).rx.push b).1, s.setPort ch { s.port ch with rx := ((s.port ch).rx.push b).2 }) := by
  unfold State.push Queue.push
  cases ch <;> simp only [queue_rx] <;> split <;> simp_all [State.publishPush, State.kickFor]

theorem push_tx_eq (s : State) (ch : Chan) (b : Byte) :
    s.push (.tx ch) b =
      (((s.port ch).tx.push b).1, s.setPort ch { s.port ch with
        tx := ((s.port ch).tx.push b).2
        kickPend := (s.port ch).kickPend || ((s.port ch).tx.push b).1 }) := by
  unfold State.push Queue.push
  cases ch <;> simp only [queue_tx] <;> split <;> simp_all [State.publishPush, State.kickFor, State.setKick] 

theorem pop_tx_eq (s : State) (ch : Chan) :
    s.pop (.tx ch) = ((s.port ch).tx.pop.1, s.setPort ch { s.port ch with tx := (s.port ch).tx.pop.2 }) := rfl

theorem pop_rx_eq (s : State) (ch : Chan) :
    s.pop (.rx ch) = ((s.port ch).rx.pop.1, s.setPort ch { s.port ch with rx := (s.port ch).rx.pop.2 }) := rfl


/-! Each primitive a handler is made of. -/

theorem IsrWrites.setChn (ch : Chan) (s : State) (c : Channel) : IsrWrites ch s (s.setChn ch c) :=
  .intro { s.port ch with chn := c } [] [] [] (by cases ch <;> simp [State.setChn]) (.inl rfl) (.inl rfl) id

theorem IsrWrites.wire (ch : Chan) (s : State) (e : WireEvent) :
    IsrWrites ch s { s with wire := s.wire ++ [e] } :=
  .intro (s.port ch) [] [e] [] (by cases ch <;> simp) (.inl rfl) (.inl rfl) id

theorem IsrWrites.raise (ch : Chan) (s : State) (n : Note) : IsrWrites ch s (s.raise n) :=
  .intro (s.port ch) [n] [] [] (by cases ch <;> simp [State.raise]) (.inl rfl) (.inl rfl) id

theorem IsrWrites.transfer (ch : Chan) (s : State) (e : WireEvent) : IsrWrites ch s (s.transfer e) := .wire ch s e

theorem IsrWrites.armTimer (ch : Chan) (s : State) (us : Word32) : IsrWrites ch s (s.armTimer ch us) := .setChn ch s _

theorem IsrWrites.restartTimer (ch : Chan) (s : State) : IsrWrites ch s (s.restartTimer ch) := .setChn ch s _

theorem IsrWrites.stopTimer (ch : Chan) (s : State) : IsrWrites ch s (s.stopTimer ch) := .setChn ch s _

theorem IsrWrites.setClk (ch : Chan) (s : State) : IsrWrites ch s (s.setLine (.clk ch)) :=
  (IsrWrites.setChn ch s _).trans (.wire ch _ _)

theorem IsrWrites.setData (ch : Chan) (s : State) : IsrWrites ch s (s.setLine (.data ch)) :=
  (IsrWrites.setChn ch s _).trans (.wire ch _ _)

theorem IsrWrites.clearClk (ch : Chan) (s : State) : IsrWrites ch s (s.clearLine (.clk ch)) :=
  (IsrWrites.setChn ch s _).trans (.wire ch _ _)

theorem IsrWrites.clearData (ch : Chan) (s : State) : IsrWrites ch s (s.clearLine (.data ch)) :=
  (IsrWrites.setChn ch s _).trans (.wire ch _ _)

theorem IsrWrites.driveData (ch : Chan) (s : State) (b : Bool) : IsrWrites ch s (s.driveLine (.data ch) b) := by
  cases b
  · exact .clearData ch s
  · exact .setData ch s

theorem IsrWrites.clearKick (ch : Chan) (s : State) : IsrWrites ch s (s.setKick ch false) :=
  .intro { s.port ch with kickPend := false } [] [] [] (by cases ch <;> simp [State.setKick]) (.inl rfl) (.inl rfl)
    (by simp)

theorem IsrWrites.push (ch : Chan) (s : State) (b : Byte) : IsrWrites ch s (s.push (.rx ch) b).2 := by
  rw [push_rx_eq]
  exact .intro { s.port ch with rx := ((s.port ch).rx.push b).2 } [] [] [] (by cases ch <;> simp) (.inr ⟨b, rfl⟩)
    (.inl rfl) id

theorem IsrWrites.pop (ch : Chan) (s : State) : IsrWrites ch s (s.pop (.tx ch)).2 := by
  rw [pop_tx_eq]
  exact .intro { s.port ch with tx := (s.port ch).tx.pop.2 } [] [] [] (by cases ch <;> simp) (.inl rfl) (.inr rfl) id

theorem IsrWrites.returns (ch : Chan) (s : State) (r : Ret) : IsrWrites ch s (s.isrReturns r) :=
  .intro (s.port ch) [] [] [r] (by cases ch <;> simp [State.isrReturns]) (.inl rfl) (.inl rfl) id

/-! The handlers. -/

theorem deliver_writes (ch : Chan) (b : Byte) (err : Bool) (s : State) : IsrWrites ch s (deliver ch b err s) := by
  unfold deliver
  refine (IsrWrites.transfer ch s (.received ch b err)).trans ?_
  cases err
  · simp only [Bool.false_eq_true, if_false]
    split
    · exact .push ch _ b
    · exact (IsrWrites.push ch _ b).trans (.raise ch _ _)
  · simp only [if_true]
    refine (IsrWrites.raise ch _ (.frameError ch)).trans ?_
    split
    · exact .push ch _ b
    · exact (IsrWrites.push ch _ b).trans (.raise ch _ _)

theorem edgeBody_writes (ch : Chan) (d : Bool) (s : State) : IsrWrites ch s (edgeBody ch d s) := by
  have start : IsrWrites ch s (startBit ch d s) := (IsrWrites.setChn ch s _).trans (.armTimer ch _ _)
  unfold edgeBody
  dsimp only
  split
  · exact start
  · exact start
  · split
    · exact (IsrWrites.setChn ch s _).trans (.restartTimer ch _)
    · split
      · exact (IsrWrites.setChn ch s _).trans (.restartTimer ch _)
      · exact (((IsrWrites.setChn ch s _).trans (deliver_writes ch _ _ _)).trans (.setChn ch _ _)).trans
          (.armTimer ch _ _)
  · exact .refl ch s
  · split
    · exact ((IsrWrites.driveData ch s _).trans (.setChn ch _ _)).trans (.restartTimer ch _)
    · split
      · exact ((IsrWrites.driveData ch s _).trans (.setChn ch _ _)).trans (.restartTimer ch _)
      · split
        · exact ((IsrWrites.setData ch s).trans (.setChn ch _ _)).trans (.restartTimer ch _)
        · exact ((IsrWrites.setChn ch s _).trans (.armTimer ch _ _)).trans (.transfer ch _ _)

theorem requestToSend_writes (ch : Chan) (s : State) : IsrWrites ch s (requestToSend ch s) :=
  ((IsrWrites.clearClk ch s).trans (.setChn ch _ _)).trans (.armTimer ch _ _)

theorem kickBody_writes (ch : Chan) (s : State) : IsrWrites ch s (kickBody ch s) := by
  unfold kickBody
  split
  · exact requestToSend_writes ch s
  · exact .refl ch s

theorem timerBody_writes (ch : Chan) (s : State) : IsrWrites ch s (timerBody ch s) := by
  have ab : IsrWrites ch s (abandon ch s) :=
    (((IsrWrites.setData ch s).trans (.setClk ch _)).trans (.stopTimer ch _)).trans (.setChn ch _ _)
  unfold timerBody
  split
  · exact .refl ch s
  · exact ab
  · unfold gapExpiry
    split
    · exact requestToSend_writes ch s
    · exact .setChn ch s _
  · have hp := IsrWrites.pop ch s
    unfold startPulseExpiry
    split
    · rename_i e
      rw [e] at hp
      exact ((((hp.trans (.setChn ch _ _)).trans (.clearData ch _)).trans (.setClk ch _)).trans (.setChn ch _ _)).trans
        (.armTimer ch _ _)
    · rename_i e
      rw [e] at hp
      exact (hp.trans (.setClk ch _)).trans (.setChn ch _ _)
  · exact ab

theorem enterHandler_writes (irq : Irq) (s : State) : IsrWrites irq.chan s (s.enterHandler irq) := by
  cases irq with
  | edge ch => exact .refl ch s
  | timer ch => exact .stopTimer ch s
  | kick ch => exact .clearKick ch s

/-- A handler run writes what its body writes. -/
theorem takeInterrupt_writes {s t : State} {irq : Irq} {body : State → State}
    (hb : ∀ u, IsrWrites irq.chan u (body u)) (h : s.takeInterrupt irq body = .next t) : IsrWrites irq.chan s t := by
  rcases takeInterrupt_eq_next h with ⟨_, e⟩ | ⟨_, _, e⟩
  · rw [e]
    exact .refl _ s
  · rw [e]
    exact (enterHandler_writes irq s).trans (hb _)

theorem edgeHandler_writes {ch : Chan} {d : Bool} {s t : State} (h : edgeHandler ch d s = .next t) :
    IsrWrites ch s t := takeInterrupt_writes (irq := .edge ch) (edgeBody_writes ch d) h

theorem timerHandler_writes {ch : Chan} {s t : State} (h : timerHandler ch s = .next t) : IsrWrites ch s t :=
  takeInterrupt_writes (irq := .timer ch) (timerBody_writes ch) h

theorem kickHandler_writes {ch : Chan} {s t : State} (h : kickHandler ch s = .next t) : IsrWrites ch s t :=
  takeInterrupt_writes (irq := .kick ch) (kickBody_writes ch) h

theorem runEdges_writes {ch : Chan} {ds : List Bool} {s t : State} (h : runEdges ch ds s = .next t) :
    IsrWrites ch s t := by
  induction ds generalizing s with
  | nil => cases h; exact .refl ch _
  | cons d ds ih =>
    obtain ⟨u, hu, hr⟩ := andThen_eq_next h
    exact (edgeHandler_writes hu).trans (ih hr)

end Sys2Proof.Machine
end

