-- ==== Sys2Proof/Laws/Channels.lean ====
section
/-! SUPPORT. The handlers keep a channel record in order: its position legal (spec/40_transceiver.md R164), its timer
armed exactly outside `Passive` (R159), its lines at the levels of its state (R160). -/

namespace Sys2Proof.Machine

open Sys2Proof

theorem chn_deliver (ch : Chan) (b : Byte) (err : Bool) (s : State) : (deliver ch b err s).chn ch = s.chn ch := by
  have hp : ∀ u : State, (u.push (.rx ch) b).2.chn ch = u.chn ch := by
    intro u
    rw [push_rx_eq]
    cases ch <;> rfl
  unfold deliver
  cases err <;> simp only [Bool.false_eq_true, if_false, if_true] <;> split <;>
    simp [hp]

/-- What the edge handler makes of the channel record (R141 to R155, R157). -/
theorem edgeBody_chn {ch : Chan} {d : Bool} {s : State} (h : ChannelOk (s.chn ch)) :
    ChannelOk ((edgeBody ch d s).chn ch) := by
  obtain ⟨hl, ht, hw⟩ := h
  unfold edgeBody
  generalize hc : s.chn ch = c at *
  obtain ⟨status, bitcnt, shift, parity, armed, period, err, clk, data⟩ := c
  dsimp only at *
  cases status <;> dsimp only
  · constructor <;> simp_all [startBit, Channel.legal, Channel.linesOk]
  · simp only [Channel.legal, Channel.linesOk, Bool.and_eq_true, decide_eq_true_eq] at hl hw
    split
    · constructor <;> simp_all [dataBit, Channel.legal, Channel.linesOk]
      bv_omega
    · split
      · constructor <;> simp_all [parityBit, Channel.legal, Channel.linesOk]
      · constructor <;> simp_all [stopBit, chn_deliver, Channel.legal, Channel.linesOk]
  · rw [hc]
    exact ⟨hl, ht, hw⟩
  · simp only [Channel.legal, Channel.linesOk, Bool.and_eq_true, decide_eq_true_eq] at hl hw
    split
    · constructor <;> simp_all [sentDataBit, Channel.legal, Channel.linesOk]
      · bv_omega
      · left; bv_omega
    · split
      · constructor <;> simp_all [sentParityBit, Channel.legal, Channel.linesOk]
      · split
        · constructor <;> simp_all [sentStopBit, Channel.legal, Channel.linesOk]
        · have e : bitcnt = 11 := by bv_omega
          constructor <;> simp_all [ackBit, Channel.legal, Channel.linesOk]
  · constructor <;> simp_all [startBit, Channel.legal, Channel.linesOk]

theorem chn_requestToSend (ch : Chan) (s : State) : (requestToSend ch s).chn ch =
    { s.chn ch with status := .sendRequested, timerArmed := true, timerPeriod := (requestToSend ch s).cfg.tStartUs,
                    clkOut := .low } := by
  cases ch <;> rfl

theorem requestToSend_chn {ch : Chan} {s : State} (hb : (s.chn ch).bitcnt = 0) (hd : (s.chn ch).dataOut = .rel) :
    ChannelOk ((requestToSend ch s).chn ch) := by
  rw [chn_requestToSend]
  constructor <;> simp [Channel.legal, Channel.linesOk, hb, hd]

/-- What the kick handler makes of the channel record (R147). -/
theorem kickBody_chn {ch : Chan} {s : State} (h : ChannelOk (s.chn ch)) : ChannelOk ((kickBody ch s).chn ch) := by
  unfold kickBody
  split
  · rename_i hp
    obtain ⟨hl, ht, hw⟩ := h
    simp only [Channel.legal, Channel.linesOk, hp.1, Bool.and_eq_true, beq_iff_eq, decide_eq_true_eq] at hl hw
    exact requestToSend_chn (by bv_omega) hw.2
  · exact h

/-- What the timer handler makes of a channel record whose timer has just been disarmed (R148 to R151, R156, R158). -/
theorem timerBody_chn {ch : Chan} {s : State} (hl : (s.chn ch).legal = true) (hw : (s.chn ch).linesOk = true)
    (ht : (s.chn ch).timerArmed = false) : ChannelOk ((timerBody ch s).chn ch) := by
  have ab : ChannelOk ((abandon ch s).chn ch) := by
    constructor <;> simp [abandon, Channel.legal, Channel.linesOk]
  unfold timerBody
  split
  · rename_i e
    exact ⟨hl, by simp [ht, e], hw⟩
  · exact ab
  · rename_i e
    simp only [Channel.legal, Channel.linesOk, e, Bool.and_eq_true, beq_iff_eq, decide_eq_true_eq] at hl hw
    have hb : (s.chn ch).bitcnt = 0 := by bv_omega
    unfold gapExpiry
    split
    · exact requestToSend_chn hb hw.2
    · constructor <;> simp [Channel.legal, Channel.linesOk, hb, hw, ht]
  · rename_i e
    simp only [Channel.legal, Channel.linesOk, e, Bool.and_eq_true, beq_iff_eq, decide_eq_true_eq] at hl hw
    have hb : (s.chn ch).bitcnt = 0 := by bv_omega
    have hp : (s.pop (.tx ch)).2.chn ch = s.chn ch := by
      cases ch <;> rfl
    unfold startPulseExpiry
    split
    · constructor <;> simp [Channel.legal, Channel.linesOk]
    · rename_i e'
      rw [e'] at hp
      constructor <;> simp_all [Channel.legal, Channel.linesOk]
  · exact ab

end Sys2Proof.Machine
end

