-- ==== Sys2Proof/Laws/Engines.lean ====
section
/-! SUPPORT. The foreground computations between two micro-steps (spec/42_keyboard.md, 43_mouse.md): each touches only
`kb.*`, `ms.*` and the notifications, keeps them in order, and goes on with a micro-step that is in order. -/

namespace Sys2Proof.Machine

open Sys2Proof

/-! ## Bits -/

theorem setBit_high (m : Byte) (d : Bool) : ∀ i < 6, setBit m i d &&& 0xC0 = m &&& 0xC0 := by
  revert m d
  decide

theorem lock_high (m : Byte) (h : m &&& 0xF8 = 0) {b : Byte} (hb : b &&& 0xF8 = 0) : (m ^^^ b) &&& 0xF8 = 0 := by
  apply BitVec.eq_of_getLsbD_eq
  intro i hi
  have h1 := congrArg (fun v : Byte => v.getLsbD i) h
  have h2 := congrArg (fun v : Byte => v.getLsbD i) hb
  simp only [BitVec.getLsbD_and, BitVec.getLsbD_xor] at *
  revert h1 h2
  cases m.getLsbD i <;> cases b.getLsbD i <;> simp

theorem lockMask_high (m : Byte) : lockMask m &&& 0xF8 = 0 := by
  unfold lockMask
  rw [BitVec.and_assoc]
  exact BitVec.and_zero

theorem buttons_high (m : Byte) : buttons m &&& 0xF8 = 0 := lockMask_high m

/-! ## Keyboard -/

theorem KbOk.setMods {kb : Kb} (h : KbOk kb) {i : Nat} (hi : i < 6) (d : Bool) :
    KbOk { kb with mods := setBit kb.mods i d } :=
  ⟨by rw [setBit_high _ _ _ hi]; exact h.mods, h.locks⟩

theorem KbOk.clearPending {kb : Kb} (h : KbOk kb) : KbOk { kb with mods := Machine.clearPending kb.mods } :=
  (h.setMods (i := bitEXT) (by decide) false).setMods (i := bitBRK) (by decide) false

theorem KbOk.ofBreak {kb : Kb} (h : KbOk kb) (c : Byte) (e : Bool) : KbOk { kb with mods := breakMods kb.mods c e } := by
  unfold breakMods
  split
  · exact h.setMods (i := bitLSHIFT) (by decide) false
  · split
    · exact h.setMods (i := bitRSHIFT) (by decide) false
    · split
      · exact h.setMods (i := bitCTRL) (by decide) false
      · split
        · exact h.setMods (i := bitALTGR) (by decide) false
        · exact h

/-- A lock class toggles one of the three lock bits (R208). -/
theorem classify_lock {c : Byte} {e : Bool} {b : Byte} (h : classify c e = .lock b) : b &&& 0xF8 = 0 := by
  cases e
  · simp only [classify, Bool.false_eq_true, if_false, classifyPlain] at h
    repeat' split at h
    all_goals first | (cases h; rfl) | cases h
  · simp only [classify, if_true, classifyExtended] at h
    repeat' split at h
    all_goals cases h

theorem KbOk.ofMake {cfg : Cfg} {kb : Kb} (h : KbOk kb) (c : Byte) : KbOk (makeKey cfg kb c).2 := by
  unfold makeKey
  split
  · exact h
  · exact h.setMods (i := bitLSHIFT) (by decide) true
  · exact h.setMods (i := bitRSHIFT) (by decide) true
  · exact h.setMods (i := bitCTRL) (by decide) true
  · exact h.setMods (i := bitALTGR) (by decide) true
  · exact h
  · rename_i e
    exact ⟨h.mods, lock_high _ h.locks (classify_lock e)⟩
  all_goals exact h

/-- A decode step keeps the reserved bits 0 (R45, R46). -/
theorem KbOk.decodeByte {cfg : Cfg} {kb : Kb} (h : KbOk kb) (c : Byte) : KbOk (Machine.decodeByte cfg kb c).2 := by
  unfold Machine.decodeByte
  split
  · exact h.setMods (i := bitEXT) (by decide) true
  · split
    · exact h.setMods (i := bitBRK) (by decide) true
    · dsimp only
      split
      · exact (h.ofBreak c _).clearPending
      · exact (h.ofMake c).clearPending

/-! ## What a foreground computation does -/

/-- The micro-step a computation goes on with starts a queue operation anew, on a side the foreground owns (R44). -/
def Task.fresh : Task → Bool
  | .pop ph q _ => ph == .readW && q.isRx
  | .push ph q _ _ => ph == .readR && !q.isRx
  | .len _ _ | .now _ => true

/-- What a computation ends in is in order: no stop, and a fresh micro-step that is in order. -/
def Act.ok (s : State) : Act → Prop
  | .go t | .wait t => t.ok s ∧ t.fresh = true
  | .ret _ => True
  | .stop _ => False

/-- The engines of a state are in order. -/
structure EngOk (s : State) : Prop where
  kb : KbOk s.kb
  ms : MsOk s.cfg.policy s.ms

/-- A computation touches only the engines and the notifications, leaves them in order, and goes on in order. -/
structure Good (s : State) (r : Act × State) : Prop where
  frame : ∃ kb ms ns, r.2 = { s with kb := kb, ms := ms, notes := s.notes ++ ns }
  eng   : EngOk r.2
  act   : r.1.ok r.2

theorem Good.pure {s : State} (h : EngOk s) {a : Act} (ha : a.ok s) : Good s (a, s) :=
  ⟨⟨s.kb, s.ms, [], by simp⟩, h, ha⟩

/-- A change of the engines before the rest of a computation. -/
theorem Good.after {s t : State} {r : Act × State} (h : Good t r)
    (e : ∃ kb ms ns, t = { s with kb := kb, ms := ms, notes := s.notes ++ ns }) : Good s r where
  frame := by
    obtain ⟨kb, ms, ns, rfl⟩ := e
    obtain ⟨kb', ms', ns', e'⟩ := h.frame
    exact ⟨kb', ms', ns ++ ns', by rw [e']; simp⟩
  eng := h.eng
  act := h.act

theorem Good.ms {s : State} {r : Act × State} (f : Ms → Ms) (h : Good (s.setMs f) r) : Good s r :=
  h.after ⟨s.kb, f s.ms, [], by simp [State.setMs]⟩

theorem emitNext_ok (s : State) (ch : Chan) (bs : List Byte) (a : After)
    (h : pushKOk s.cfg.policy (.emit [] a) = true) : (emitNext ch bs a).ok s := by
  cases bs with
  | nil =>
    cases a with
    | ret | retNone => trivial
    | nextChar p => exact ⟨⟨rfl, trivial, .inl rfl⟩, rfl⟩
    | stamp t => exact ⟨h, rfl⟩
  | cons b bs =>
    refine ⟨⟨rfl, ?_, .inl rfl⟩, rfl⟩
    cases a <;> exact h

theorem charReturn_good {s : State} (h : EngOk s) (p : Bool) (o : Option Byte) : Good s (charReturn p o s) := by
  cases p <;> cases o <;>
    first
      | exact .pure h trivial
      | exact ⟨⟨_, s.ms, [], by simp [charReturn]; rfl⟩, ⟨⟨h.kb.mods, h.kb.locks⟩, h.ms⟩, trivial⟩

theorem resumeNextChar_good {s : State} (h : EngOk s) (p : Bool) (ob : Option Byte) :
    Good s (resumeNextChar p ob s) := by
  cases ob with
  | none => exact charReturn_good h p none
  | some c =>
    have hk : EngOk { s with kb := (decodeByte s.cfg s.kb c).2 } := ⟨h.kb.decodeByte c, h.ms⟩
    unfold resumeNextChar
    dsimp only
    refine Good.after (t := { s with kb := (decodeByte s.cfg s.kb c).2 }) ?_ ⟨_, s.ms, [], by simp; rfl⟩
    split
    · exact charReturn_good hk p _
    · exact .pure hk ⟨⟨rfl, trivial, .inl rfl⟩, rfl⟩
    · exact .pure hk (emitNext_ok _ _ _ _ rfl)

/-! ## Mouse -/

theorem EngOk.setMs {s : State} (h : EngOk s) {f : Ms → Ms} (hf : MsOk s.cfg.policy (f s.ms)) : EngOk (s.setMs f) :=
  ⟨h.kb, hf⟩

theorem zero_btns : Move.zero.btns &&& 0xF8 = 0 := by decide

theorem stageFits_U (p : Policy) : stageFits p .U = true := by cases p <;> rfl

theorem failWith_good {s : State} (h : EngOk s) (kind : Chan → Stage → Note) : Good s (failWith kind s) :=
  ⟨⟨s.kb, s.ms.failed, [kind .mouse s.ms.stage], rfl⟩, ⟨h.kb, ⟨stageFits_U _, zero_btns, zero_btns⟩⟩, trivial⟩

theorem sendBytes_ok (s : State) (bs : List Byte) {t : SendThen} (h : sendThenOk s.cfg.policy t = true) :
    (sendBytes bs t).ok s := emitNext_ok s .mouse bs _ h

theorem awaited_good {s : State} (h : EngOk s) (expected got next : List Byte) {st : Stage}
    (hs : stageFits s.cfg.policy st = true) : Good s (awaited expected got next st s) := by
  unfold awaited
  split
  · exact .pure h (sendBytes_ok s next hs)
  · exact failWith_good h _

theorem MsOk.setStage {p : Policy} {ms : Ms} (h : MsOk p ms) {st : Stage} (hs : stageFits p st = true) :
    MsOk p { ms with stage := st } := ⟨hs, h.btns, h.acc⟩

theorem identified_good {s : State} (h : EngOk s) (got : List Byte) : Good s (identified got s) := by
  unfold identified
  dsimp only
  split
  · exact failWith_good h _
  · generalize (if _ = REPLY_ID3 then PSize.four else PSize.three) = ps
    refine Good.ms (fun m => { m with psize := ps }) ?_
    have h1 : EngOk (s.setMs fun m => { m with psize := ps }) := h.setMs ⟨h.ms.stage, h.ms.btns, h.ms.acc⟩
    have hc : (s.setMs fun m => { m with psize := ps }).cfg = s.cfg := rfl
    split
    · rename_i e
      exact .pure h1 (sendBytes_ok _ _ (by rw [e]; rfl))
    · rename_i e
      exact Good.ms _ (.pure (h1.setMs (h1.ms.setStage (by rw [e]; rfl))) trivial)
    · rename_i e
      refine Good.ms _ (.pure (h1.setMs (h1.ms.setStage (by rw [e]; rfl))) (sendBytes_ok _ _ ?_))
      show stageFits s.cfg.policy .POLL = true
      rw [hc] at e
      rw [e]
      rfl

theorem enabled_good {s : State} (h : EngOk s) (got : List Byte) (hst : s.ms.stage = .ENA) :
    Good s (enabled got s) := by
  have hC : stageFits s.cfg.policy .STREAM = true := by
    have := h.ms.stage
    rw [hst] at this
    cases hp : s.cfg.policy <;> rw [hp] at this <;> first | rfl | cases this
  unfold enabled
  split
  · exact Good.ms _ (.pure (h.setMs ⟨hC, h.ms.btns, h.ms.acc⟩) ⟨hC, rfl⟩)
  · exact failWith_good h _

theorem replyComplete_good {s : State} (h : EngOk s) (got : List Byte) (hst : s.ms.stage.awaits = true) :
    Good s (replyComplete got s) := by
  unfold replyComplete
  have fits : ∀ st : Stage, st = .SR1 ∨ st = .SR2 ∨ st = .SR3 ∨ st = .ID → stageFits s.cfg.policy st = true := by
    rintro _ (rfl | rfl | rfl | rfl) <;> cases s.cfg.policy <;> rfl
  split
  · exact awaited_good h _ _ _ (fits _ (by simp))
  · exact awaited_good h _ _ _ (fits _ (by simp))
  · exact awaited_good h _ _ _ (fits _ (by simp))
  · exact awaited_good h _ _ _ (fits _ (by simp))
  · exact identified_good h got
  · rename_i e; exact enabled_good h got e
  all_goals rename_i e; rw [e] at hst; cases hst

theorem reportAB_good {s : State} (h : EngOk s) : Good s (reportAB s) := by
  have h1 : EngOk (s.setMs fun m => { m with acc := Move.zero }) := h.setMs ⟨h.ms.stage, h.ms.btns, zero_btns⟩
  unfold reportAB
  dsimp only
  refine Good.ms (fun m => { m with acc := Move.zero }) ?_
  split
  · exact Good.ms _ (.pure (h1.setMs ⟨h1.ms.stage, h.ms.acc, h1.ms.acc⟩) trivial)
  · exact .pure h1 trivial

theorem decodePacket_btns (ps : PSize) (pkt : List Byte) : (decodePacket ps pkt).btns &&& 0xF8 = 0 := buttons_high _

theorem packetComplete_good {s : State} (h : EngOk s) (pkt : List Byte) (hp : s.cfg.policy ≠ .C) :
    Good s (packetComplete pkt s) := by
  have h1 : EngOk (s.setMs fun m => { m with acc := decodePacket m.psize pkt }) :=
    h.setMs ⟨h.ms.stage, h.ms.btns, decodePacket_btns _ _⟩
  unfold packetComplete
  dsimp only
  refine Good.ms (fun m => { m with acc := decodePacket m.psize pkt }) ?_
  split
  · exact reportAB_good h1
  · exact .pure h1 (sendBytes_ok _ _ rfl)
  · rename_i e; exact absurd e hp

theorem drainNext_good {s : State} (h : EngOk s) (n : Nat) (t : DrainThen) : Good s (drainNext n t s) := by
  cases n with
  | succ n => exact .pure h ⟨⟨rfl, trivial, .inl rfl⟩, rfl⟩
  | zero =>
    cases t with
    | start => exact .pure h (sendBytes_ok _ _ (by cases hp : s.cfg.policy <;> rfl))
    | resync => exact .pure h ⟨rfl, rfl⟩

theorem streamCheck_good {s : State} (h : EngOk s) (L : Word32) : Good s (streamCheck L s) := by
  unfold streamCheck
  split
  · exact .pure h ⟨trivial, rfl⟩
  · split
    · exact .pure h trivial
    · exact .pure h ⟨rfl, rfl⟩

theorem streamReport_good {s : State} (h : EngOk s) : Good s (streamReport s) :=
  Good.ms _ (.pure (h.setMs ⟨h.ms.stage, h.ms.acc, zero_btns⟩) ⟨rfl, rfl⟩)

theorem psize_pos (ps : PSize) : 0 < ps.bytes := by cases ps <;> decide

/-- A packet that begins with the next pop, and `left` after it, all queued (R262). -/
theorem streamBegin_ok {s : State} {left : Nat} (hn : (left + 1) * s.ms.psize.bytes ≤ s.mouse.rx.len.toNat) :
    (beginPop rxMouse (.stream left [])).ok s :=
  ⟨⟨rfl, ⟨psize_pos _, by simpa using hn⟩, .inl rfl⟩, rfl⟩

theorem streamPacket_good {s : State} (h : EngOk s) {left : Nat} (pkt : List Byte)
    (hn : left * s.ms.psize.bytes ≤ s.mouse.rx.len.toNat) : Good s (streamPacket left pkt s) := by
  unfold streamPacket
  dsimp only
  refine Good.ms (fun m => { m with acc := m.acc.add (decodePacket s.ms.psize pkt) }) ?_
  have h1 : EngOk (s.setMs fun m => { m with acc := m.acc.add (decodePacket s.ms.psize pkt) }) :=
    h.setMs ⟨h.ms.stage, h.ms.btns, decodePacket_btns s.ms.psize pkt⟩
  cases left with
  | zero => exact streamReport_good h1
  | succ n =>
    dsimp only
    split
    · exact streamReport_good h1
    · exact .pure h1 (streamBegin_ok hn)

theorem replyLen_good {s : State} (h : EngOk s) {n : Word32} (hst : s.ms.stage.awaits = true)
    (hn : n = s.mouse.rx.len) : Good s (replyLen n s) := by
  unfold replyLen
  split
  · rename_i hl
    refine .pure h ⟨⟨rfl, ⟨hst, ?_, ?_⟩, .inl rfl⟩, rfl⟩
    · have : replyLength s.ms.stage ≠ 0 := by simpa [Stage.awaits] using hst
      simpa using Nat.pos_of_ne_zero this
    · rw [← hn]; simpa using hl
  · exact .pure h ⟨trivial, rfl⟩

theorem pollLen_good {s : State} (h : EngOk s) {n : Word32} (hp : s.cfg.policy ≠ .C)
    (hn : n = s.mouse.rx.len) : Good s (pollLen n s) := by
  unfold pollLen
  split
  · rename_i hl
    exact .pure h ⟨⟨rfl, ⟨hp, hn ▸ hl⟩, .inl rfl⟩, rfl⟩
  · exact .pure h ⟨hp, rfl⟩

theorem streamLen_good {s : State} (h : EngOk s) (n : Word32) : Good s (streamLen n s) := by
  unfold streamLen
  split
  · exact .pure h ⟨trivial, rfl⟩
  · exact streamCheck_good h n

theorem countLen_good {s : State} (h : EngOk s) {n : Word32} (hn : n = s.mouse.rx.len) : Good s (countLen n s) := by
  unfold countLen
  split
  · rename_i m e
    refine .pure h (streamBegin_ok ?_)
    rw [← hn, ← Nat.succ_eq_add_one, ← e]
    exact Nat.div_mul_le_self _ _
  · exact streamReport_good h

theorem sent_good {s : State} (h : EngOk s) {t : SendThen} (ht : sendThenOk s.cfg.policy t = true) :
    Good s (sent t s) := by
  cases t with
  | toStage st => exact Good.ms _ (.pure (h.setMs (h.ms.setStage ht)) trivial)
  | pollA => exact .pure h ⟨⟨rfl, by simpa [sendThenOk] using ht⟩, rfl⟩
  | reportB => exact reportAB_good h

theorem pollAck_good {s : State} (h : EngOk s) (a : Byte) (hp : s.cfg.policy ≠ .C)
    (hn : s.ms.psize.bytes ≤ s.mouse.rx.len.toNat) : Good s (pollAck a s) := by
  unfold pollAck
  split
  · exact failWith_good h _
  · exact .pure h ⟨⟨rfl, ⟨hp, psize_pos _, by simpa using hn⟩, .inl rfl⟩, rfl⟩

/-! ## After a read or a pop -/

/-- Going on after `now()`. -/
theorem resumeNow_good {s : State} (h : EngOk s) {k : NowK} (t : Word32) (hk : (Task.now k).ok s) :
    Good s (resumeNow k t s) := by
  have upd : ∀ l, EngOk (s.setMs fun m => { m with ts := t, lastLen := l }) := fun l =>
    h.setMs ⟨h.ms.stage, h.ms.btns, h.ms.acc⟩
  cases k with
  | stamp th => exact Good.ms _ (sent_good (h.setMs ⟨h.ms.stage, h.ms.btns, h.ms.acc⟩) hk)
  | replyDeadline =>
    unfold resumeNow
    dsimp only
    split
    · exact failWith_good h _
    · exact .pure h trivial
  | pollDeadline =>
    unfold resumeNow
    dsimp only
    split
    · exact failWith_good h _
    · split
      · rename_i e
        exact .pure h ⟨⟨rfl, hk⟩, rfl⟩
      · exact .pure h trivial
      · rename_i e
        exact absurd e hk
  | seen L => exact Good.ms _ (streamCheck_good (upd L) L)
  | resyncDeadline =>
    unfold resumeNow
    dsimp only
    split
    · exact .pure h ⟨rfl, rfl⟩
    · exact .pure h trivial
  | resynced => exact Good.ms _ (.pure (h.setMs ⟨h.ms.stage, h.ms.btns, h.ms.acc⟩) trivial)

/-- Going on after `len`, read now. -/
theorem resumeLen_good {s : State} (h : EngOk s) {q : QSel} {k : LenK} (hk : (Task.len q k).ok s) :
    Good s (resumeLen q k (s.queue q).len s) := by
  have q_eq : q = .rx .mouse → (s.queue q).len = s.mouse.rx.len := fun e => by rw [e]; rfl
  cases k with
  | ret => exact .pure h trivial
  | retFull => exact .pure h trivial
  | drain t => exact drainNext_good h _ t
  | reply => exact replyLen_good h hk.2 (q_eq hk.1)
  | poll => exact pollLen_good h hk.2 (q_eq hk.1)
  | stream => exact streamLen_good h _
  | count => exact countLen_good h (q_eq hk)
  | resynced => exact Good.ms _ (.pure (h.setMs ⟨h.ms.stage, h.ms.btns, h.ms.acc⟩) ⟨trivial, rfl⟩)
  | reported ev => exact Good.ms _ (.pure (h.setMs ⟨h.ms.stage, h.ms.btns, h.ms.acc⟩) trivial)

/-- Going on after a pop: before it `n` bytes were queued, the popped one among them. -/
theorem resumePop_good {s : State} (h : EngOk s) {k : PopK} {ob : Option Byte} {n : Nat}
    (hk : popKOk s.cfg.policy s.ms n k) (h0 : ob = none → n = 0)
    (h1 : ob.isSome = true → n ≤ s.mouse.rx.len.toNat + 1) : Good s (resumePop k ob s) := by
  cases k with
  | ret => exact .pure h trivial
  | nextChar p => exact resumeNextChar_good h p ob
  | drain m t => exact drainNext_good h m t
  | reply got =>
    obtain ⟨hst, hlt, hle⟩ := hk
    cases ob with
    | none => have := h0 rfl; omega
    | some b =>
      have hn := h1 rfl
      show Good s (collect _ got b .reply replyComplete s)
      unfold collect
      split
      · exact replyComplete_good h _ hst
      · rename_i hc
        refine .pure h ⟨⟨rfl, ⟨hst, by omega, ?_⟩, .inl rfl⟩, rfl⟩
        simp only [List.length_append, List.length_singleton]
        omega
  | pollAck =>
    obtain ⟨hp, hle⟩ := hk
    cases ob with
    | none => have := h0 rfl; omega
    | some b =>
      have hn := h1 rfl
      exact pollAck_good h b hp (by omega)
  | pollPkt got =>
    obtain ⟨hp, hlt, hle⟩ := hk
    cases ob with
    | none => have := h0 rfl; omega
    | some b =>
      have hn := h1 rfl
      show Good s (collect _ got b .pollPkt packetComplete s)
      unfold collect
      split
      · exact packetComplete_good h _ hp
      · rename_i hc
        refine .pure h ⟨⟨rfl, ⟨hp, by omega, ?_⟩, .inl rfl⟩, rfl⟩
        simp only [List.length_append, List.length_singleton]
        omega
  | stream left got =>
    obtain ⟨hlt, hle⟩ := hk
    have hpos := psize_pos s.ms.psize
    rw [Nat.add_mul, Nat.one_mul] at hle
    cases ob with
    | none => have := h0 rfl; omega
    | some b =>
      have hn := h1 rfl
      show Good s (collect _ got b (.stream left) (streamPacket left) s)
      unfold collect
      split
      · exact streamPacket_good h _ (by omega)
      · rename_i hc
        refine .pure h ⟨⟨rfl, ⟨by omega, ?_⟩, .inl rfl⟩, rfl⟩
        simp only [List.length_append, List.length_singleton]
        rw [Nat.add_mul, Nat.one_mul]
        omega

end Sys2Proof.Machine
end

