-- ==== Sys2Proof/Laws/Foreground.lean ====
section
/-! SUPPORT. Foreground operations: every micro-step and every completed queue operation keeps the state in order and
goes on in order (spec/20_memory.md R80, 60_exceptions.md R322), so an operation run without interruption returns or
waits, and never faults (00_scope.md R25). -/

namespace Sys2Proof.Machine

open Sys2Proof

/-! ## What keeps `BaseOk` -/

theorem BaseOk.eng {s : State} (h : BaseOk s) : EngOk s := ⟨h.kb, h.ms⟩

theorem BaseOk.good {s : State} (h : BaseOk s) {r : Act × State} (g : Good s r) : BaseOk r.2 := by
  obtain ⟨kb, ms, ns, e⟩ := g.frame
  have he := g.eng
  rw [e] at he ⊢
  refine ⟨h.built, h.cfg, fun ch => ?_, fun q => ?_, he.kb, he.ms⟩
  · cases ch
    · exact h.chn .kbd
    · exact h.chn .mouse
  · rcases q with c | c <;> cases c
    · exact h.queue (.rx .kbd)
    · exact h.queue (.rx .mouse)
    · exact h.queue (.tx .kbd)
    · exact h.queue (.tx .mouse)

theorem BaseOk.setQueue {s : State} (h : BaseOk s) {q : QSel} {v : Queue} (hv : QueueOk (capOf s.cfg q) v) :
    BaseOk (s.setQueue q v) := by
  have hc : (s.setQueue q v).cfg = s.cfg := by cases q <;> exact setPort_cfg _ _ _
  have hk : (s.setQueue q v).kb = s.kb := by cases q <;> exact setPort_kb _ _ _
  have hm : (s.setQueue q v).ms = s.ms := by cases q <;> exact setPort_ms _ _ _
  refine ⟨?_, by rw [hc]; exact h.cfg, fun ch => by rw [chn_setQueue]; exact h.chn ch, fun q' => ?_,
    by rw [hk]; exact h.kb, by rw [hm, hc]; exact h.ms⟩
  · cases q <;> exact (setPort_built _ _ _).trans h.built
  · rw [hc]
    by_cases e : q' = q
    · subst e
      rw [queue_setQueue]
      exact hv
    · rw [queue_setQueue_ne _ _ e]
      exact h.queue q'

theorem BaseOk.kickFor {s : State} (h : BaseOk s) (q : QSel) : BaseOk (s.kickFor q) := by
  cases q with
  | rx ch => exact h
  | tx ch =>
    refine ⟨?_, ?_, fun c => ?_, fun q => ?_, ?_, ?_⟩
    · cases ch <;> exact h.built
    · cases ch <;> exact h.cfg
    · cases ch <;> cases c <;> first | exact h.chn .kbd | exact h.chn .mouse
    · cases ch <;> rcases q with c | c <;> cases c <;>
        first
          | exact h.queue (.rx .kbd)
          | exact h.queue (.rx .mouse)
          | exact h.queue (.tx .kbd)
          | exact h.queue (.tx .mouse)
    · cases ch <;> exact h.kb
    · cases ch <;> exact h.ms

theorem BaseOk.ofFields {s t : State} (h : BaseOk s) (hb : t.built = s.built) (hc : t.cfg = s.cfg)
    (hk : t.kbd = s.kbd) (hm : t.mouse = s.mouse) (hkb : t.kb = s.kb) (hms : t.ms = s.ms) : BaseOk t := by
  refine ⟨hb ▸ h.built, hc ▸ h.cfg, fun ch => ?_, fun q => ?_, hkb ▸ h.kb, ?_⟩
  · cases ch
    · show ChannelOk t.kbd.chn
      rw [hk]; exact h.chn .kbd
    · show ChannelOk t.mouse.chn
      rw [hm]; exact h.chn .mouse
  · rw [hc]
    rcases q with c | c <;> cases c
    · show QueueOk _ t.kbd.rx
      rw [hk]; exact h.queue (.rx .kbd)
    · show QueueOk _ t.mouse.rx
      rw [hm]; exact h.queue (.rx .mouse)
    · show QueueOk _ t.kbd.tx
      rw [hk]; exact h.queue (.tx .kbd)
    · show QueueOk _ t.mouse.tx
      rw [hm]; exact h.queue (.tx .mouse)
  · rw [hc, hms]; exact h.ms

theorem BaseOk.readNow {s : State} (h : BaseOk s) : BaseOk s.readNow.2 := by
  unfold State.readNow
  split <;> exact h.ofFields rfl rfl rfl rfl rfl rfl

/-! ## Micro-steps and completed queue operations -/

/-- What a computation ends in is in order; its micro-step may be any of an operation's. -/
def Act.inOrder (s : State) : Act → Prop
  | .go t | .wait t => t.ok s
  | .ret _ => True
  | .stop _ => False

theorem Act.ok.inOrder {s : State} {a : Act} (h : a.ok s) : a.inOrder s := by
  cases a <;> first | exact h.1 | exact h

/-- In order: the state and what goes on. -/
def OkNext (r : Act × State) : Prop := BaseOk r.2 ∧ r.1.inOrder r.2

theorem OkNext.ofGood {s : State} (h : BaseOk s) {r : Act × State} (g : Good s r) : OkNext r :=
  ⟨h.good g, g.act.inOrder⟩

theorem resumePush_ok {s : State} (h : BaseOk s) {q : QSel} {b : Byte} {k : PushK} {ok : Bool}
    (hq : q.isRx = false) (hk : pushKOk s.cfg.policy k = true) : OkNext (resumePush q b k ok s) := by
  cases k with
  | ret => exact ⟨h, trivial⟩
  | emit rest after =>
    cases q with
    | rx ch => cases hq
    | tx ch =>
      unfold resumePush
      cases ok
      · refine ⟨h.kickFor (.tx ch), ⟨rfl, ?_, .inl rfl⟩⟩
        have : ((s.kickFor (.tx ch)).cfg) = s.cfg := by cases ch <;> rfl
        show pushKOk (s.kickFor (.tx ch)).cfg.policy _ = true
        rw [this]
        exact hk
      · refine ⟨h, (emitNext_ok s _ _ _ ?_).inOrder⟩
        cases after <;> exact hk

/-- A pop's queue belongs to a receive side. -/
theorem popQueue_rx {q : QSel} {k : PopK} (h : popQueueOk q k = true) : ∃ ch, q = .rx ch := by
  cases q with
  | rx ch => exact ⟨ch, rfl⟩
  | tx ch => cases k <;> simp [popQueueOk, QSel.isRx] at h

/-- The pop of an empty queue goes on in order. -/
theorem resumePop_empty {s : State} (h : BaseOk s) {q : QSel} {k : PopK} (hq : popQueueOk q k = true)
    (hk : popKOk s.cfg.policy s.ms s.mouse.rx.len.toNat k) (he : (s.queue q).w = (s.queue q).r) :
    OkNext (resumePop k none s) := by
  refine .ofGood h ?_
  by_cases hm : q = .rx .mouse
  · refine resumePop_good h.eng hk (fun _ => ?_) (fun e => by cases e)
    rw [hm] at he
    exact len_eq_zero.2 he
  · refine resumePop_good h.eng (n := 0) ?_ (fun _ => rfl) (fun e => by cases e)
    cases k <;> simp_all [popQueueOk, popKOk]

/-- The pop of a byte goes on in order. -/
theorem resumePop_byte {s : State} (h : BaseOk s) {q : QSel} {k : PopK} (b : Byte) (hq : popQueueOk q k = true)
    (hk : popKOk s.cfg.policy s.ms s.mouse.rx.len.toNat k) (hne : (s.queue q).w ≠ (s.queue q).r) :
    OkNext (resumePop k (some b) (s.setQueue q (s.queue q).publishR)) := by
  have hb : BaseOk (s.setQueue q (s.queue q).publishR) := h.setQueue ((h.queue q).publishR hne)
  refine .ofGood hb ?_
  have hc : (s.setQueue q (s.queue q).publishR).cfg = s.cfg := by cases q <;> exact setPort_cfg _ _ _
  have hms : (s.setQueue q (s.queue q).publishR).ms = s.ms := by cases q <;> exact setPort_ms _ _ _
  by_cases hm : q = .rx .mouse
  · refine resumePop_good hb.eng (by rw [hc, hms]; exact hk) (fun e => by cases e) (fun _ => ?_)
    subst hm
    have := len_publishR hne
    show s.mouse.rx.len.toNat ≤ (s.mouse.rx.publishR).len.toNat + 1
    simp only [queue_rx, port_mouse] at this hne
    have h0 : s.mouse.rx.len.toNat ≠ 0 := fun e => hne (len_eq_zero.1 e)
    omega
  · refine resumePop_good hb.eng (n := 0) ?_ (fun _ => rfl) (fun _ => by omega)
    cases k <;> simp_all [popQueueOk, popKOk]

theorem publishPush_ok {s : State} (h : BaseOk s) {q : QSel} (hf : (s.queue q).isFull = false) :
    BaseOk (s.publishPush q) :=
  (h.setQueue ((h.queue q).publishW hf)).kickFor q

theorem publishPush_cfg (s : State) (q : QSel) : (s.publishPush q).cfg = s.cfg := by
  rcases q with c | c <;> cases c <;> rfl

/-- One micro-step keeps everything in order. -/
theorem micro_ok {s : State} (h : BaseOk s) {t : Task} (ht : t.ok s) : OkNext (t.micro s) := by
  cases t with
  | len q k => exact .ofGood h (resumeLen_good h.eng ht)
  | now k =>
    have hr : (Task.now k).ok s.readNow.2 := by
      cases k <;> first | trivial | exact ht | (simp only [Task.ok, readNow_cfg]; exact ht)
    exact .ofGood h.readNow (resumeNow_good h.readNow.eng _ hr)
  | pop ph q k =>
    obtain ⟨hq, hk, hn⟩ := ht
    cases ph with
    | readW =>
      show OkNext (popMicro .readW q k s)
      unfold popMicro
      dsimp only
      split
      · rename_i e; exact resumePop_empty h hq hk e
      · rename_i e; exact ⟨h, hq, hk, .inr e⟩
    | readSlot => exact ⟨h, hq, hk, hn.imp (by intro e; cases e) id⟩
    | publish b => exact resumePop_byte h b hq hk (hn.resolve_left (by intro e; cases e))
  | push ph q b k =>
    obtain ⟨hq, hk, hf⟩ := ht
    cases ph with
    | readR =>
      show OkNext (pushMicro .readR q b k s)
      unfold pushMicro
      dsimp only
      split
      · exact resumePush_ok h hq hk
      · rename_i e; exact ⟨h, hq, hk, .inr (by simpa using e)⟩
    | writeSlot =>
      refine ⟨h.setQueue ((h.queue q).writeSlot b), hq, ?_, .inr ?_⟩
      · show pushKOk (s.setQueue q _).cfg.policy k = true
        rw [show (s.setQueue q _).cfg = s.cfg from by cases q <;> exact setPort_cfg _ _ _]
        exact hk
      · show ((s.setQueue q ((s.queue q).writeSlot b)).queue q).isFull = false
        rw [queue_setQueue, isFull_writeSlot]
        exact hf.resolve_left (by intro e; cases e)
    | publish =>
      have hf := hf.resolve_left (by intro e; cases e)
      exact resumePush_ok (publishPush_ok h hf) hq (by rw [publishPush_cfg]; exact hk)

/-- A queue operation completed without interruption keeps everything in order. -/
theorem complete_ok {s : State} (h : BaseOk s) {t : Task} (ht : t.ok s) : OkNext (t.complete s) := by
  cases t with
  | len q k => exact micro_ok (t := .len q k) h ht
  | now k => exact micro_ok (t := .now k) h ht
  | pop ph q k =>
    obtain ⟨hq, hk, hn⟩ := ht
    cases ph with
    | readW =>
      show OkNext (resumePop k (s.queue q).pop.1 (s.setQueue q (s.queue q).pop.2))
      unfold Queue.pop
      split
      · rename_i e
        rw [setQueue_queue]
        exact resumePop_empty h hq hk e
      · rename_i e; exact resumePop_byte h _ hq hk e
    | readSlot => exact resumePop_byte h _ hq hk (hn.resolve_left (by intro e; cases e))
    | publish b => exact resumePop_byte h b hq hk (hn.resolve_left (by intro e; cases e))
  | push ph q b k =>
    obtain ⟨hq, hk, hf⟩ := ht
    have room : (s.queue q).isFull = false →
        OkNext (resumePush q b k true ((s.setQueue q ((s.queue q).writeSlot b)).publishPush q)) := by
      intro hf
      have h1 := h.setQueue ((h.queue q).writeSlot b)
      refine resumePush_ok (publishPush_ok h1 ?_) hq ?_
      · rw [queue_setQueue, isFull_writeSlot]
        exact hf
      · rw [publishPush_cfg, show (s.setQueue q _).cfg = s.cfg from by cases q <;> exact setPort_cfg _ _ _]
        exact hk
    cases ph with
    | readR =>
      show OkNext (resumePush q b k (s.push q b).1 (s.push q b).2)
      unfold State.push
      split
      · exact resumePush_ok h hq hk
      · rename_i e; exact room (by simpa using e)
    | writeSlot => exact room (hf.resolve_left (by intro e; cases e))
    | publish =>
      have hf := hf.resolve_left (by intro e; cases e)
      exact resumePush_ok (publishPush_ok h hf) hq (by rw [publishPush_cfg]; exact hk)

/-! ## Whole operations -/

/-- What is in order stays so when only the model's own fields differ. -/
theorem Task.ok.ofFields {s t : State} {k : Task} (h : k.ok s) (hc : t.cfg = s.cfg)
    (hk : t.kbd = s.kbd) (hm : t.mouse = s.mouse) (hms : t.ms = s.ms) : k.ok t := by
  have hq : ∀ q, t.queue q = s.queue q := by
    intro q
    rcases q with c | c <;> cases c <;> simp [hk, hm]
  cases k with
  | len q k => cases k <;> first | exact h | (simp only [Task.ok, hc, hms]; exact h)
  | pop ph q k =>
    obtain ⟨h1, h2, h3⟩ := h
    exact ⟨h1, by rw [hc, hms, hm]; exact h2, by rw [hq]; exact h3⟩
  | push ph q b k =>
    obtain ⟨h1, h2, h3⟩ := h
    exact ⟨h1, by rw [hc]; exact h2, by rw [hq]; exact h3⟩
  | now k => cases k <;> first | exact h | (simp only [Task.ok, hc]; exact h)

theorem paused_inv {s : State} (h : BaseOk s) {t : Task} (ht : t.ok s) : StateOk (s.paused t) :=
  ⟨h.ofFields rfl rfl rfl rfl rfl rfl, fun _ e => by cases e; exact ht.ofFields rfl rfl rfl rfl⟩

theorem returns_inv {s : State} (h : BaseOk s) (r : Ret) : StateOk (s.returns r) :=
  ⟨h.ofFields rfl rfl rfl rfl rfl rfl, fun _ e => by cases e⟩

/-- An operation in progress, run without interruption, ends in a next state that is in order. -/
theorem runTask_inv (fuel : Nat) {s : State} (h : BaseOk s) {t : Task} (ht : t.ok s) :
    ∃ u, runTask fuel t s = .next u ∧ StateOk u := by
  induction fuel generalizing t s with
  | zero => exact ⟨_, rfl, paused_inv h ht⟩
  | succ fuel ih =>
    have hc := complete_ok h ht
    unfold runTask
    revert hc
    rcases t.complete s with ⟨a, u⟩
    intro ⟨hb, ha⟩
    cases a with
    | go t' => exact ih hb ha
    | wait t' => exact ⟨_, rfl, paused_inv hb ha⟩
    | ret r => exact ⟨_, rfl, returns_inv hb r⟩
    | stop f => exact ha.elim

theorem runAct_inv (fuel : Nat) {r : Act × State} (h : OkNext r) : ∃ u, runAct fuel r = .next u ∧ StateOk u := by
  rcases r with ⟨a, u⟩
  obtain ⟨hb, ha⟩ := h
  cases a with
  | go t' => exact runTask_inv fuel hb ha
  | wait t' => exact ⟨_, rfl, paused_inv hb ha⟩
  | ret r => exact ⟨_, rfl, returns_inv hb r⟩
  | stop f => exact ha.elim

theorem settleAct_inv {r : Act × State} (h : OkNext r) : ∃ u, settleAct r = .next u ∧ StateOk u := by
  rcases r with ⟨a, u⟩
  obtain ⟨hb, ha⟩ := h
  cases a with
  | go t' => exact ⟨_, rfl, paused_inv hb ha⟩
  | wait t' => exact ⟨_, rfl, paused_inv hb ha⟩
  | ret r => exact ⟨_, rfl, returns_inv hb r⟩
  | stop f => exact ha.elim

/-- Every operation starts in order. -/
theorem begin_good {s : State} (h : EngOk s) (op : FgOp) : Good s (op.begin s) := by
  have emit : ∀ ch bs a, pushKOk s.cfg.policy (.emit [] a) = true → Good s (emitNext ch bs a, s) :=
    fun ch bs a ha => .pure h (emitNext_ok s ch bs a ha)
  cases op with
  | popRx ch => exact .pure h ⟨⟨rfl, trivial, .inl rfl⟩, rfl⟩
  | len q => exact .pure h ⟨trivial, rfl⟩
  | full q => exact .pure h ⟨trivial, rfl⟩
  | pushTx ch b => exact .pure h ⟨⟨rfl, rfl, .inl rfl⟩, rfl⟩
  | emit ch b => exact emit ch [b] .ret rfl
  | getScancode => exact .pure h ⟨⟨rfl, trivial, .inl rfl⟩, rfl⟩
  | keyPeek =>
    show Good s (beginKeyPeek s)
    unfold beginKeyPeek
    split
    · exact .pure h trivial
    · exact .pure h ⟨⟨rfl, trivial, .inl rfl⟩, rfl⟩
  | getKey =>
    show Good s (beginGetKey s)
    unfold beginGetKey
    split
    · exact ⟨⟨_, s.ms, [], by simp; rfl⟩, ⟨⟨h.kb.mods, h.kb.locks⟩, h.ms⟩, trivial⟩
    · exact .pure h ⟨⟨rfl, trivial, .inl rfl⟩, rfl⟩
  | lockStatus => exact .pure h trivial
  | ctrlStatus => exact .pure h trivial
  | setLocks m =>
    exact ⟨⟨{ s.kb with locks := lockMask m }, s.ms, [], by simp [FgOp.begin, beginSetLocks]⟩,
      ⟨⟨h.kb.mods, lockMask_high m⟩, h.ms⟩, emitNext_ok _ .kbd [CMD_SET_LEDS, lockMask m] .ret rfl⟩
  | getMove =>
    show Good s (beginGetMove s)
    unfold beginGetMove
    have hst := h.ms.stage
    cases e : s.ms.stage <;> dsimp only <;> rw [e] at hst
    · exact .pure h ⟨rfl, rfl⟩
    · exact .pure h ⟨⟨rfl, by rw [e]; rfl⟩, rfl⟩
    · exact .pure h ⟨⟨rfl, by rw [e]; rfl⟩, rfl⟩
    · exact .pure h ⟨⟨rfl, by rw [e]; rfl⟩, rfl⟩
    · exact .pure h ⟨⟨rfl, by rw [e]; rfl⟩, rfl⟩
    · exact .pure h ⟨⟨rfl, by rw [e]; rfl⟩, rfl⟩
    · exact .pure h ⟨⟨rfl, by rw [e]; rfl⟩, rfl⟩
    · cases hp : s.cfg.policy <;> dsimp only <;> rw [hp] at hst
      · exact .pure h (sendBytes_ok _ _ (by rw [hp]; rfl))
      · exact .pure h ⟨⟨rfl, by rw [hp]; decide⟩, rfl⟩
      · cases hst
    · exact .pure h ⟨rfl, rfl⟩
  | decodeByte c =>
    show Good s (beginDecodeByte c s)
    have hk : EngOk { s with kb := (decodeByte s.cfg s.kb c).2 } := ⟨h.kb.decodeByte c, h.ms⟩
    unfold beginDecodeByte
    dsimp only
    refine Good.after (t := { s with kb := (decodeByte s.cfg s.kb c).2 }) ?_ ⟨_, s.ms, [], by simp; rfl⟩
    split
    · exact .pure hk trivial
    · exact .pure hk trivial
    · exact .pure hk (emitNext_ok _ _ _ _ rfl)

/-- A called operation returns, waits, or is held: a next state in order. -/
theorem callOp_inv {s : State} (h : StateOk s) (op : FgOp) : ∃ u, callOp op s = .next u ∧ StateOk u := by
  unfold callOp
  split
  · have hb : BaseOk s.called := h.base.ofFields rfl rfl rfl rfl rfl rfl
    exact runAct_inv _ (.ofGood hb (begin_good hb.eng op))
  · exact ⟨_, rfl, h.base.ofFields rfl rfl rfl rfl rfl rfl, fun t e => (h.fg t e).ofFields rfl rfl rfl rfl⟩

theorem fgTurn_inv {s : State} (h : StateOk s) : ∃ u, fgTurn s = .next u ∧ StateOk u := by
  unfold fgTurn
  split
  · rename_i t e; exact runTask_inv _ h.base (h.fg t e)
  · split
    · exact ⟨s, rfl, h⟩
    · have hb : ∀ l n, BaseOk (State.beginCall { s with calls := l } n) :=
        fun l n => h.base.ofFields rfl rfl rfl rfl rfl rfl
      exact runAct_inv _ (.ofGood (hb _ _) (begin_good (hb _ _).eng _))

theorem fgMicro_inv {s : State} (h : StateOk s) : ∃ u, fgMicro s = .next u ∧ StateOk u := by
  unfold fgMicro
  split
  · rename_i t e; exact settleAct_inv (micro_ok h.base (h.fg t e))
  · split
    · exact ⟨s, rfl, h⟩
    · have hb : ∀ l n, BaseOk (State.beginCall { s with calls := l } n) :=
        fun l n => h.base.ofFields rfl rfl rfl rfl rfl rfl
      exact settleAct_inv (.ofGood (hb _ _) (begin_good (hb _ _).eng _))

end Sys2Proof.Machine
end

