-- ==== Sys2Proof/Laws/Frames.lean ====
section
/-! SUPPORT. What a foreground operation leaves alone (spec/60_exceptions.md R325, 10_state.md R41, R50, R51), in every
state. -/

namespace Sys2Proof.Machine

open Sys2Proof

/-- A computation goes on with a fresh micro-step, or ends. -/
def Act.fresh : Act → Bool
  | .go t | .wait t => t.fresh
  | .ret _ | .stop _ => true

/-- A computation touches only the engines and the notifications, and goes on with a fresh micro-step. -/
def Light (s : State) (r : Act × State) : Prop :=
  (∃ kb ms ns, r.2 = { s with kb := kb, ms := ms, notes := s.notes ++ ns }) ∧ r.1.fresh = true

theorem Light.pure {s : State} {a : Act} (ha : a.fresh = true) : Light s (a, s) :=
  ⟨⟨s.kb, s.ms, [], by simp⟩, ha⟩

theorem Light.after {s t : State} {r : Act × State} (h : Light t r)
    (e : ∃ kb ms ns, t = { s with kb := kb, ms := ms, notes := s.notes ++ ns }) : Light s r := by
  obtain ⟨kb, ms, ns, rfl⟩ := e
  obtain ⟨⟨kb', ms', ns', e'⟩, hf⟩ := h
  exact ⟨⟨kb', ms', ns ++ ns', by rw [e']; simp⟩, hf⟩

theorem Light.ms {s : State} {r : Act × State} (f : Ms → Ms) (h : Light (s.setMs f) r) : Light s r :=
  h.after ⟨s.kb, f s.ms, [], by simp [State.setMs]⟩

theorem Light.kb {s : State} {r : Act × State} (k : Kb) (h : Light { s with kb := k } r) : Light s r :=
  h.after ⟨k, s.ms, [], by simp⟩

theorem emitNext_fresh (ch : Chan) (bs : List Byte) (a : After) : (emitNext ch bs a).fresh = true := by
  cases bs <;> cases a <;> rfl

theorem failWith_light (s : State) (kind : Chan → Stage → Note) : Light s (failWith kind s) :=
  ⟨⟨s.kb, s.ms.failed, [kind .mouse s.ms.stage], rfl⟩, rfl⟩

theorem charReturn_light (s : State) (p : Bool) (o : Option Byte) : Light s (charReturn p o s) := by
  cases p with
  | false => exact .pure rfl
  | true =>
    cases o with
    | none => exact .pure rfl
    | some v => exact .kb { s.kb with cache := v, cacheValid := true } (.pure rfl)

theorem resumeNextChar_light (s : State) (p : Bool) (ob : Option Byte) : Light s (resumeNextChar p ob s) := by
  cases ob with
  | none => exact charReturn_light s p none
  | some c =>
    refine Light.kb (decodeByte s.cfg s.kb c).2 ?_
    unfold resumeNextChar
    dsimp only
    split
    · exact charReturn_light _ _ _
    · exact .pure rfl
    · exact .pure (emitNext_fresh _ _ _)

theorem awaited_light (s : State) (e g n : List Byte) (st : Stage) : Light s (awaited e g n st s) := by
  unfold awaited
  split
  · exact .pure (emitNext_fresh _ _ _)
  · exact failWith_light s _

theorem replyComplete_light (s : State) (got : List Byte) : Light s (replyComplete got s) := by
  unfold replyComplete
  split
  · exact awaited_light ..
  · exact awaited_light ..
  · exact awaited_light ..
  · exact awaited_light ..
  · unfold identified
    dsimp only
    split
    · exact failWith_light s _
    · generalize (if _ = REPLY_ID3 then PSize.four else PSize.three) = ps
      refine Light.ms (fun m => { m with psize := ps }) ?_
      split
      · exact .pure rfl
      · exact Light.ms _ (.pure rfl)
      · exact Light.ms _ (.pure rfl)
  · unfold enabled
    split
    · exact Light.ms _ (.pure rfl)
    · exact failWith_light s _
  all_goals exact .pure rfl

theorem reportAB_light (s : State) : Light s (reportAB s) := by
  unfold reportAB
  dsimp only
  refine Light.ms (fun m => { m with acc := Move.zero }) ?_
  split
  · exact Light.ms _ (.pure rfl)
  · exact .pure rfl

theorem packetComplete_light (s : State) (pkt : List Byte) : Light s (packetComplete pkt s) := by
  unfold packetComplete
  dsimp only
  refine Light.ms (fun m => { m with acc := decodePacket m.psize pkt }) ?_
  split
  · exact reportAB_light _
  · exact .pure rfl
  · exact .pure rfl

theorem drainNext_light (s : State) (n : Nat) (t : DrainThen) : Light s (drainNext n t s) := by
  cases n <;> cases t <;> exact .pure rfl

theorem streamCheck_light (s : State) (L : Word32) : Light s (streamCheck L s) := by
  unfold streamCheck
  split
  · exact .pure rfl
  · split <;> exact .pure rfl

theorem streamReport_light (s : State) : Light s (streamReport s) := Light.ms _ (.pure rfl)

theorem streamPacket_light (s : State) (left : Nat) (pkt : List Byte) : Light s (streamPacket left pkt s) := by
  unfold streamPacket
  dsimp only
  refine Light.ms (fun m => { m with acc := m.acc.add (decodePacket s.ms.psize pkt) }) ?_
  cases left with
  | zero => exact streamReport_light _
  | succ n =>
    dsimp only
    split
    · exact streamReport_light _
    · exact .pure rfl

theorem sent_light (s : State) (t : SendThen) : Light s (sent t s) := by
  cases t with
  | reportB => exact reportAB_light s
  | toStage st => exact Light.ms _ (.pure rfl)
  | pollA => exact .pure rfl

theorem collect_light {s : State} {want : Nat} {got : List Byte} {b : Byte} {more : List Byte → PopK}
    {done : List Byte → State → Act × State} (h : ∀ g, Light s (done g s)) :
    Light s (collect want got b more done s) := by
  unfold collect
  split
  · exact h _
  · exact .pure rfl

theorem resumePop_light (s : State) (k : PopK) (ob : Option Byte) : Light s (resumePop k ob s) := by
  cases k with
  | ret => exact .pure rfl
  | nextChar p => exact resumeNextChar_light s p ob
  | drain n t => exact drainNext_light s n t
  | reply got =>
    cases ob with
    | none => exact .pure rfl
    | some b => exact collect_light (replyComplete_light s)
  | pollAck =>
    cases ob with
    | none => exact .pure rfl
    | some b =>
      show Light s (pollAck b s)
      unfold pollAck
      split
      · exact failWith_light s _
      · exact .pure rfl
  | pollPkt got =>
    cases ob with
    | none => exact .pure rfl
    | some b => exact collect_light (packetComplete_light s)
  | stream left got =>
    cases ob with
    | none => exact .pure rfl
    | some b => exact collect_light (streamPacket_light s left)

theorem resumeLen_light (s : State) (q : QSel) (k : LenK) (n : Word32) : Light s (resumeLen q k n s) := by
  cases k with
  | ret | retFull => exact .pure rfl
  | drain t => exact drainNext_light s _ t
  | reply => show Light s (replyLen n s); unfold replyLen; split <;> exact .pure rfl
  | poll => show Light s (pollLen n s); unfold pollLen; split <;> exact .pure rfl
  | stream =>
    show Light s (streamLen n s)
    unfold streamLen
    split
    · exact .pure rfl
    · exact streamCheck_light s n
  | count =>
    show Light s (countLen n s)
    unfold countLen
    split
    · exact .pure rfl
    · exact streamReport_light s
  | resynced | reported ev => exact Light.ms _ (.pure rfl)

theorem resumeNow_light (s : State) (k : NowK) (t : Word32) : Light s (resumeNow k t s) := by
  cases k with
  | stamp th => exact Light.ms _ (sent_light _ th)
  | replyDeadline =>
    unfold resumeNow
    dsimp only
    split
    · exact failWith_light s _
    · exact .pure rfl
  | pollDeadline =>
    unfold resumeNow
    dsimp only
    split
    · exact failWith_light s _
    · split <;> exact .pure rfl
  | seen L => exact Light.ms _ (streamCheck_light _ L)
  | resyncDeadline =>
    unfold resumeNow
    dsimp only
    split <;> exact .pure rfl
  | resynced => exact Light.ms _ (.pure rfl)

theorem begin_light (s : State) (op : FgOp) : Light s (op.begin s) := by
  cases op with
  | keyPeek => show Light s (beginKeyPeek s); unfold beginKeyPeek; split <;> exact .pure rfl
  | getKey =>
    show Light s (beginGetKey s)
    unfold beginGetKey
    split
    · exact .kb _ (.pure rfl)
    · exact .pure rfl
  | setLocks m => exact .kb _ (.pure rfl)
  | getMove =>
    show Light s (beginGetMove s)
    unfold beginGetMove
    split
    all_goals first | exact .pure rfl | (split <;> exact .pure rfl)
  | decodeByte c =>
    refine Light.kb (decodeByte s.cfg s.kb c).2 ?_
    show Light _ (beginDecodeByte c s)
    unfold beginDecodeByte
    dsimp only
    split <;> exact .pure rfl
  | popRx ch | len q | full q | pushTx ch b | emit ch b | getScancode | lockStatus | ctrlStatus =>
    exact .pure rfl

/-! ## `FgWrites` -/

theorem FgWrites.refl (s : State) : FgWrites s s where
  cfg := rfl
  built := rfl
  chn _ := rfl
  rx _ := ⟨0, rfl⟩
  tx _ := ⟨[], rfl⟩
  kick _ h := h
  rets := ⟨[], by simp⟩
  notes := ⟨[], by simp⟩
  wire := rfl
  isrRets := rfl
  tape := rfl

theorem FgWrites.trans {s t u : State} (h : FgWrites s t) (h' : FgWrites t u) : FgWrites s u where
  cfg := h'.cfg.trans h.cfg
  built := h'.built.trans h.built
  chn ch := (h'.chn ch).trans (h.chn ch)
  rx ch := by
    obtain ⟨m, e⟩ := h.rx ch
    obtain ⟨n, e'⟩ := h'.rx ch
    exact ⟨m + n, by rw [e', e, popN_add]⟩
  tx ch := by
    obtain ⟨as, e⟩ := h.tx ch
    obtain ⟨bs, e'⟩ := h'.tx ch
    exact ⟨as ++ bs, by rw [e', e, pushAll_append]⟩
  kick ch k := h'.kick ch (h.kick ch k)
  rets := by
    obtain ⟨as, e⟩ := h.rets
    obtain ⟨bs, e'⟩ := h'.rets
    exact ⟨as ++ bs, by rw [e', e, List.append_assoc]⟩
  notes := by
    obtain ⟨as, e⟩ := h.notes
    obtain ⟨bs, e'⟩ := h'.notes
    exact ⟨as ++ bs, by rw [e', e, List.append_assoc]⟩
  wire := h'.wire.trans h.wire
  isrRets := h'.isrRets.trans h.isrRets
  tape := h'.tape.trans h.tape

/-- Nothing but the engines, the model's own foreground fields and the foreground's traces changes. -/
theorem FgWrites.own {s t : State} (hc : t.cfg = s.cfg) (hb : t.built = s.built) (hk : t.kbd = s.kbd)
    (hm : t.mouse = s.mouse) (hr : ∃ rs, t.rets = s.rets ++ rs) (hn : ∃ ns, t.notes = s.notes ++ ns)
    (hw : t.wire = s.wire) (hi : t.isrRets = s.isrRets) (ht : t.tape = s.tape) : FgWrites s t where
  cfg := hc
  built := hb
  chn ch := by cases ch <;> simp [hk, hm]
  rx ch := ⟨0, by cases ch <;> simp [hk, hm] <;> rfl⟩
  tx ch := ⟨[], by cases ch <;> simp [hk, hm] <;> rfl⟩
  kick ch h := by cases ch <;> simpa [hk, hm] using h
  rets := hr
  notes := hn
  wire := hw
  isrRets := hi
  tape := ht

theorem Light.writes {s : State} {r : Act × State} (h : Light s r) : FgWrites s r.2 := by
  obtain ⟨⟨kb, ms, ns, e⟩, _⟩ := h
  rw [e]
  exact .own rfl rfl rfl rfl ⟨[], by simp⟩ ⟨ns, rfl⟩ rfl rfl rfl

theorem readNow_writes (s : State) : FgWrites s s.readNow.2 :=
  .own (by simp) (by simp) (by simp) (by simp) ⟨[], by simp⟩ ⟨[], by simp⟩ (by simp) (by simp) (by simp)

theorem setPort_fgWrites (s : State) (ch : Chan) (p : Port) (hc : p.chn = (s.port ch).chn)
    (hr : ∃ n, p.rx = (s.port ch).rx.popN n) (ht : ∃ bs, p.tx = (s.port ch).tx.pushAll bs)
    (hk : (s.port ch).kickPend = true → p.kickPend = true) : FgWrites s (s.setPort ch p) where
  cfg := by simp
  built := by simp
  chn c := by
    by_cases e : c = ch
    · subst e; simpa using hc
    · rw [port_setPort_ne s p e]
  rx c := by
    by_cases e : c = ch
    · subst e; simpa using hr
    · exact ⟨0, by rw [port_setPort_ne s p e]; rfl⟩
  tx c := by
    by_cases e : c = ch
    · subst e; simpa using ht
    · exact ⟨[], by rw [port_setPort_ne s p e]; rfl⟩
  kick c h := by
    by_cases e : c = ch
    · subst e; simpa using hk h
    · rw [port_setPort_ne s p e]; exact h
  rets := ⟨[], by simp⟩
  notes := ⟨[], by simp⟩
  wire := by simp
  isrRets := by simp
  tape := by simp

theorem pop_fgWrites (s : State) (ch : Chan) : FgWrites s (s.pop (.rx ch)).2 := by
  rw [pop_rx_eq]
  exact setPort_fgWrites s ch { s.port ch with rx := (s.port ch).rx.pop.2 } rfl ⟨1, rfl⟩ ⟨[], rfl⟩ id

theorem push_fgWrites (s : State) (ch : Chan) (b : Byte) : FgWrites s (s.push (.tx ch) b).2 := by
  rw [push_tx_eq]
  exact setPort_fgWrites s ch { s.port ch with
    tx := ((s.port ch).tx.push b).2
    kickPend := (s.port ch).kickPend || ((s.port ch).tx.push b).1 } rfl ⟨0, rfl⟩ ⟨[b], rfl⟩
    (fun h => by simp [h])

theorem kick_fgWrites (s : State) (ch : Chan) : FgWrites s (s.setKick ch true) :=
  setPort_fgWrites s ch { s.port ch with kickPend := true } rfl ⟨0, rfl⟩ ⟨[], rfl⟩ (fun _ => rfl)

/-- A completed queue operation that was started anew writes what the foreground may, and goes on afresh. -/
theorem complete_writes {s : State} {t : Task} (h : t.fresh = true) :
    FgWrites s (t.complete s).2 ∧ (t.complete s).1.fresh = true := by
  cases t with
  | len q k => exact ⟨(resumeLen_light s q k _).writes, (resumeLen_light s q k _).2⟩
  | now k =>
    exact ⟨(readNow_writes s).trans (resumeNow_light _ k _).writes, (resumeNow_light _ k _).2⟩
  | pop ph q k =>
    cases q with
    | tx ch => simp [Task.fresh, QSel.isRx] at h
    | rx ch =>
      cases ph with
      | readW => exact ⟨(pop_fgWrites s ch).trans (resumePop_light _ k _).writes, (resumePop_light _ k _).2⟩
      | readSlot => cases h
      | publish b => cases h
  | push ph q b k =>
    cases q with
    | rx ch => simp [Task.fresh, QSel.isRx] at h
    | tx ch =>
      cases ph with
      | readR =>
        have hw := push_fgWrites s ch b
        show FgWrites s (resumePush (.tx ch) b k (s.push (.tx ch) b).1 (s.push (.tx ch) b).2).2 ∧
          (resumePush (.tx ch) b k (s.push (.tx ch) b).1 (s.push (.tx ch) b).2).1.fresh = true
        cases k with
        | ret => exact ⟨hw, rfl⟩
        | emit rest after =>
          unfold resumePush
          dsimp only
          split
          · exact ⟨hw, emitNext_fresh _ _ _⟩
          · exact ⟨hw.trans (kick_fgWrites _ ch), rfl⟩
      | writeSlot => cases h
      | publish => cases h

theorem paused_writes (s : State) (t : Task) : FgWrites s (s.paused t) :=
  .own rfl rfl rfl rfl ⟨[], by simp [State.paused]⟩ ⟨[], by simp [State.paused]⟩ rfl rfl rfl

theorem returns_writes (s : State) (r : Ret) : FgWrites s (s.returns r) :=
  .own rfl rfl rfl rfl ⟨[r], rfl⟩ ⟨[], by simp [State.returns]⟩ rfl rfl rfl

theorem runTask_writes {fuel : Nat} {s u : State} {t : Task} (hf : t.fresh = true)
    (h : runTask fuel t s = .next u) : FgWrites s u := by
  induction fuel generalizing t s with
  | zero => cases h; exact paused_writes s t
  | succ fuel ih =>
    have hc := complete_writes (s := s) hf
    unfold runTask at h
    revert hc h
    rcases t.complete s with ⟨a, v⟩
    intro ⟨hw, ha⟩ h
    cases a with
    | go t' => exact hw.trans (ih ha h)
    | wait t' => cases h; exact hw.trans (paused_writes v t')
    | ret r => cases h; exact hw.trans (returns_writes v r)
    | stop f => cases h

/-- What an operation run without interruption writes. -/
theorem runOp_writes {op : FgOp} {s u : State} (h : runOp op s = .next u) : FgWrites s u := by
  have hl := begin_light s op
  unfold runOp at h
  revert h; revert hl
  rcases op.begin s with ⟨a, v⟩
  intro hl h
  have hw := hl.writes
  cases a with
  | go t' => exact hw.trans (runTask_writes hl.2 h)
  | wait t' => cases h; exact hw.trans (paused_writes v t')
  | ret r => cases h; exact hw.trans (returns_writes v r)
  | stop f => cases h

/-- What a called operation writes. -/
theorem callOp_writes {op : FgOp} {s u : State} (h : callOp op s = .next u) : FgWrites s u := by
  unfold callOp at h
  split at h
  · have hs : FgWrites s s.called := .own rfl rfl rfl rfl ⟨[], by simp⟩ ⟨[], by simp⟩ rfl rfl rfl
    exact hs.trans (runOp_writes h)
  · cases h
    exact .own rfl rfl rfl rfl ⟨[], by simp⟩ ⟨[], by simp⟩ rfl rfl rfl

end Sys2Proof.Machine
end

