-- ==== Sys2Proof/Laws/Interrupts.lean ====
section
/-! SUPPORT. The interrupt side keeps everything in order, the foreground operation it interrupts included
(spec/60_exceptions.md R319 to R322): it moves only the index that favours the foreground. -/

namespace Sys2Proof.Machine

open Sys2Proof

/-! ## Queues -/

theorem QueueOk.pushAll {c : Nat} {q : Queue} (h : QueueOk c q) (bs : List Byte) : QueueOk c (q.pushAll bs) := by
  induction bs generalizing q with
  | nil => exact h
  | cons b bs ih => exact ih (h.push b)

theorem QueueOk.popN {c : Nat} {q : Queue} (h : QueueOk c q) (n : Nat) : QueueOk c (q.popN n) := by
  induction n generalizing q with
  | zero => exact h
  | succ n ih => exact ih h.pop

theorem len_push {c : Nat} {q : Queue} (h : QueueOk c q) (b : Byte) : q.len.toNat ≤ (q.push b).2.len.toNat := by
  cases hf : q.isFull with
  | true => rw [push_full b hf]
  | false =>
    rw [push_room b hf]
    rw [isFull_eq h] at hf
    have hlt : q.len.toNat < c := by simpa using hf
    have hb := (capValid_bounds h.cap).2
    dsimp only
    rw [len_publishW (by rw [writeSlot_len]; omega), writeSlot_len]
    omega

/-- Pushes never shorten a queue. -/
theorem len_pushAll {c : Nat} {q : Queue} (h : QueueOk c q) (bs : List Byte) :
    q.len.toNat ≤ (q.pushAll bs).len.toNat := by
  induction bs generalizing q with
  | nil => exact Nat.le_refl _
  | cons b bs ih => exact Nat.le_trans (len_push h b) (ih (h.push b))

theorem len_pop (q : Queue) : q.pop.2.len.toNat ≤ q.len.toNat := by
  unfold Queue.pop
  split
  · exact Nat.le_refl _
  · rename_i hne
    rw [len_publishR hne]
    omega

/-- Pops never lengthen a queue. -/
theorem len_popN (q : Queue) (n : Nat) : (q.popN n).len.toNat ≤ q.len.toNat := by
  induction n generalizing q with
  | zero => exact Nat.le_refl _
  | succ n ih => exact Nat.le_trans (ih _) (len_pop q)

/-! ## Under `IsrWrites` -/

theorem IsrWrites.fields {ch : Chan} {s t : State} (h : IsrWrites ch s t) :
    t.cfg = s.cfg ∧ t.built = s.built ∧ t.kb = s.kb ∧ t.ms = s.ms ∧ t.fg = s.fg ∧ t.calls = s.calls ∧
      t.tape = s.tape ∧ ∀ ch', ch' ≠ ch → t.port ch' = s.port ch' := by
  obtain ⟨p, ns, es, rs, e⟩ := h.frame
  subst e
  cases ch <;> refine ⟨rfl, rfl, rfl, rfl, rfl, rfl, rfl, fun ch' hne => ?_⟩ <;> cases ch' <;>
    first | rfl | exact absurd rfl hne

/-- RX queues only grow, TX queues only shrink, and both stay in order. -/
theorem IsrWrites.queues {ch : Chan} {s t : State} (h : IsrWrites ch s t) (hs : BaseOk s) (q : QSel) :
    QueueOk (capOf s.cfg q) (t.queue q) ∧
    (q.isRx = true → (s.queue q).len.toNat ≤ (t.queue q).len.toNat) ∧
    (q.isRx = false → (t.queue q).len.toNat ≤ (s.queue q).len.toNat) := by
  have hq := hs.queue q
  by_cases e : q.chan = ch
  · subst e
    cases q with
    | rx c =>
      obtain ⟨bs, e⟩ := h.rx
      have e : t.queue (.rx c) = (s.queue (.rx c)).pushAll bs := e
      rw [e]
      exact ⟨hq.pushAll bs, fun _ => len_pushAll hq bs, fun x => (nomatch x)⟩
    | tx c =>
      obtain ⟨n, e⟩ := h.tx
      have e : t.queue (.tx c) = (s.queue (.tx c)).popN n := e
      rw [e]
      exact ⟨hq.popN n, fun x => (nomatch x), fun _ => len_popN _ n⟩
  · have := h.fields.2.2.2.2.2.2.2 q.chan e
    have e : t.queue q = s.queue q := by
      cases q with
      | rx c => exact congrArg Port.rx this
      | tx c => exact congrArg Port.tx this
    rw [e]
    exact ⟨hq, fun _ => Nat.le_refl _, fun _ => Nat.le_refl _⟩

/-- The state stays in order if the channel record does. -/
theorem IsrWrites.base {ch : Chan} {s t : State} (h : IsrWrites ch s t) (hs : BaseOk s)
    (hc : ChannelOk (t.chn ch)) : BaseOk t := by
  obtain ⟨e1, e2, e3, e4, _, _, _, e8⟩ := h.fields
  refine ⟨e2 ▸ hs.built, e1 ▸ hs.cfg, fun c => ?_, fun q => ?_, e3 ▸ hs.kb, ?_⟩
  · by_cases e : c = ch
    · rw [e]; exact hc
    · rw [chn_eq, e8 c e]; exact hs.chn c
  · rw [e1]; exact (h.queues hs q).1
  · rw [e1, e4]; exact hs.ms

theorem popKOk_mono {p : Policy} {ms : Ms} {m n : Nat} {k : PopK} (h : popKOk p ms m k) (hn : m ≤ n) :
    popKOk p ms n k := by
  cases k with
  | ret | nextChar _ | drain _ _ => trivial
  | reply got => exact ⟨h.1, h.2.1, Nat.le_trans h.2.2 (by omega)⟩
  | pollAck => exact ⟨h.1, Nat.le_trans h.2 hn⟩
  | pollPkt got => exact ⟨h.1, h.2.1, Nat.le_trans h.2.2 (by omega)⟩
  | stream left got => exact ⟨h.1, Nat.le_trans h.2 (by omega)⟩

/-- The interrupted operation stays in order (R322). -/
theorem IsrWrites.task {ch : Chan} {s t : State} (h : IsrWrites ch s t) (hs : BaseOk s) {k : Task} (hk : k.ok s) :
    k.ok t := by
  obtain ⟨e1, _, _, e4, _, _, _, _⟩ := h.fields
  cases k with
  | len q k => cases k <;> first | exact hk | (simp only [Task.ok, e1, e4]; exact hk)
  | now k => cases k <;> first | exact hk | (simp only [Task.ok, e1]; exact hk)
  | pop ph q k =>
    obtain ⟨h1, h2, h3⟩ := hk
    refine ⟨h1, ?_, h3.imp id fun hne => ?_⟩
    · rw [e1, e4]
      exact popKOk_mono h2 ((h.queues hs (.rx .mouse)).2.1 rfl)
    · obtain ⟨c, rfl⟩ := popQueue_rx h1
      have hl := (h.queues hs (.rx c)).2.1 rfl
      intro e
      have h0 := len_eq_zero.2 e
      exact hne (len_eq_zero.1 (by omega))
  | push ph q b k =>
    obtain ⟨h1, h2, h3⟩ := hk
    refine ⟨h1, by rw [e1]; exact h2, h3.imp id fun hf => ?_⟩
    have hq := h.queues hs q
    have hl := hq.2.2 h1
    rw [isFull_eq (hs.queue q)] at hf
    rw [isFull_eq hq.1]
    have : ¬ capOf s.cfg q ≤ (s.queue q).len.toNat := by simpa using hf
    simp only [decide_eq_false_iff_not]
    omega

theorem IsrWrites.inv {ch : Chan} {s t : State} (h : IsrWrites ch s t) (hs : StateOk s) (hc : ChannelOk (t.chn ch)) :
    StateOk t :=
  ⟨h.base hs.base hc, fun k e => h.task hs.base (hs.fg k (h.fields.2.2.2.2.1 ▸ e))⟩

/-! ## The handlers -/

theorem edgeHandler_inv {s : State} (h : StateOk s) (ch : Chan) (d : Bool) :
    ∃ u, edgeHandler ch d s = .next u ∧ StateOk u := by
  have hc := h.base.chn ch
  have hr : edgeHandler ch d s = .next (edgeBody ch d s) := takeInterrupt_run _ rfl hc.legal
  exact ⟨_, hr, (edgeHandler_writes hr).inv h (edgeBody_chn hc)⟩

theorem timerHandler_inv {s : State} (h : StateOk s) (ch : Chan) : ∃ u, timerHandler ch s = .next u ∧ StateOk u := by
  have hc := h.base.chn ch
  cases he : (s.chn ch).timerArmed with
  | false => exact ⟨s, takeInterrupt_disabled _ he, h⟩
  | true =>
    have hr : timerHandler ch s = .next (timerBody ch (s.stopTimer ch)) := takeInterrupt_run _ he hc.legal
    refine ⟨_, hr, (timerHandler_writes hr).inv h (timerBody_chn ?_ ?_ ?_)⟩ <;> rw [chn_stopTimer]
    · exact hc.legal
    · exact hc.lines

theorem kickHandler_inv {s : State} (h : StateOk s) (ch : Chan) : ∃ u, kickHandler ch s = .next u ∧ StateOk u := by
  have hc := h.base.chn ch
  cases he : (s.port ch).kickPend with
  | false => exact ⟨s, takeInterrupt_disabled _ he, h⟩
  | true =>
    have hr : kickHandler ch s = .next (kickBody ch (s.setKick ch false)) := takeInterrupt_run _ he hc.legal
    exact ⟨_, hr, (kickHandler_writes hr).inv h (kickBody_chn (by rw [chn_setKick]; exact hc))⟩

theorem runEdges_inv {s : State} (h : StateOk s) (ch : Chan) (ds : List Bool) :
    ∃ u, runEdges ch ds s = .next u ∧ StateOk u := by
  induction ds generalizing s with
  | nil => exact ⟨s, rfl, h⟩
  | cons d ds ih =>
    obtain ⟨u, hu, hi⟩ := edgeHandler_inv h ch d
    obtain ⟨v, hv, hj⟩ := ih hi
    exact ⟨v, by rw [runEdges, hu]; exact hv, hj⟩

theorem isrPush_writes (ch : Chan) (b : Byte) (s : State) : IsrWrites ch s (isrPush (.rx ch) b s) :=
  (IsrWrites.push ch s b).trans (.returns ch _ _)

theorem isrPop_writes (ch : Chan) (s : State) : IsrWrites ch s (isrPop (.tx ch) s) :=
  (IsrWrites.pop ch s).trans (.returns ch _ _)

theorem isrPush_inv {s : State} (h : StateOk s) (ch : Chan) (b : Byte) : StateOk (isrPush (.rx ch) b s) := by
  refine (isrPush_writes ch b s).inv h ?_
  have e : (isrPush (.rx ch) b s).chn ch = s.chn ch := by
    rw [isrPush, push_rx_eq]
    cases ch <;> rfl
  rw [e]
  exact h.base.chn ch

theorem isrPop_inv {s : State} (h : StateOk s) (ch : Chan) : StateOk (isrPop (.tx ch) s) := by
  refine (isrPop_writes ch s).inv h ?_
  have e : (isrPop (.tx ch) s).chn ch = s.chn ch := by cases ch <;> rfl
  rw [e]
  exact h.base.chn ch

theorem isrReturns_inv {s : State} (h : StateOk s) (r : Ret) : StateOk (s.isrReturns r) := by
  refine (IsrWrites.returns .kbd s r).inv h ?_
  exact h.base.chn .kbd

end Sys2Proof.Machine
end

