-- ==== Sys2Proof/Laws/PerInstr.lean ====
section
/-! SUPPORT. Statements made per instruction, about the instruction as syntax. Family `Expansion`: the stimuli that an
instruction stands for (spec/30_encoding.md R139) all have a code of their own, and are well formed when the
instruction is; only the five pseudo-stimuli have none themselves. -/

namespace Sys2Proof

/-- Whether an instruction has a code of its own. -/
def Instr.hasCode (i : Instr) : Bool := (encodeOne i).isSome

/-- Whether an instruction is one of the five pseudo-stimuli (R139). -/
def Instr.isPseudo : Instr → Bool
  | .rxbyte _ _ | .rxframe _ _ _ _ _ | .txclock _ _ _ | .settle _ | .pulse _ => true
  | _ => false

end Sys2Proof

namespace Sys2Proof.Laws.Expansion

open Sys2Proof

/-- The statement of the family. -/
def Statement (i : Instr) : Prop :=
  (∀ j ∈ expand i, j.hasCode = true) ∧ (i.wellFormed = true → ∀ j ∈ expand i, j.wellFormed = true) ∧
    i.hasCode = !i.isPseudo

/-- An instruction with a code of its own stands for itself. -/
theorem ownCode {i : Instr} (he : expand i = [i]) (hc : i.hasCode = true) (hp : i.isPseudo = false) : Statement i := by
  refine ⟨?_, fun h => ?_, by rw [hc, hp]; rfl⟩ <;> simp only [he, List.forall_mem_singleton]
  · exact hc
  · exact h

theorem reset : Statement .reset :=
  ownCode rfl rfl rfl

theorem edge (ch : Chan) (d : Bool) : Statement (.edge ch d) :=
  ownCode rfl rfl rfl

theorem timer (ch : Chan) : Statement (.timer ch) :=
  ownCode rfl rfl rfl

theorem kick (ch : Chan) : Statement (.kick ch) :=
  ownCode rfl rfl rfl

theorem pushRx (ch : Chan) (b : Byte) : Statement (.pushRx ch b) :=
  ownCode rfl rfl rfl

theorem popRx (ch : Chan) : Statement (.popRx ch) :=
  ownCode rfl rfl rfl

theorem lenRx (ch : Chan) : Statement (.lenRx ch) :=
  ownCode rfl rfl rfl

theorem fullRx (ch : Chan) : Statement (.fullRx ch) :=
  ownCode rfl rfl rfl

theorem pushTx (ch : Chan) (b : Byte) : Statement (.pushTx ch b) :=
  ownCode rfl rfl rfl

theorem popTx (ch : Chan) : Statement (.popTx ch) :=
  ownCode rfl rfl rfl

theorem lenTx (ch : Chan) : Statement (.lenTx ch) :=
  ownCode rfl rfl rfl

theorem fullTx (ch : Chan) : Statement (.fullTx ch) :=
  ownCode rfl rfl rfl

theorem emit (ch : Chan) (b : Byte) : Statement (.emit ch b) :=
  ownCode rfl rfl rfl

theorem getsc : Statement .getsc :=
  ownCode rfl rfl rfl

theorem peek : Statement .peek :=
  ownCode rfl rfl rfl

theorem getkey : Statement .getkey :=
  ownCode rfl rfl rfl

theorem locks : Statement .locks :=
  ownCode rfl rfl rfl

theorem ctrls : Statement .ctrls :=
  ownCode rfl rfl rfl

theorem setlocks (m : Byte) : Statement (.setlocks m) :=
  ownCode rfl rfl rfl

theorem getmove : Statement .getmove :=
  ownCode rfl rfl rfl

theorem reservedMaj (lo : BitVec 15) : Statement (.reservedMaj lo) :=
  ownCode rfl rfl rfl

theorem reservedKbdMin (lo : BitVec 9) : Statement (.reservedKbdMin lo) :=
  ownCode rfl rfl rfl

theorem reservedMouseCh0 (lo : BitVec 11) : Statement (.reservedMouseCh0 lo) :=
  ownCode rfl rfl rfl

theorem rxbyte (ch : Chan) (b : Byte) : Statement (.rxbyte ch b) := by
  refine ⟨?_, fun _ => ?_, rfl⟩ <;> simp only [expand, frameLevels, List.map_cons, List.map_nil, List.forall_mem_cons]
  · exact ⟨rfl, rfl, rfl, rfl, rfl, rfl, rfl, rfl, rfl, rfl, rfl, by simp⟩
  · exact ⟨rfl, rfl, rfl, rfl, rfl, rfl, rfl, rfl, rfl, rfl, rfl, by simp⟩

theorem rxframe (ch : Chan) (start : Bool) (b : Byte) (parity : Bool) (stop : Bool) : Statement (.rxframe ch start b parity stop) := by
  refine ⟨?_, fun _ => ?_, rfl⟩ <;> simp only [expand, frameLevels, List.map_cons, List.map_nil, List.forall_mem_cons]
  · exact ⟨rfl, rfl, rfl, rfl, rfl, rfl, rfl, rfl, rfl, rfl, rfl, by simp⟩
  · exact ⟨rfl, rfl, rfl, rfl, rfl, rfl, rfl, rfl, rfl, rfl, rfl, by simp⟩

theorem txclock (ch : Chan) (b : Byte) (ack : Bool) : Statement (.txclock ch b ack) := by
  refine ⟨?_, fun _ => ?_, rfl⟩ <;> simp only [expand, frameLevels, List.map_cons, List.map_nil, List.forall_mem_cons]
  · exact ⟨rfl, rfl, rfl, rfl, rfl, rfl, rfl, rfl, rfl, rfl, rfl, by simp⟩
  · exact ⟨rfl, rfl, rfl, rfl, rfl, rfl, rfl, rfl, rfl, rfl, rfl, by simp⟩

theorem settle (ch : Chan) : Statement (.settle ch) := by
  refine ⟨?_, fun _ => ?_, rfl⟩ <;> simp only [expand, List.forall_mem_singleton] <;> rfl

theorem pulse (ch : Chan) : Statement (.pulse ch) := by
  refine ⟨?_, fun _ => ?_, rfl⟩ <;> simp only [expand, List.forall_mem_singleton] <;> rfl

theorem frameD2H (ch : Chan) (d : Byte) (p : Bool) : Statement (.frameD2H ch d p) :=
  ownCode rfl rfl rfl

theorem frameH2D (ch : Chan) (d : Byte) (p : Bool) (a : Bool) : Statement (.frameH2D ch d p a) :=
  ownCode rfl rfl rfl

theorem mouseStatus (yOverflow xOverflow ySign xSign : Bool) (btns : BitVec 3) : Statement (.mouseStatus yOverflow xOverflow ySign xSign btns) :=
  ownCode rfl rfl rfl

theorem ledArg (caps num scroll : Bool) : Statement (.ledArg caps num scroll) :=
  ownCode rfl rfl rfl

theorem cmdReset : Statement .cmdReset :=
  ownCode rfl rfl rfl

theorem cmdSetRate : Statement .cmdSetRate :=
  ownCode rfl rfl rfl

theorem cmdIdentify : Statement .cmdIdentify :=
  ownCode rfl rfl rfl

theorem cmdEnable : Statement .cmdEnable :=
  ownCode rfl rfl rfl

theorem cmdReadData : Statement .cmdReadData :=
  ownCode rfl rfl rfl

theorem cmdSetLeds : Statement .cmdSetLeds :=
  ownCode rfl rfl rfl

theorem rate200 : Statement .rate200 :=
  ownCode rfl rfl rfl

theorem rate100 : Statement .rate100 :=
  ownCode rfl rfl rfl

theorem rate80 : Statement .rate80 :=
  ownCode rfl rfl rfl

theorem replyAck : Statement .replyAck :=
  ownCode rfl rfl rfl

theorem replySelftest : Statement .replySelftest :=
  ownCode rfl rfl rfl

theorem replyId0OrReset3 : Statement .replyId0OrReset3 :=
  ownCode rfl rfl rfl

theorem replyId3 : Statement .replyId3 :=
  ownCode rfl rfl rfl

theorem scExtPrefix : Statement .scExtPrefix :=
  ownCode rfl rfl rfl

theorem scBrkPrefix : Statement .scBrkPrefix :=
  ownCode rfl rfl rfl

theorem scE1 : Statement .scE1 :=
  ownCode rfl rfl rfl

end Sys2Proof.Laws.Expansion
end

