-- ==== Sys2Proof/Laws/Step.lean ====
section
/-! SUPPORT. One lemma for each of the operations that a step goes through: the tape's front, the meaning of a foreground
instruction, starting an operation, entering a handler, and the shared bit helpers. -/

namespace Sys2Proof.Machine

open Sys2Proof

/-! ## The tape -/

theorem step_nil {s : State} (h : s.tape = []) : step s = fgTurn s := by
  show stepInput s = _
  unfold stepInput
  rw [h]

theorem step_cons {s : State} {i : Input} {rest : List Input} (h : s.tape = i :: rest) :
    step s = runInput i { s with tape := rest } := by
  show stepInput s = _
  unfold stepInput
  split
  · simp_all
  · simp_all

theorem runInstr_built {issuer : Option Context} {i : Instr} {s : State} (h : s.built = true ∨ i = .reset) :
    runInstr issuer i s = execIssued issuer i s := by
  unfold runInstr whenBuilt
  rw [if_pos (by rcases h with h | h <;> simp [h])]

theorem runInstr_unbuilt {issuer : Option Context} {i : Instr} {s : State} (h : s.built = false) (hi : i ≠ .reset) :
    runInstr issuer i s = .refused .notConstructed := by
  simp [runInstr, whenBuilt, h, hi]

theorem runCode_ok {c : Code} {i : Instr} (h : decode c = .ok i) (issuer : Option Context) (s : State) :
    runCode issuer c s = runInstr issuer i s := by
  simp [runCode, h]

/-- An unlisted code runs the instruction that has its effect. -/
theorem runCode_runs {c : Code} {r : Reject} {i : Instr} (h : decode c = .reject r) (hu : c.unlisted = .runs i)
    (issuer : Option Context) (s : State) : runCode issuer c s = runInstr issuer i s := by
  simp [runCode, h, hu]

/-- An unlisted scancode, with no issuer named, is one decode step. -/
theorem runCode_decodes {b : Byte} {r : Reject} (h : decode (.scancode b) = .reject r) {s : State}
    (hb : s.built = true) : runCode none (.scancode b) s = callOp (.decodeByte b) s := by
  simp [runCode, h, Code.unlisted, whenForeground, hb]

/-- A stimulus word that decodes to nothing is refused. -/
theorem runCode_reserved {w : BitVec 16} {r : Reject} (h : decode (.stimulus w) = .reject r)
    (issuer : Option Context) (s : State) : runCode issuer (.stimulus w) s = .refused .reservedStimulus := by
  simp [runCode, h, Code.unlisted]

theorem step_withFetchWord (s : State) (nbits w : Nat) :
    step (s.withFetchWord nbits w) = runCode none (tableCode nbits w) s := rfl

theorem whenBuilt_eq {i : Instr} {s : State} (h : s.built = true ∨ i = .reset)
    (o : Host.Outcome State Fault Refusal) : whenBuilt i s o = o := by
  unfold whenBuilt
  rw [if_pos (by rcases h with h | h <;> simp [h])]

theorem whenBuilt_next {i : Instr} {s t : State} {o : Host.Outcome State Fault Refusal}
    (h : whenBuilt i s o = .next t) : o = .next t := by
  unfold whenBuilt at h
  split at h
  · exact h
  · cases h

/-- Taking an input off the tape keeps the invariant. -/
theorem StateOk.withTape {s : State} (h : StateOk s) (l : List Input) : StateOk { s with tape := l } :=
  ⟨h.base.ofFields rfl rfl rfl rfl rfl rfl, fun t ht => (h.fg t ht).ofFields rfl rfl rfl rfl⟩

theorem StateOk.withTime {s : State} (h : StateOk s) (t : Option Word32) : StateOk { s with hostNext := t } :=
  ⟨h.base.ofFields rfl rfl rfl rfl rfl rfl, fun t ht => (h.fg t ht).ofFields rfl rfl rfl rfl⟩

theorem StateOk.withCalls {s : State} (h : StateOk s) (l : List Call) : StateOk { s with calls := l } :=
  ⟨h.base.ofFields rfl rfl rfl rfl rfl rfl, fun t ht => (h.fg t ht).ofFields rfl rfl rfl rfl⟩

theorem StateOk.called {s : State} (h : StateOk s) : StateOk s.called :=
  ⟨h.base.ofFields rfl rfl rfl rfl rfl rfl, fun t ht => (h.fg t ht).ofFields rfl rfl rfl rfl⟩

theorem StateOk.held {s : State} (h : StateOk s) (op : FgOp) : StateOk (s.held op) :=
  ⟨h.base.ofFields rfl rfl rfl rfl rfl rfl, fun t ht => (h.fg t ht).ofFields rfl rfl rfl rfl⟩

/-! ## The foreground -/

/-- An instruction that the foreground owns calls its operation. -/
theorem exec_eq_callOp {i : Instr} {op : FgOp} (h : fgOpOf i = some op) (s : State) : exec i s = callOp op s := by
  cases i <;> simp_all [fgOpOf] <;> subst h <;> rfl

theorem callOp_idle {s : State} (h : s.fgIdle = true) (op : FgOp) :
    callOp op s = runAct (fgFuel s.called) (op.begin s.called) := by
  simp [callOp, h, runOp]

theorem callOp_busy {s : State} (h : s.fgIdle = false) (op : FgOp) :
    callOp op s = .next (s.held op) := by
  simp [callOp, h]

/-- The foreground never starts with little fuel. -/
theorem fgFuel_succ (s : State) : ∃ n, fgFuel s = n + 64 :=
  ⟨8 * ((s.queue (.rx .kbd)).len.toNat + (s.queue (.rx .mouse)).len.toNat), by unfold fgFuel; omega⟩

/-- The last push of a lock key's decode step by itself ends it with `None` (R208, R215). -/
theorem resumePush_retNone (q : QSel) (b : Byte) (s : State) :
    resumePush q b (.emit [] .retNone) true s = (.ret (.byte none), s) := rfl

/-! ## Handlers -/

/-- The edge handler of a channel in a legal position runs its body. -/
theorem edgeHandler_eq {ch : Chan} {s : State} (h : (s.chn ch).legal = true) (d : Bool) :
    edgeHandler ch d s = .next (edgeBody ch d s) := by
  simp [edgeHandler, State.takeInterrupt, State.irqEnabled, State.enterHandler, Irq.chan, h]

/-- The timer handler of an armed timer disarms it and runs its body. -/
theorem timerHandler_eq {ch : Chan} {s : State} (h : (s.chn ch).legal = true) (ha : (s.chn ch).timerArmed = true) :
    timerHandler ch s = .next (timerBody ch (s.stopTimer ch)) := by
  simp [timerHandler, State.takeInterrupt, State.irqEnabled, State.enterHandler, Irq.chan, h, ha]

/-- The kick handler of a raised kick clears it and runs its body. -/
theorem kickHandler_eq {ch : Chan} {s : State} (h : (s.chn ch).legal = true) (hk : (s.port ch).kickPend = true) :
    kickHandler ch s = .next (kickBody ch (s.setKick ch false)) := by
  simp [kickHandler, State.takeInterrupt, State.irqEnabled, State.enterHandler, Irq.chan, h, hk]

theorem runEdges_cons {ch : Chan} {d : Bool} {ds : List Bool} {s t : State} (h : edgeHandler ch d s = .next t) :
    runEdges ch (d :: ds) s = runEdges ch ds t := by
  show andThen (edgeHandler ch d s) _ = _
  rw [h, andThen_next]

/-- A sequence keeps the invariant when both its parts do. -/
theorem andThen_ok {o : Host.Outcome State Fault Refusal} (ho : ∃ u, o = .next u ∧ StateOk u)
    {f : State → Host.Outcome State Fault Refusal} (hf : ∀ u, StateOk u → ∃ v, f u = .next v ∧ StateOk v) :
    ∃ v, andThen o f = .next v ∧ StateOk v := by
  obtain ⟨u, rfl, hu⟩ := ho
  exact hf u hu

/-! ## Bits -/

theorem setBit_getLsbD (v : Byte) (d : Bool) : ∀ i < 8, ∀ j < 8,
    (setBit v i d).getLsbD j = if j = i then d else v.getLsbD j := by
  intro i hi j hj
  interval_cases i <;> interval_cases j <;> cases d <;> simp [setBit]

theorem clearPending_eq (m : Byte) : clearPending m = m &&& 0xCF := by
  unfold clearPending setBit bitEXT bitBRK
  simp [BitVec.and_assoc]

end Sys2Proof.Machine
end

