-- ==== Sys2Proof/Tests/Slice0.lean ====
section
/-! SUPPORT. Tests: well-formedness, decoding of words written out from spec/30_encoding.md, one-step vectors of
spec/95_test_vectors.md (each theorem names its vector), and for every obligation with hypotheses a state and operands
that meet them. -/

namespace Sys2Proof.Tests

open Sys2Proof Sys2Proof.Machine

/-! ## Builders -/

/-- A queue of capacity 8 that holds the at most 8 bytes `bs`, in slots 0 and up. -/
def queue8 (bs : List Byte) : Queue :=
  { Queue.empty 8 with
    w := BitVec.ofNat 32 bs.length
    buf := (bs.zipIdx.map fun x => (x.2, x.1)).filter fun x => x.2 != 0 }

/-- Eight bytes. -/
def eight : List Byte := [1, 2, 3, 4, 5, 6, 7, 8]

/-- A channel in a position with its lines and timer in order. -/
def chan (st : Status) (pos : Nat) (shift : Byte := 0) (parity : Bool := true) : Channel :=
  { Channel.reset with
    status := st
    bitcnt := BitVec.ofNat 4 pos
    shift := shift
    parity := parity
    timerArmed := st != .passive
    clkOut := if st = .sendRequested then .low else .rel }

/-- A port of 8-byte queues. -/
def port (rx tx : List Byte) (c : Channel := Channel.reset) (kick : Bool := false) : Port where
  chn := c
  rx := queue8 rx
  tx := queue8 tx
  kickPend := kick

/-- The state after construction with the keyboard's port as given. -/
def kbdState (p : Port) (kb : Kb := Kb.reset) : State := { State.reset with kbd := p, kb := kb }

/-- The state after construction with a policy, the mouse's queues and the engine as given, after a line `@t=N`. -/
def mouseState (pol : Policy) (rx tx : List Byte) (ms : Ms) (t : Nat := 0) : State :=
  { State.constructed { Config.fixture with policy := pol } with
    mouse := port rx tx, ms := ms, hostNext := some (BitVec.ofNat 32 t) }

/-- The engine in a stage. -/
def inStage (st : Stage) (ts : Nat := 0) (ps : PSize := .three) (prev : Byte := 0) (last : Nat := 0) : Ms :=
  { Ms.reset with stage := st, ts := BitVec.ofNat 32 ts, psize := ps, prevBtns := prev, lastLen := BitVec.ofNat 32 last }

/-- What `f` sees of a next state. -/
def seen {α : Type} (o : Host.Outcome State Fault Refusal) (f : State → α) : Option α :=
  match o with
  | .next t => some (f t)
  | _ => none

/-- What `f` sees after `i`. -/
def after {α : Type} (i : Instr) (s : State) (f : State → α) : Option α := seen (exec i s) f

/-! ## The invariant of a concrete state -/

/-- `ChannelOk` as a check. -/
def channelOkB (c : Channel) : Bool := c.legal && c.timerArmed == (c.status != .passive) && c.linesOk

/-- `QueueOk` as a check. -/
def queueOkB (c : Nat) (q : Queue) : Bool :=
  capValid c && q.cap == BitVec.ofNat 32 c && decide (q.len.toNat ≤ c) && q.buf.wf && q.buf.all fun x => decide (x.1 < c)

/-- `BaseOk` as a check. -/
def baseOkB (s : State) : Bool :=
  s.built && validCfg s.cfg && channelOkB s.kbd.chn && channelOkB s.mouse.chn
    && queueOkB s.cfg.capRxKbd s.kbd.rx && queueOkB s.cfg.capTxKbd s.kbd.tx
    && queueOkB s.cfg.capRxMouse s.mouse.rx && queueOkB s.cfg.capTxMouse s.mouse.tx
    && s.kb.mods &&& 0xC0 == 0 && s.kb.locks &&& 0xF8 == 0
    && stageFits s.cfg.policy s.ms.stage && s.ms.prevBtns &&& 0xF8 == 0 && s.ms.acc.btns &&& 0xF8 == 0

theorem channelOk_of {c : Channel} (h : channelOkB c = true) : ChannelOk c := by
  simp only [channelOkB, Bool.and_eq_true, beq_iff_eq] at h
  exact ⟨h.1.1, h.1.2, h.2⟩

theorem queueOk_of {c : Nat} {q : Queue} (h : queueOkB c q = true) : QueueOk c q := by
  simp only [queueOkB, Bool.and_eq_true, beq_iff_eq, decide_eq_true_eq, List.all_eq_true] at h
  exact ⟨h.1.1.1.1, h.1.1.1.2, h.1.1.2, h.1.2, h.2⟩

theorem baseOk_of {s : State} (h : baseOkB s = true) : BaseOk s := by
  simp only [baseOkB, Bool.and_eq_true, beq_iff_eq] at h
  obtain ⟨⟨⟨⟨⟨⟨⟨⟨⟨⟨⟨⟨hb, hv⟩, hk⟩, hm⟩, h1⟩, h2⟩, h3⟩, h4⟩, h5⟩, h6⟩, h7⟩, h8⟩, h9⟩ := h
  refine ⟨hb, hv, fun ch => ?_, fun q => ?_, ⟨h5, h6⟩, ⟨h7, h8, h9⟩⟩
  · cases ch
    · exact channelOk_of hk
    · exact channelOk_of hm
  · rcases q with ch | ch <;> cases ch
    · exact queueOk_of h1
    · exact queueOk_of h3
    · exact queueOk_of h2
    · exact queueOk_of h4

theorem stateOk_of {s : State} (h : (baseOkB s && s.fg.isNone) = true) : StateOk s := by
  simp only [Bool.and_eq_true, Option.isNone_iff_eq_none] at h
  exact ⟨baseOk_of h.1, fun t ht => by rw [h.2] at ht; cases ht⟩

/-! ## Well-formedness -/

/-- 0x1C has three ones, so its odd parity is 0 (R102). -/
theorem test_wellFormed_frameD2H :
    (Instr.frameD2H .kbd 0x1C true).wellFormed = false ∧ (Instr.frameD2H .kbd 0x1C false).wellFormed = true := by
  decide

/-- 0xED has six ones, so its odd parity is 1 (R102). -/
theorem test_wellFormed_frameH2D :
    (Instr.frameH2D .mouse 0xED false true).wellFormed = false ∧
      (Instr.frameH2D .mouse 0xED true true).wellFormed = true := by
  decide

/-! ## Decoding: `MAJ ++ CH ++ MIN ++ IMM` (R130), then the words of 95_test_vectors.md section 2.13 -/

theorem test_decode_interrupt_words :
    decode (.stimulus (0x0#4 ++ 0#1 ++ 0#3 ++ 0x00#8)) = .ok .reset ∧
    decode (.stimulus (0x1#4 ++ 1#1 ++ 0#3 ++ 0x01#8)) = .ok (.edge .mouse true) ∧
    decode (.stimulus (0x1#4 ++ 0#1 ++ 0#3 ++ 0x00#8)) = .ok (.edge .kbd false) ∧
    decode (.stimulus (0x2#4 ++ 1#1 ++ 0#3 ++ 0x00#8)) = .ok (.timer .mouse) ∧
    decode (.stimulus (0x3#4 ++ 0#1 ++ 0#3 ++ 0x00#8)) = .ok (.kick .kbd) := by
  decide

theorem test_decode_queue_words :
    decode (.stimulus (0x4#4 ++ 0#1 ++ 0#3 ++ 0x1C#8)) = .ok (.pushRx .kbd 0x1C) ∧
    decode (.stimulus (0x4#4 ++ 1#1 ++ 1#3 ++ 0x00#8)) = .ok (.popRx .mouse) ∧
    decode (.stimulus (0x4#4 ++ 0#1 ++ 2#3 ++ 0x00#8)) = .ok (.lenRx .kbd) ∧
    decode (.stimulus (0x4#4 ++ 1#1 ++ 3#3 ++ 0x00#8)) = .ok (.fullRx .mouse) ∧
    decode (.stimulus (0x4#4 ++ 1#1 ++ 4#3 ++ 0xA5#8)) = .ok (.pushTx .mouse 0xA5) ∧
    decode (.stimulus (0x4#4 ++ 0#1 ++ 5#3 ++ 0x00#8)) = .ok (.popTx .kbd) ∧
    decode (.stimulus (0x4#4 ++ 0#1 ++ 6#3 ++ 0x00#8)) = .ok (.lenTx .kbd) ∧
    decode (.stimulus (0x4#4 ++ 1#1 ++ 7#3 ++ 0x00#8)) = .ok (.fullTx .mouse) ∧
    decode (.stimulus (0x5#4 ++ 1#1 ++ 0#3 ++ 0xF4#8)) = .ok (.emit .mouse 0xF4) := by
  decide

theorem test_decode_engine_words :
    decode (.stimulus (0x6#4 ++ 0#1 ++ 0#3 ++ 0x00#8)) = .ok .getsc ∧
    decode (.stimulus (0x6#4 ++ 0#1 ++ 1#3 ++ 0x00#8)) = .ok .peek ∧
    decode (.stimulus (0x6#4 ++ 0#1 ++ 2#3 ++ 0x00#8)) = .ok .getkey ∧
    decode (.stimulus (0x6#4 ++ 0#1 ++ 3#3 ++ 0x00#8)) = .ok .locks ∧
    decode (.stimulus (0x6#4 ++ 0#1 ++ 4#3 ++ 0x00#8)) = .ok .ctrls ∧
    decode (.stimulus (0x6#4 ++ 0#1 ++ 5#3 ++ 0x05#8)) = .ok (.setlocks 0x05) ∧
    decode (.stimulus (0x7#4 ++ 1#1 ++ 0#3 ++ 0x00#8)) = .ok .getmove := by
  decide

theorem test_decode_reserved_rows :
    decode (.stimulus 0x8001) = .ok (.reservedMaj 0x0001) ∧
    decode (.stimulus 0x6702) = .ok (.reservedKbdMin 0x102) ∧
    decode (.stimulus 0x7003) = .ok (.reservedMouseCh0 0x003) := by
  decide

/-- Reserved words without a row (R137, section 2.13). -/
theorem test_decode_rejects :
    decode (.stimulus 0x1002) = .reject .mustBeZero ∧ decode (.stimulus 0x0001) = .reject .mustBeZero ∧
    decode (.stimulus 0x6800) = .reject .kbdChannel ∧ decode (.stimulus 0x7900) = .reject .mouseMinor ∧
    decode (.hostCmd 0xFE) = .reject .unlistedByte ∧ decode (.wireD2H .kbd 0x400) = .reject .badFrame ∧
    decodeTableWord 8 0xFE = some (.mouseStatus true true true true 6) ∧ decodeTableWord 8 0x10 = none := by
  decide

/-- Frame positions 0 to 10 in time order are bits 0 to 10: 0x1C is `0 0 0 1 1 1 0 0 0 0 1` (section 2.2); 0xED with an
acknowledgement of 0 is `0 1 0 1 1 0 1 1 1 1 1 0`. -/
theorem test_decode_wire_frames :
    decode (.wireD2H .kbd 0b10000111000#11) = .ok (.frameD2H .kbd 0x1C false) ∧
    decode (.wireH2D .mouse 0b011111011010#12) = .ok (.frameH2D .mouse 0xED true false) := by
  decide

theorem test_decode_field_bytes :
    decode (.byte8 0b00101001#8) = .ok (.mouseStatus false false true false 1) ∧
    decode (.byte8 0b11011110#8) = .ok (.mouseStatus true true false true 6) ∧
    decode (.byte8 0b00000110#8) = .ok (.ledArg true true false) ∧
    decode (.byte8 0b00000001#8) = .ok (.ledArg false false true) := by
  decide

theorem test_decode_command_bytes :
    decode (.hostCmd 0xFF) = .ok .cmdReset ∧ decode (.hostCmd 0xF3) = .ok .cmdSetRate ∧
    decode (.hostCmd 0xF2) = .ok .cmdIdentify ∧ decode (.hostCmd 0xF4) = .ok .cmdEnable ∧
    decode (.hostCmd 0xEB) = .ok .cmdReadData ∧ decode (.hostCmd 0xED) = .ok .cmdSetLeds ∧
    decode (.hostArg 200) = .ok .rate200 ∧ decode (.hostArg 100) = .ok .rate100 ∧
    decode (.hostArg 80) = .ok .rate80 := by
  decide

theorem test_decode_device_bytes :
    decode (.deviceReply 0xFA) = .ok .replyAck ∧ decode (.deviceReply 0xAA) = .ok .replySelftest ∧
    decode (.deviceReply 0x00) = .ok .replyId0OrReset3 ∧ decode (.deviceReply 0x03) = .ok .replyId3 ∧
    decode (.scancode 0xE0) = .ok .scExtPrefix ∧ decode (.scancode 0xF0) = .ok .scBrkPrefix ∧
    decode (.scancode 0xE1) = .ok .scE1 := by
  decide

/-- The `EDGE` words of section 2.2: `RXBYTE kbd, 0x1C` and `TXCLOCK kbd, 0` for 0xED. -/
theorem test_encode_pseudo_stimuli :
    encode (.rxbyte .kbd 0x1C) = [0x1000, 0x1000, 0x1000, 0x1001, 0x1001, 0x1001, 0x1000, 0x1000, 0x1000, 0x1000,
      0x1001].map (Code.stimulus ·) ∧
    encode (.rxframe .mouse true 0x00 false false) = [0x1801, 0x1800, 0x1800, 0x1800, 0x1800, 0x1800, 0x1800, 0x1800,
      0x1800, 0x1800, 0x1800].map (Code.stimulus ·) ∧
    encode (.txclock .kbd 0xED false) = [0x1000, 0x1001, 0x1000, 0x1001, 0x1001, 0x1000, 0x1001, 0x1001, 0x1001,
      0x1001, 0x1000].map (Code.stimulus ·) ∧
    encode (.settle .kbd) = [.stimulus 0x2000] ∧ encode (.pulse .mouse) = [.stimulus 0x2800] := by
  decide

/-! ## One-step vectors of 95_test_vectors.md -/

/-- T1, T4. -/
theorem test_T1_T4_received_byte :
    after (.rxbyte .kbd 0x1C) State.reset (fun t => (t.kbd.chn.status, t.kbd.chn.err, t.kbd.rx.contents, t.notes)) =
      some (.postSettle, false, [0x1C], []) ∧
    after (.rxframe .kbd false 0x1C true true) State.reset
      (fun t => (t.kbd.chn.status, t.kbd.chn.err, t.kbd.rx.contents, t.notes)) =
      some (.postSettle, true, [0x1C], [.frameError .kbd]) := by
  decide

/-- T11: bad parity into a full queue. -/
theorem test_T11_error_then_overflow :
    after (.rxframe .kbd false 0x55 false true) (kbdState (port eight []))
      (fun t => (t.kbd.rx.contents, t.notes)) = some (eight, [.frameError .kbd, .overflow .kbd]) := by
  decide

/-- T8: the watchdog keeps the shift register. -/
theorem test_T8_watchdog :
    after (.timer .kbd) (kbdState (port [] [] (chan .receiving 5 0x0C)))
      (fun t => (t.kbd.chn.status, t.kbd.chn.bitcnt, t.kbd.chn.timerArmed, t.kbd.chn.shift)) =
      some (.passive, 0, false, 0x0C) := by
  decide

/-- T13, T14, T15. -/
theorem test_T13_emit :
    after (.emit .kbd 0xF4) State.reset (fun t => (t.kbd.tx.contents, t.kbd.kickPend, t.kbd.chn.status)) =
      some ([0xF4], true, .passive) := by
  decide

theorem test_T14_kick :
    after (.kick .kbd) (kbdState (port [] [0xF4] Channel.reset true))
      (fun t => (t.kbd.chn.status, t.kbd.chn.clkOut, t.kbd.chn.timerArmed, t.kbd.kickPend, t.kbd.tx.contents)) =
      some (.sendRequested, .low, true, false, [0xF4]) := by
  decide

theorem test_T15_pulse :
    after (.pulse .kbd) (kbdState (port [] [0xF4] (chan .sendRequested 0)))
      (fun t => (t.kbd.chn.status, t.kbd.chn.shift, t.kbd.chn.dataOut, t.kbd.chn.clkOut, t.kbd.tx.contents)) =
      some (.sending, 0xF4, .low, .rel, []) := by
  decide

/-- T20: no acknowledgement. -/
theorem test_T20_unacknowledged :
    after (.txclock .kbd 0xF4 true) (kbdState (port [] [] (chan .sending 1 0xF4)))
      (fun t => (t.kbd.chn.status, t.kbd.chn.err, t.kbd.chn.dataOut, t.notes)) =
      some (.postSettle, true, .rel, []) := by
  decide

/-- T22. -/
theorem test_T22_settle_sends_on :
    after (.settle .kbd) (kbdState (port [] [0x04] (chan .postSettle 0)))
      (fun t => (t.kbd.chn.status, t.kbd.chn.clkOut)) = some (.sendRequested, .low) := by
  decide

/-- Q3, Q4, Q5, Q6: the indices wrap. -/
theorem test_Q_wrapping_indices :
    let q3 : Queue := { Queue.empty 8 with w := 2, r := 0xFFFFFFFE }
    let q4 : Queue := { Queue.empty 8 with w := 7, r := 0xFFFFFFFF, buf := [(7, 0x99)] }
    let q6 : Queue := { Queue.empty 8 with w := 0xFFFFFFFF, r := 0xFFFFFFFF }
    q3.len = 4 ∧ q3.isFull = false ∧ q4.len = 8 ∧ q4.isFull = true ∧ q4.pop.1 = some 0x99 ∧ q4.pop.2.r = 0 ∧
      q6.push 0x5A = (true, { q6 with buf := [(7, 0x5A)], w := 0 }) := by
  decide

/-- S1 at its ninth push. -/
theorem test_S1_full_queue :
    after (.pushRx .kbd 0x09) (kbdState (port eight [])) (fun t => (t.kbd.rx.contents, t.isrRets)) =
      some (eight, [.bool false]) ∧
    after (.fullRx .kbd) (kbdState (port eight [])) (·.rets) = some [.bool true] ∧
    after (.lenRx .kbd) (kbdState (port eight [])) (·.rets) = some [.len 8] ∧
    after (.popRx .kbd) (kbdState (port eight [])) (·.rets) = some [.byte (some 0x01)] := by
  decide

theorem test_tx_queue :
    after (.pushTx .kbd 0x09) (kbdState (port [] eight)) (fun t => (t.rets, t.kbd.kickPend)) =
      some ([.bool false], false) ∧
    after (.popTx .kbd) (kbdState (port [] eight)) (fun t => (t.isrRets, t.kbd.tx.len)) =
      some ([.byte (some 0x01)], 7) ∧
    after (.lenTx .kbd) (kbdState (port [] [0x01])) (·.rets) = some [.len 1] ∧
    after (.fullTx .kbd) (kbdState (port [] [0x01])) (·.rets) = some [.bool false] := by
  decide

/-- K3, K13 in part. -/
theorem test_K_getkey :
    after .getkey (kbdState (port [0x12, 0x1C] []) { Kb.reset with locks := 0x04 })
      (fun t => (t.rets, t.kb.mods)) = some ([.byte (some 0x61)], 0x01) ∧
    after .getkey (kbdState (port [0xE0, 0x12, 0xE0, 0x75, 0xE0] [])) (fun t => (t.rets, t.kbd.rx.contents)) =
      some ([.byte (some 0x80)], [0xE0]) := by
  decide

/-- K15, K35. -/
theorem test_K_peek :
    after .peek (kbdState (port [0x58] [])) (fun t => (t.rets, t.kb.locks, t.kbd.tx.contents)) =
      some ([.bool false], 0x04, [0xED, 0x04]) ∧
    after .peek (kbdState (port [0x12, 0x1C, 0x16] [])) (fun t => (t.rets, t.kb.cache, t.kbd.rx.contents)) =
      some ([.bool true], 0x41, [0x16]) := by
  decide

/-- K36 to K39. -/
theorem test_K_operations :
    after .getsc (kbdState (port [0xE0, 0x75] [])) (fun t => (t.rets, t.kb.mods)) =
      some ([.byte (some 0xE0)], 0) ∧
    after (.setlocks 0xFF) State.reset (fun t => (t.kb.locks, t.kbd.tx.contents, t.kbd.kickPend)) =
      some (0x07, [0xED, 0x07], true) ∧
    after .locks (kbdState (port [] []) { Kb.reset with locks := 0x04 }) (·.rets) = some [.mask 0x04] ∧
    after .ctrls (kbdState (port [] []) { Kb.reset with mods := 0x11 }) (·.rets) = some [.mask 0x11] := by
  decide

/-- M2, M5, M15. -/
theorem test_M_packets :
    decodePacket .three [0x28, 0x0A, 0xFB] = ⟨10, -5, 0, 0⟩ ∧ decodePacket .three [0x58, 0x00, 0x00] = ⟨-256, 0, 0, 0⟩ ∧
    decodePacket .four [0x08, 0x00, 0x00, 0x80] = ⟨0, 0, -128, 0⟩ := by
  decide

/-- N2, C1 with its 9 bytes cut to 6 (an 8-byte queue). -/
theorem test_getmove :
    after .getmove (mouseState .C [0xFA, 0xAA, 0x00] [] (inStage .RST) 5)
      (fun t => (t.ms.stage, t.mouse.tx.contents, t.ms.ts)) = some (.SR1, [0xF3, 0xC8], 5) ∧
    after .getmove (mouseState .C [0x08, 0x01, 0x00, 0x09, 0x02, 0x00] [] (inStage .STREAM))
      (fun t => (t.rets, t.ms.prevBtns, t.ms.lastLen)) = some ([.move (some ⟨3, 0, 0, 1⟩)], 1, 0) := by
  decide

/-- The gap of section 2.9 across the wrap. -/
theorem test_expired_wraps :
    expired (inStage .ID 0xFFFFFF00) 0x00000000 100 = true ∧ expired (inStage .ID 0xFFFFFFF0) 0x10 100 = false ∧
    expired (inStage .ID 30) 130 100 = false ∧ expired (inStage .ID 30) 131 100 = true := by
  decide

/-- R105 to R109 and R202, R203 as rows: what reaches the queues and the decoder; a command by itself leaves the engine
alone (R51). -/
theorem test_byte_rows :
    after .cmdEnable (mouseState .C [] [] Ms.reset 7) (fun t => (t.mouse.tx.contents, t.ms.ts)) = some ([0xF4], 0) ∧
    after (.ledArg true false true) State.reset (fun t => t.kbd.tx.contents) = some [0x05] ∧
    after .replySelftest State.reset (fun t => t.mouse.rx.contents) = some [0xAA] ∧
    after (.mouseStatus false false true false 1) State.reset (fun t => t.mouse.rx.contents) = some [0x29] ∧
    after .scBrkPrefix State.reset (fun t => t.kb.mods) = some 0x20 := by
  decide

/-- R146, R312: a frame with the wrong parity, as a script line and as wire levels, delivers its byte with an error;
R125: the mouse may send any byte; R122: the decoder takes any code, and a
lock key's decode step returns `None` (R208, R215). -/
theorem test_codes_without_a_row :
    seen (runLine (.frameD2H .kbd 0x1C true) State.reset) (fun t => (t.kbd.rx.contents, t.notes)) =
      some ([0x1C], [.frameError .kbd]) ∧
    seen (runCode none (.wireD2H .kbd 0b11000111000#11) State.reset) (fun t => (t.kbd.rx.contents, t.notes)) =
      some ([0x1C], [.frameError .kbd]) ∧
    seen (runCode none (.deviceReply 0xFE) State.reset) (fun t => (t.mouse.rx.contents, t.notes)) =
      some ([0xFE], []) ∧
    seen (runCode none (.scancode 0x58) State.reset) (fun t => (t.kb.locks, t.kbd.tx.contents, t.rets)) =
      some (0x04, [0xED, 0x04], [.byte none]) := by
  decide

/-- R137: `KBD` with `CH = 1`. -/
theorem test_unlisted_stimulus_is_refused :
    runCode none (.stimulus 0x6800) State.reset = .refused .reservedStimulus := rfl

/-- R44, R86: the application may not push onto an RX queue. -/
theorem test_application_call_of_pushRx_is_refused :
    runCall (.stimulus 0x401C) State.reset = .refused .wrongContext := rfl

/-- R56: a Policy B packet waits in the accumulator for room for the next request. -/
theorem test_packet_waits_in_the_accumulator :
    after .getmove (mouseState .B [0xFA, 0x09, 0x01, 0x00] eight (inStage .POLL)) (fun t => (t.ms.acc, t.rets)) =
      some (⟨1, 0, 0, 1⟩, []) := by
  decide

/-- R138: the line fixes the time of the call behind it, and not of the operation in progress. -/
theorem test_fixed_time_goes_with_its_stimulus :
    after .getmove (State.paused { State.reset with hostNext := some 7 } (.len (.rx .kbd) .ret))
      (fun t => (t.hostFixed, t.hostNext, t.calls)) = some (none, none, [⟨.getMove, some 7⟩]) := by
  decide

/-! ## Witnesses: states and operands that meet the hypotheses of the obligations, clause by clause -/

/-- Before construction. -/
def unbuilt (c : Nat) : State := State.unbuilt { Config.fixture with capRxKbd := c }

theorem reset_ok : StateOk State.reset := stateOk_of (by decide)

theorem witness_DecodeOfEncodeIsIdentity :
    (Instr.frameD2H .kbd 0x00 true).wellFormed = true ∧ (Instr.frameH2D .mouse 0xFF true false).wellFormed = true ∧
      (Instr.reservedMaj 0x7FFF).wellFormed = true := by
  decide

theorem witness_DecodedCodeIsItsEncoding : decode (.stimulus 0x1801) = .ok (.edge .mouse true) := by decide

/-- A word of each kind that R137 reserves, at the ends of its range. -/
theorem witness_ReservedWordsAreRefused :
    ([0x8000, 0xFFFF, 0x0001, 0x0100, 0x0800, 0x1002, 0x1100, 0x1FFF, 0x2001, 0x2F00, 0x3001, 0x3100, 0x4101, 0x43FF,
      0x4501, 0x4F01, 0x5100, 0x5FFF, 0x6600, 0x67FF, 0x6800, 0x6F05, 0x6001, 0x64FF, 0x7000, 0x77FF, 0x7801,
      0x7900].all reservedWord) = true ∧ State.reset.built = true ∧ Chan.kbd ≠ Chan.mouse ∧
    decode (.stimulus 0x401C) = .ok (.pushRx .kbd 0x1C) ∧ decode (.stimulus 0x4D00) = .ok (.popTx .mouse) := by
  decide

theorem witness_WordsDecodeUnlessReserved :
    ([0x0000, 0x1000, 0x1801, 0x2800, 0x3000, 0x40FF, 0x4C00, 0x4F00, 0x58FF, 0x6400, 0x65FF, 0x7800].all
      fun w => !reservedWord w) = true ∧ reservedWord 0x8000 = true := by
  decide

theorem witness_StepRunsDecodedInstruction :
    (∃ s : State, s.tape = .code (some (.isr .kbd)) (.stimulus 0x1001) :: [] ∧
      decode (.stimulus 0x1001) = .ok (.edge .kbd true) ∧ s.built = true) ∧
    (∃ s : State, s.tape = .code none (.stimulus 0x0000) :: [] ∧ decode (.stimulus 0x0000) = .ok .reset ∧
      s.built = false) ∧
    (decodeTableWord 16 0x6200 = some .getkey ∧ State.reset.built = true) ∧
    (decodeTableWord 16 0x0000 = some .reset ∧ (unbuilt 8).built = false) ∧
    (decodeTableWord 16 0x6200 = some .getkey ∧ Instr.getkey ≠ .reset) ∧
    (∃ s : State, s.tape = .line (.frameD2H .kbd 0x1C true) :: [] ∧ s.built = true) ∧
    (∀ c ∈ [Code.stimulus 0x6800, .wireD2H .kbd 0x400, .wireH2D .kbd 0x400, .byte8 0x10, .deviceReply 0xFE,
        .hostCmd 0xFE, .hostArg 0x28, .scancode 0x1C],
      ∃ (s : State) (r : Reject), s.built = true ∧ s.tape = .code none c :: [] ∧ decode c = .reject r) ∧
    (∃ s : State, s.tape = .time 0xFFFFFFFF :: []) ∧
    (mouseState .C [] [] Ms.reset 0xFFFFFFFF).hostNext = some 0xFFFFFFFF :=
  ⟨⟨{ State.reset with tape := [.code (some (.isr .kbd)) (.stimulus 0x1001)] }, rfl, by decide, rfl⟩,
    ⟨{ unbuilt 8 with tape := [.code none (.stimulus 0x0000)] }, rfl, by decide, rfl⟩, by decide, by decide,
    by decide, ⟨{ State.reset with tape := [.line (.frameD2H .kbd 0x1C true)] }, rfl, rfl⟩,
    fun c hc => by
      have hr : ∃ r, decode c = .reject r := by
        simp only [List.mem_cons, List.not_mem_nil, or_false] at hc
        rcases hc with rfl | rfl | rfl | rfl | rfl | rfl | rfl | rfl <;> exact ⟨_, rfl⟩
      obtain ⟨r, hr⟩ := hr
      exact ⟨{ State.reset with tape := [.code none c] }, r, rfl, rfl, hr⟩,
    ⟨{ State.reset with tape := [.time 0xFFFFFFFF] }, rfl⟩, rfl⟩

theorem witness_WrongContextIsRefused :
    (fgOpOf .getkey = some .getKey ∧ isrQuery .kbd .getkey = none) ∧
    (fgOpOf (.lenRx .kbd) = some (.len (.rx .kbd)) ∧ isrQuery .mouse (.lenRx .kbd) = none) ∧
    (isrChanOf (.edge .kbd true) = some .kbd ∧ Chan.mouse ≠ Chan.kbd ∧
      decode (.stimulus 0x1001) = .ok (.edge .kbd true) ∧ State.reset.built = true) := by
  refine ⟨⟨rfl, rfl⟩, ⟨rfl, rfl⟩, rfl, by decide, by decide, rfl⟩

theorem witness_ResetConstructsTheBlock :
    ((unbuilt 8).built = false ∧ validCfg (unbuilt 8).cfg = true) ∧
    ((unbuilt 7).built = false ∧ validCfg (unbuilt 7).cfg = false) ∧
    ((unbuilt 4294967296).built = false ∧ validCfg (unbuilt 4294967296).cfg = false) ∧ State.reset.built = true := by
  decide

/-- The ends of the range of R10, and a capacity between two powers. -/
theorem witness_ValidationIsPowersOfTwo :
    capValid 4 = false ∧ capValid 8 = true ∧ capValid 12 = false ∧ capValid 2147483648 = true ∧
      capValid 4294967296 = false ∧ capValid 0 = false ∧ validCfg Config.fixture = true ∧
      validCfg { Config.fixture with tGapUs := 0 } = false := by
  decide

theorem witness_InvariantHoldsAtReset : ∃ s t : State, exec .reset s = .next t :=
  ⟨unbuilt 8, construct (unbuilt 8), by rfl⟩

theorem witness_InvariantIsKeptByEveryStep : StateOk State.reset ∧ ∃ t, step State.reset = .next t :=
  ⟨reset_ok, State.reset, rfl⟩

theorem witness_InvariantStatesRunSafely : StateOk State.reset := reset_ok

theorem witness_EveryInstructionAnswersANextState :
    StateOk State.reset ∧ Instr.getmove ≠ .reset ∧ isReservedRow .getmove = false :=
  ⟨reset_ok, by decide, rfl⟩

theorem witness_ReceivedBitEdges :
    (Channel.reset.status = .passive ∧ Channel.reset.legal = true) ∧
    ((chan .postSettle 0).status = .postSettle ∧ (chan .postSettle 0).legal = true) ∧
    ((State.chn (kbdState (port [] [] (chan .receiving 1))) .kbd).status = .receiving ∧
      (State.chn (kbdState (port [] [] (chan .receiving 1))) .kbd).bitcnt.toNat = 1) ∧
    ((State.chn (kbdState (port [] [] (chan .receiving 8))) .kbd).status = .receiving ∧
      (State.chn (kbdState (port [] [] (chan .receiving 8))) .kbd).bitcnt.toNat = 8) ∧
    ((State.chn (kbdState (port [] [] (chan .receiving 9))) .kbd).status = .receiving ∧
      (State.chn (kbdState (port [] [] (chan .receiving 9))) .kbd).bitcnt = 9) := by
  decide

theorem witness_StopBitEdgeDelivers :
    (State.chn (kbdState (port [] [] (chan .receiving 10))) .kbd).status = .receiving ∧
      (State.chn (kbdState (port [] [] (chan .receiving 10))) .kbd).bitcnt = 10 := by
  decide

theorem witness_SentBitEdges :
    ([1, 8, 9, 10, 11].all fun k =>
      let c := State.chn (kbdState (port [] [] (chan .sending k))) .kbd;
      c.status == .sending && c.bitcnt.toNat == k) = true := by
  decide

theorem witness_IgnoredEvents :
    (let c := State.chn (kbdState (port [] [] (chan .sendRequested 0))) .kbd;
      c.legal = true ∧ c.status = .sendRequested) ∧
    (let c := State.chn (kbdState (port [] [] { Channel.reset with timerArmed := true })) .kbd;
      c.legal = true ∧ c.status = .passive ∧ c.timerArmed = true) := by
  decide

theorem witness_KickStartsASend :
    (let p := State.port (kbdState (port [] [0xF4] Channel.reset true)) .kbd;
      p.kickPend = true ∧ p.chn.legal = true ∧ p.chn.status = .passive ∧ p.tx.len ≠ 0) ∧
    (let p := State.port (kbdState (port [] [] Channel.reset true)) .kbd;
      p.kickPend = true ∧ p.chn.legal = true ∧ p.tx.len = 0) ∧
    (let p := State.port (kbdState (port [] [0xF4] (chan .receiving 1) true)) .kbd;
      p.kickPend = true ∧ p.chn.legal = true ∧ p.chn.status ≠ .passive) := by
  decide

theorem witness_WatchdogAbandonsTheFrame :
    ([(Status.receiving, 1), (.receiving, 10), (.sending, 1), (.sending, 11)].all fun x =>
      let c := State.chn (kbdState (port [] [] (chan x.1 x.2))) .kbd;
      (c.status == .receiving || c.status == .sending) && c.timerArmed && c.legal) = true := by
  decide

theorem witness_GapExpiry :
    ([([] : List Byte), [0x04]].all fun tx =>
      let p := State.port (kbdState (port [] tx (chan .postSettle 0))) .kbd;
      p.chn.status == .postSettle && p.chn.timerArmed && p.chn.legal && (p.tx.len == 0) == (tx == [])) = true := by
  decide

theorem witness_StartPulseExpiry :
    ([([] : List Byte), [0x04]].all fun tx =>
      let p := State.port (kbdState (port [] tx (chan .sendRequested 0))) .kbd;
      p.chn.status == .sendRequested && p.chn.timerArmed && p.chn.legal && (p.tx.len == 0) == (tx == [])) = true := by
  decide

theorem witness_DisabledSourceChangesNothing :
    (State.reset.chn .kbd).timerArmed = false ∧ (State.reset.port .kbd).kickPend = false := by
  decide

theorem witness_FramesDeliverTheirByte :
    (let c := State.reset.chn .kbd;
      c.status = .passive ∧ c.legal = true) ∧
    (let c := State.chn (kbdState (port [] [] (chan .postSettle 0))) .kbd;
      c.status = .postSettle ∧ c.legal = true) ∧ 0 < 8 ∧ 7 < 8 := by
  decide

theorem witness_DeviceRowsDeliverTheirByte :
    (let c := State.chn (kbdState (port [] [] (chan .postSettle 0))) .kbd;
      c.status = .postSettle ∧ c.legal = true) ∧
    (Instr.replyId3, (0x03 : Byte)) ∈ mouseBytes false false false false 0 ∧
    (Instr.mouseStatus true true true true 7, (0xFF : Byte)) ∈ mouseBytes true true true true 7 ∧
    State.reset.mouse.chn.status = .passive ∧ State.reset.mouse.chn.legal = true := by
  decide

theorem witness_SendDrivesTheOldestByte :
    let p := State.port (kbdState (port [] [0x04] (chan .sendRequested 0))) .kbd;
    (List.replicate 10 false).length = 10 ∧ p.chn.status = .sendRequested ∧ p.chn.timerArmed = true ∧
      p.chn.legal = true ∧ p.tx.len ≠ 0 := by
  decide

theorem witness_ClockedSendCompletes :
    (let c := State.chn (kbdState (port [] [] (chan .sending 1 0xF4))) .kbd;
      c.status = .sending ∧ c.bitcnt = 1 ∧ c.parity = true) ∧
    (let p := State.port (kbdState (port [] eight (chan .sendRequested 0))) .kbd;
      p.chn.status = .sendRequested ∧ p.chn.timerArmed = true ∧ p.chn.legal = true ∧ p.tx.len ≠ 0) := by
  decide

theorem witness_InterruptSideFrame :
    isrChanOf (.edge .kbd false) = some .kbd ∧ ∃ t, exec (.edge .kbd false) State.reset = .next t :=
  ⟨rfl, edgeBody .kbd false State.reset, rfl⟩

theorem witness_ForegroundFrame :
    fgOpOf .locks = some .lockStatus ∧ ∃ t, exec .locks State.reset = .next t :=
  ⟨rfl, State.reset.returns (.mask 0), rfl⟩

theorem witness_FormsThatStoreNothing :
    Instr.locks ∈ [Instr.timer .kbd, .kick .kbd, .settle .kbd, .pulse .kbd, .popTx .kbd, .popRx .kbd, .lenRx .kbd,
      .fullRx .kbd, .lenTx .kbd, .fullTx .kbd, .getsc, .locks, .ctrls, .scExtPrefix, .scBrkPrefix, .scE1] ∧
    ∃ t, exec .locks State.reset = .next t :=
  ⟨by decide, State.reset.returns (.mask 0), rfl⟩

/-- A push of each side, an edge that delivers, an edge that does not, and a command, each with room. -/
theorem witness_FormsThatStoreOneByte :
    (∃ t, exec (.pushRx .kbd 0x5A) State.reset = .next t) ∧
    (∃ t, exec (.edge .kbd true) (kbdState (port [] [] (chan .receiving 10))) = .next t) ∧
    (∃ t, exec (.edge .kbd true) State.reset = .next t) ∧
    ¬ ((State.reset.chn .kbd).status = .receiving ∧ (State.reset.chn .kbd).bitcnt = 10) ∧
    (∃ t, exec (.pushTx .kbd 0x5A) State.reset = .next t) ∧
    (Instr.cmdEnable, Chan.mouse, (0xF4 : Byte)) ∈ byteCommands ∧ StateOk State.reset ∧
    StateOk (kbdState (port [] [] (chan .receiving 10))) ∧ State.reset.fgIdle = true ∧ (queue8 []).isFull = false :=
  ⟨⟨_, rfl⟩, ⟨_, rfl⟩, ⟨_, rfl⟩, by decide, ⟨_, rfl⟩, by decide, reset_ok, stateOk_of (by decide), by decide,
    by decide⟩

theorem witness_OnlyPushesStore :
    StateOk State.reset ∧ Instr.pushRx .kbd 0x5A ≠ .reset ∧ ∃ t, exec (.pushRx .kbd 0x5A) State.reset = .next t :=
  ⟨reset_ok, by decide, ⟨_, rfl⟩⟩

/-- Empty, one short of full, and full, with both indices about to wrap. -/
theorem witness_QueueContents :
    capValid 8 = true ∧
    (∀ q ∈ [queue8 [], { queue8 [] with w := 3, r := 0xFFFFFFFC }, { queue8 [] with w := 4, r := 0xFFFFFFFC }],
      queueOkB 8 q = true) ∧
    (queue8 []).len = 0 ∧ Queue.len { queue8 [] with w := 3, r := 0xFFFFFFFC } = 7 ∧
    Queue.len { queue8 [] with w := 4, r := 0xFFFFFFFC } = 8 := by
  decide

theorem witness_QueuesAreFifoUnderEveryInterleaving : QueueOk 8 (queue8 eight) := queueOk_of (by decide)

theorem witness_PushResult :
    (queue8 eight).isFull = true ∧ (queue8 [1, 2, 3, 4, 5, 6, 7]).isFull = false ∧
      (kbdState (port eight eight)).fgIdle = true := by
  decide

theorem witness_PopAndQueryResult :
    (kbdState (port [] [])).fgIdle = true ∧ (queue8 []).w = (queue8 []).r ∧ (queue8 [1]).w ≠ (queue8 [1]).r := by
  decide

theorem witness_EmitQueuesOrWaits :
    (kbdState (port [] [])).fgIdle = true ∧ (queue8 []).isFull = false ∧ (queue8 eight).isFull = true ∧
    ∃ s : State, s.fg = some (.push .readR (.tx .kbd) 0x5A (.emit [] .ret)) ∧ s.tape = [] ∧ s.kbd.tx.isFull = true :=
  ⟨by decide, by decide, by decide,
    (kbdState (port [] eight)).paused (.push .readR (.tx .kbd) 0x5A (.emit [] .ret)), rfl, rfl, by decide⟩

theorem witness_ByteRowsReachTheirDevice :
    State.reset.fgIdle = true ∧ State.reset.kbd.tx.isFull = false ∧
    (kbdState (port [] eight)).kbd.tx.isFull = true ∧ State.reset.mouse.tx.isFull = false ∧
    (mouseState .C [] eight Ms.reset).mouse.tx.isFull = true ∧
    (Instr.rate80, Chan.mouse, (0x50 : Byte)) ∈ byteCommands := by
  decide

theorem witness_MicroStepsMakeUpTheOperation :
    ∃ s t, StateOk s ∧ s.fg = some t :=
  ⟨State.reset.paused (.len (.rx .kbd) .ret), .len (.rx .kbd) .ret, paused_inv reset_ok.base trivial, rfl⟩

theorem witness_CallsWaitTheirTurn :
    (fgOpOf .peek = some .keyPeek ∧ State.reset.fgIdle = true ∧
      ({ State.reset with calls := [⟨.getKey, none⟩] } : State).fgIdle = false) ∧
    (∃ s : State, s.fg = none ∧ s.tape = [] ∧ s.calls = ⟨.getMove, some 5⟩ :: []) ∧
    (∃ s : State, s.built = true ∧ s.tape = .call (.stimulus 0x6100) :: []) ∧
      decode (.stimulus 0x6100) = .ok .peek :=
  ⟨⟨rfl, rfl, rfl⟩, ⟨{ State.reset with calls := [⟨.getMove, some 5⟩] }, rfl, rfl, rfl⟩,
    ⟨{ State.reset with tape := [.call (.stimulus 0x6100)] }, rfl, rfl⟩, by decide⟩

theorem witness_LockAndControlStatus : State.reset.fgIdle = true := by decide

/-- Room for two bytes, for one, and for none. -/
theorem witness_SetLocksQueuesTheLedCommand :
    (∀ tx ∈ [[1, 2, 3, 4, 5, 6], [1, 2, 3, 4, 5, 6, 7], eight],
      StateOk (kbdState (port [] tx)) ∧ (kbdState (port [] tx)).fgIdle = true) ∧
    kbdRoom (kbdState (port [] [1, 2, 3, 4, 5, 6])) 2 ∧
    (¬ kbdRoom (kbdState (port [] [1, 2, 3, 4, 5, 6, 7])) 2 ∧ kbdRoom (kbdState (port [] [1, 2, 3, 4, 5, 6, 7])) 1) ∧
    ¬ kbdRoom (kbdState (port [] eight)) 1 := by
  refine ⟨?_, ?_, ⟨?_, ?_⟩, ?_⟩
  · simp only [List.forall_mem_cons]
    exact ⟨⟨stateOk_of (by decide), by decide⟩, ⟨stateOk_of (by decide), by decide⟩,
      ⟨stateOk_of (by decide), by decide⟩, by simp⟩
  all_goals unfold kbdRoom; decide

/-- A cached character; two lock keys before a character, with room for all their bytes, for three, for one and for none;
and a wait with two bytes to push. -/
theorem witness_PeekAndGetKey :
    (let s := kbdState (port [] []) { Kb.reset with cache := 0x41, cacheValid := true };
      s.fgIdle = true ∧ s.kb.cacheValid = true) ∧
    (∀ tx ∈ [[1, 2, 3, 4], [1, 2, 3, 4, 5], [1, 2, 3, 4, 5, 6, 7], eight],
      let s := kbdState (port [0x58, 0x77, 0x1C] tx);
      StateOk s ∧ s.fgIdle = true ∧ s.kb.cacheValid = false) ∧
    (∃ s : State, StateOk s ∧ s.tape = [] ∧
      s.fg = some (.push .readR (.tx .kbd) 0xED (.emit [0x04] (.nextChar true))) ∧ kbdFree s = 1) ∧
    [(0x04 : Byte)].length ≤ 1 := by
  refine ⟨by decide, ?_, ⟨(kbdState (port [0x1C] [1, 2, 3, 4, 5, 6, 7])).paused
    (.push .readR (.tx .kbd) 0xED (.emit [0x04] (.nextChar true))),
    paused_inv (baseOk_of (by decide)) ⟨rfl, rfl, .inl rfl⟩, rfl, rfl, by unfold kbdFree; decide⟩, by decide⟩
  simp only [List.forall_mem_cons]
  exact ⟨⟨stateOk_of (by decide), by decide, rfl⟩, ⟨stateOk_of (by decide), by decide, rfl⟩,
    ⟨stateOk_of (by decide), by decide, rfl⟩, ⟨stateOk_of (by decide), by decide, rfl⟩, by simp⟩

theorem witness_PrefixFlags : (0x1C : Byte) ≠ 0xE0 ∧ (0x1C : Byte) ≠ 0xF0 := by decide

/-- A break with each extended flag, and a make with each. -/
theorem witness_ModifierAndLockKeys :
    (∀ m ∈ [(0x20 : Byte), 0x30], m.getLsbD 5 = true) ∧ (0x12 : Byte) ≠ 0xE0 ∧ (0x12 : Byte) ≠ 0xF0 ∧
    ((0x00 : Byte).getLsbD 5 = false ∧ (0x00 : Byte).getLsbD 4 = false) ∧
    ((0x10 : Byte).getLsbD 5 = false ∧ (0x10 : Byte).getLsbD 4 = true) := by
  decide

/-- The ends of the keypad range and of the main range. -/
theorem witness_CharacterCodes :
    ((0x10 : Byte).getLsbD 5 = false ∧ (0x10 : Byte).getLsbD 4 = true ∧
      (0x75 : Byte) ∉ [(0x12 : Byte), 0x59, 0x14, 0x11]) ∧
    ((0x00 : Byte).getLsbD 5 = false ∧ (0x00 : Byte).getLsbD 4 = false) ∧
    (∀ c ∈ [(0x00 : Byte), 0x68, 0x69, 0x7D, 0x83, 0x84, 0xFF], c ≠ 0xE0 ∧ c ≠ 0xF0 ∧
      c ∉ [(0x12 : Byte), 0x59, 0x14, 0x11, 0x58, 0x77, 0x7E]) := by
  decide

theorem witness_ScancodeRowsAreDecodeSteps : State.reset.fgIdle = true := by decide

theorem witness_UninitializedSendsReset :
    let s := mouseState .C [1, 2, 3] [1, 2, 3, 4, 5, 6, 7] (inStage .U);
    StateOk s ∧ s.fgIdle = true ∧ s.ms.stage = .U ∧ mouseRoom s 1 :=
  ⟨stateOk_of (by decide), by decide, rfl, by unfold mouseRoom; decide⟩

theorem witness_ExpectedReplyAdvances :
    let s := mouseState .C [0xFA, 0xFA, 0x00] [1, 2, 3, 4, 5, 6] (inStage .SR2);
    StateOk s ∧ s.fgIdle = true ∧ (Stage.SR2, [(0xFA : Byte), 0xFA], [(0xF3 : Byte), 0x50], Stage.SR3) ∈ awaitTable ∧
      s.ms.stage = .SR2 ∧ s.mouse.rx.contents = [0xFA, 0xFA] ++ [0x00] ∧ mouseRoom s 2 :=
  ⟨stateOk_of (by decide), by decide, by decide, rfl, by decide, by unfold mouseRoom; decide⟩

/-- Each policy with room for the command; Policy A with none. -/
theorem witness_IdentifyAndEnable :
    (∀ p ∈ [Policy.A, .B, .C],
      let s := mouseState p [0xFA, 0x03, 0x11] [1, 2, 3, 4, 5, 6, 7] (inStage .ID);
      StateOk s ∧ s.fgIdle = true ∧ s.ms.stage = .ID ∧ s.mouse.rx.contents = 0xFA :: 0x03 :: [0x11] ∧
        mouseRoom s 1 ∧ s.cfg.policy = p) ∧
    (let s := mouseState .A [0xFA, 0x00] eight (inStage .ID);
      StateOk s ∧ s.fgIdle = true ∧ s.ms.stage = .ID ∧ s.mouse.rx.contents = 0xFA :: 0x00 :: [] ∧ s.cfg.policy = .A) ∧
    (let s := mouseState .C [0xFA] eight (inStage .ENA);
      StateOk s ∧ s.fgIdle = true ∧ s.ms.stage = .ENA ∧ s.mouse.rx.contents = 0xFA :: []) := by
  refine ⟨?_, ⟨stateOk_of (by decide), by decide, rfl, by decide, rfl⟩, stateOk_of (by decide), by decide, rfl,
    by decide⟩
  simp only [List.forall_mem_cons]
  refine ⟨⟨stateOk_of (by decide), by decide, rfl, by decide, ?_, rfl⟩,
    ⟨stateOk_of (by decide), by decide, rfl, by decide, ?_, rfl⟩,
    ⟨stateOk_of (by decide), by decide, rfl, by decide, ?_, rfl⟩, by simp⟩
  all_goals unfold mouseRoom; decide

/-- A wrong reply; too short a reply one past its deadline, and at it. -/
theorem witness_FailedReplyReturnsToU :
    (let s := mouseState .C [0xFA, 0x04] [] (inStage .ID);
      StateOk s ∧ s.fgIdle = true ∧ (Stage.ID, 2, s.cfg.tIdentMs) ∈ replyTable s.cfg ∧ s.ms.stage = .ID ∧
        2 ≤ s.mouse.rx.contents.length ∧ ¬ replyExpected .ID (s.mouse.rx.contents.take 2)) ∧
    (let s := mouseState .C [0xFA, 0xAA] [] (inStage .RST) 501;
      StateOk s ∧ s.fgIdle = true ∧ (Stage.RST, 3, s.cfg.tResetMs) ∈ replyTable s.cfg ∧ s.ms.stage = .RST ∧
        s.mouse.rx.contents.length < 3 ∧ s.cfg.tResetMs.toNat < (s.called.readNow.1 - s.ms.ts).toNat) ∧
    (let s := mouseState .C [] [] (inStage .ENA 100) 150;
      StateOk s ∧ s.fgIdle = true ∧ (Stage.ENA, 1, s.cfg.tRateMs) ∈ replyTable s.cfg ∧ s.ms.stage = .ENA ∧
        s.mouse.rx.contents.length < 1 ∧ (s.called.readNow.1 - s.ms.ts).toNat ≤ s.cfg.tRateMs.toNat) := by
  refine ⟨⟨stateOk_of (by decide), by decide, by decide, rfl, by decide, ?_⟩,
    ⟨stateOk_of (by decide), by decide, by decide, rfl, by decide, by decide⟩,
    ⟨stateOk_of (by decide), by decide, by decide, rfl, by decide, by decide⟩⟩
  unfold replyExpected
  decide

/-- A reported packet, an unreported one, and a byte that is no acknowledgement, under each policy; that byte under Policy
B with a full TX queue. -/
theorem witness_PolledPacket :
    (∀ p ∈ [Policy.A, .B], ∀ a ∈ [(0xFA : Byte), 0xFE],
      let s := mouseState p (a :: [0x09, 0x00, 0x00, 0x22]) [1, 2, 3, 4, 5, 6, 7] (inStage .POLL 0 .three 1);
      StateOk s ∧ s.fgIdle = true ∧ s.ms.stage = .POLL ∧ [(0x09 : Byte), 0x00, 0x00].length = s.ms.psize.bytes ∧
        s.mouse.rx.contents = a :: ([0x09, 0x00, 0x00] ++ [0x22]) ∧ mouseRoom s 1 ∧ s.cfg.policy = p) ∧
    (let s := mouseState .B [0xFE, 0x09, 0x00, 0x00] eight (inStage .POLL);
      StateOk s ∧ s.fgIdle = true ∧ s.ms.stage = .POLL ∧ [(0x09 : Byte), 0x00, 0x00].length = s.ms.psize.bytes ∧
        s.mouse.rx.contents = 0xFE :: ([0x09, 0x00, 0x00] ++ []) ∧ s.cfg.policy = .B) ∧
    ¬ reportable (decodePacket .three [0x09, 0x00, 0x00]) 1 ∧ reportable (decodePacket .three [0x09, 0x00, 0x00]) 0 := by
  refine ⟨?_, ⟨stateOk_of (by decide), by decide, rfl, by decide, by decide, rfl⟩, by unfold reportable; decide,
    by unfold reportable; decide⟩
  simp only [List.forall_mem_cons]
  refine ⟨⟨?_, ?_, by simp⟩, ⟨?_, ?_, by simp⟩, by simp⟩
  all_goals exact ⟨stateOk_of (by decide), by decide, rfl, by decide, by decide, by unfold mouseRoom; decide, rfl⟩

/-- One byte short of a packet, at the deadline and past it, and a loop resumed with and without a packet. -/
theorem witness_PollWithoutAPacket :
    (∀ t ∈ [30, 31],
      let s := mouseState .B [0xFA, 0x08, 0x00] [] (inStage .POLL) t;
      StateOk s ∧ s.fgIdle = true ∧ s.ms.stage = .POLL ∧ s.mouse.rx.len.toNat ≤ s.ms.psize.bytes ∧
        s.cfg.policy = .B ∧ (t = 31 ↔ s.cfg.tReadMs.toNat < (s.called.readNow.1 - s.ms.ts).toNat)) ∧
    (let s := mouseState .A [0xFA, 0x08, 0x00] [1, 2, 3, 4, 5, 6, 7] (inStage .POLL);
      StateOk s ∧ s.fgIdle = true ∧ s.ms.stage = .POLL ∧ s.mouse.rx.len.toNat ≤ s.ms.psize.bytes ∧
        s.cfg.policy = .A ∧ mouseRoom s 1 ∧
        (s.called.readNow.2.readNow.1 - s.called.readNow.1).toNat ≤ s.cfg.tReadMs.toNat) ∧
    (∃ s : State, StateOk s ∧ s.tape = [] ∧ s.ms.stage = .POLL ∧ s.cfg.policy = .A ∧
      s.fg = some (.len (.rx .mouse) .poll) ∧ s.mouse.rx.len.toNat ≤ s.ms.psize.bytes) ∧
    (∃ s : State, StateOk s ∧ s.tape = [] ∧ s.ms.stage = .POLL ∧ s.cfg.policy = .A ∧
      s.fg = some (.len (.rx .mouse) .poll) ∧ s.mouse.rx.contents = 0xFA :: ([0x08, 1, 0] ++ [])) := by
  refine ⟨?_, ⟨stateOk_of (by decide), by decide, rfl, by decide, rfl, by unfold mouseRoom; decide, by decide⟩,
    ⟨(mouseState .A [0xFA, 0x08, 0x00] [] (inStage .POLL)).paused (.len rxMouse .poll),
      paused_inv (baseOk_of (by decide)) ⟨rfl, by decide⟩, rfl, rfl, rfl, rfl, by decide⟩,
    ⟨(mouseState .A [0xFA, 0x08, 0x01, 0x00] [] (inStage .POLL)).paused (.len rxMouse .poll),
      paused_inv (baseOk_of (by decide)) ⟨rfl, by decide⟩, rfl, rfl, rfl, rfl, by decide⟩⟩
  simp only [List.forall_mem_cons]
  refine ⟨⟨stateOk_of (by decide), by decide, rfl, by decide, rfl, by decide⟩,
    ⟨stateOk_of (by decide), by decide, rfl, by decide, rfl, by decide⟩, by simp⟩

/-- An empty queue, and a partial packet at the timeout and past it. -/
theorem witness_PartialPacketIsDroppedAfterTheTimeout :
    (∀ x ∈ [(([] : List Byte), 0, 0), ([0x08], 1, 130), ([0x08], 1, 131)],
      let s := mouseState .C x.1 [] (inStage .STREAM 100 .three 0 x.2.1) x.2.2;
      StateOk s ∧ s.fgIdle = true ∧ s.ms.stage = .STREAM ∧ s.mouse.rx.len.toNat < s.ms.psize.bytes ∧
        (x.2.2 = 131 ↔ s.mouse.rx.len ≠ 0 ∧ s.cfg.tReadMs.toNat < (s.called.readNow.1 - s.ms.ts).toNat)) := by
  simp only [List.forall_mem_cons]
  exact ⟨⟨stateOk_of (by decide), by decide, rfl, by decide, by decide⟩,
    ⟨stateOk_of (by decide), by decide, rfl, by decide, by decide⟩,
    ⟨stateOk_of (by decide), by decide, rfl, by decide, by decide⟩, by simp⟩

/-- Exactly one packet, and two with a byte over. -/
theorem witness_StreamedPacketsAreCoalesced :
    (∀ rx ∈ [[(0x08 : Byte), 1, 0], [0x08, 1, 0, 0x09, 2, 0, 0x08]],
      let s := mouseState .C rx [] (inStage .STREAM);
      StateOk s ∧ s.fgIdle = true ∧ s.ms.stage = .STREAM ∧ s.ms.psize.bytes ≤ s.mouse.rx.len.toNat) := by
  simp only [List.forall_mem_cons]
  exact ⟨⟨stateOk_of (by decide), by decide, rfl, by decide⟩, ⟨stateOk_of (by decide), by decide, rfl, by decide⟩,
    by simp⟩

theorem witness_ConfigurationNeverChanges : ∃ t, step State.reset = .next t := ⟨State.reset, rfl⟩

/-- A reply stage with room for one of two bytes and for none, each policy's request with no room, and waits of every kind
resumed with room and without. -/
theorem witness_MouseCommandsWaitForRoom :
    (∀ x ∈ [(eight, 0), ([1, 2, 3, 4, 5, 6, 7], 1)],
      let s := mouseState .C [0xFA, 0xFA, 0x00] x.1 (inStage .SR2);
      StateOk s ∧ s.fgIdle = true ∧ nextCommand s = some ([0xF3, 0x50], .toStage .SR3, s.ms, [0x00]) ∧
        s.mouse.tx.len.toNat + x.2 = s.cfg.capTxMouse) ∧
    (let s := mouseState .A [0xFA] eight (inStage .POLL);
      StateOk s ∧ nextCommand s = some ([0xEB], .pollA, s.ms, [0xFA])) ∧
    (let s := mouseState .B [0xFA, 0x09, 1, 0] eight (inStage .POLL);
      StateOk s ∧ nextCommand s = some ([0xEB], .reportB, { s.ms with acc := ⟨1, 0, 0, 1⟩ }, [])) ∧
    (∀ tx ∈ [eight, [1, 2, 3, 4, 5, 6]],
      (∃ s : State, StateOk s ∧ s.tape = [] ∧
        s.fg = some (.push .readR (.tx .mouse) 0xF3 (.emit [0x50] (.stamp (.toStage .SR3)))) ∧
        s.mouse.tx = queue8 tx) ∧
      (∃ s : State, StateOk s ∧ s.tape = [] ∧
        s.fg = some (.push .readR (.tx .mouse) 0xEB (.emit [] (.stamp .pollA))) ∧ s.mouse.tx = queue8 tx) ∧
      (∃ s : State, StateOk s ∧ s.tape = [] ∧
        s.fg = some (.push .readR (.tx .mouse) 0xEB (.emit [] (.stamp .reportB))) ∧ s.mouse.tx = queue8 tx)) ∧
    [(0x50 : Byte)].length ≤ 1 := by
  have wait : ∀ (pol : Policy) (tx : List Byte) (st : Stage) (b : Byte) (rest : List Byte) (th : SendThen),
      baseOkB (mouseState pol [] tx (inStage st)) = true → sendThenOk pol th = true →
      ∃ s : State, StateOk s ∧ s.tape = [] ∧ s.fg = some (.push .readR (.tx .mouse) b (.emit rest (.stamp th))) ∧
        s.mouse.tx = queue8 tx := fun pol tx st b rest th hb ht =>
    ⟨(mouseState pol [] tx (inStage st)).paused (.push .readR (.tx .mouse) b (.emit rest (.stamp th))),
      paused_inv (baseOk_of hb) ⟨rfl, ht, .inl rfl⟩, rfl, rfl, rfl⟩
  simp only [List.forall_mem_cons]
  refine ⟨⟨⟨stateOk_of (by decide), by decide, by rfl, by decide⟩, ⟨stateOk_of (by decide), by decide, by rfl, by decide⟩,
      by simp⟩, ⟨stateOk_of (by decide), by rfl⟩, ⟨stateOk_of (by decide), by rfl⟩, ⟨?_, ?_, by simp⟩, by decide⟩
  all_goals exact ⟨wait .C _ .SR2 0xF3 [0x50] _ (by decide) rfl, wait .A _ .POLL 0xEB [] _ (by decide) rfl,
    wait .B _ .POLL 0xEB [] _ (by decide) rfl⟩

end Sys2Proof.Tests
end

/-! PROOFS. No run from a state of the invariant faults (spec/00_scope.md R25, 60_exceptions.md R316): every outcome of
an instruction, of an input and of a step is a next state of the invariant or a refusal. -/

namespace Sys2Proof.Machine

open Sys2Proof

/-! ## Instructions -/

/-- The three reserved rows are refused in every state (R26, R137). -/
theorem exec_reservedRow {i : Instr} (hrow : isReservedRow i = true) (s : State) :
    exec i s = .refused .reservedStimulus := by
  cases i with
  | reservedMaj _ | reservedKbdMin _ | reservedMouseCh0 _ => rfl
  | _ => cases hrow

/-- An instruction that is neither construction nor reserved answers a next state of the invariant. -/
theorem exec_inv {i : Instr} {s : State} (h : StateOk s) (hreset : i ≠ .reset) (hrow : isReservedRow i = false) :
    ∃ t, exec i s = .next t ∧ StateOk t := by
  cases hop : fgOpOf i with
  | some op => rw [exec_eq_callOp hop]; exact callOp_inv h op
  | none =>
    cases i with
    | reset => exact absurd rfl hreset
    | reservedMaj _ | reservedKbdMin _ | reservedMouseCh0 _ => cases hrow
    | edge ch d => exact edgeHandler_inv h ch d
    | timer ch | settle ch | pulse ch => exact timerHandler_inv h ch
    | kick ch => exact kickHandler_inv h ch
    | pushRx ch b => exact ⟨_, rfl, isrPush_inv h ch b⟩
    | popTx ch => exact ⟨_, rfl, isrPop_inv h ch⟩
    | rxbyte ch _ | rxframe ch _ _ _ _ | txclock ch _ _ | frameD2H ch _ _ => exact runEdges_inv h ch _
    | mouseStatus _ _ _ _ _ | replyAck | replySelftest | replyId0OrReset3 | replyId3 =>
      exact runEdges_inv h .mouse _
    | frameH2D ch _ _ _ => exact andThen_ok (timerHandler_inv h ch) fun _ hu => runEdges_inv hu ch _
    | _ => cases hop  -- an instruction that calls a foreground operation

/-- Settles O15: the case split is on who runs the instruction, a foreground operation or a handler. -/
theorem everyInstructionAnswersANextState : Obligations.EveryInstructionAnswersANextState :=
  fun _ _ h hreset hrow => exec_inv h hreset hrow

/-! ## Inputs and steps -/

/-- A next state of the invariant, or a refusal. -/
def Sound : Host.Outcome State Fault Refusal → Prop
  | .next t => StateOk t
  | .fault _ => False
  | .refused _ => True

theorem Sound.ofNext {o : Host.Outcome State Fault Refusal} (h : ∃ t, o = .next t ∧ StateOk t) : Sound o := by
  obtain ⟨t, rfl, ht⟩ := h
  exact ht

theorem exec_sound {s : State} (h : StateOk s) (i : Instr) : Sound (exec i s) := by
  by_cases hreset : i = .reset
  · subst hreset
    show Sound (execReset s)
    rw [execReset, if_pos h.base.built]
    trivial
  · cases hrow : isReservedRow i with
    | false => exact .ofNext (exec_inv h hreset hrow)
    | true => rw [exec_reservedRow hrow]; trivial

/-- What a handler asks of a queue only adds to the trace. -/
theorem isrQuery_inv {ch : Chan} {i : Instr} {f : State → State} (hf : isrQuery ch i = some f) {s : State}
    (h : StateOk s) : StateOk (f s) := by
  cases i with
  | lenRx c | fullRx c | lenTx c | fullTx c =>
    obtain ⟨_, ⟨⟩⟩ := Option.ite_none_right_eq_some.1 hf
    exact isrReturns_inv h _
  | _ => cases hf

theorem execFrom_sound {s : State} (h : StateOk s) (c : Context) (i : Instr) : Sound (execFrom c i s) := by
  cases c with
  | fg =>
    simp only [execFrom]
    split
    · exact exec_sound h i
    · trivial
  | isr ch =>
    simp only [execFrom]
    split
    · rename_i f hf
      exact isrQuery_inv hf h
    · split
      · exact exec_sound h i
      · trivial

theorem runInstr_sound {s : State} (h : StateOk s) (issuer : Option Context) (i : Instr) :
    Sound (runInstr issuer i s) := by
  rw [runInstr_built (.inl h.base.built)]
  cases issuer with
  | none => exact exec_sound h i
  | some c => exact execFrom_sound h c i

theorem whenForeground_sound {s : State} {o : Host.Outcome State Fault Refusal} (ho : Sound o)
    (issuer : Option Context) : Sound (whenForeground issuer s o) := by
  unfold whenForeground
  split
  · trivial
  · split
    · exact ho
    · exact ho
    · trivial

theorem runCode_sound {s : State} (h : StateOk s) (issuer : Option Context) (c : Code) :
    Sound (runCode issuer c s) := by
  unfold runCode
  split
  · exact runInstr_sound h issuer _
  · split
    · trivial
    · exact runInstr_sound h issuer _
    · exact whenForeground_sound (.ofNext (callOp_inv h _)) issuer

theorem callInstr_sound {s : State} (h : StateOk s) (i : Instr) : Sound (callInstr i s) := by
  unfold callInstr
  split
  · rw [whenBuilt_eq (.inl h.base.built)]
    exact h.held _
  · exact runInstr_sound h (some .fg) i

theorem runCall_sound {s : State} (h : StateOk s) (c : Code) : Sound (runCall c s) := by
  unfold runCall
  split
  · exact callInstr_sound h _
  · split
    · trivial
    · exact callInstr_sound h _
    · exact whenForeground_sound (o := .next (s.held (.decodeByte _))) (h.held _) (some .fg)

theorem runInput_sound {s : State} (h : StateOk s) (i : Input) : Sound (runInput i s) := by
  cases i with
  | code issuer c => exact runCode_sound h issuer c
  | line i => exact runInstr_sound h none i
  | time t => exact h.withTime (some t)
  | call c => exact runCall_sound h c
  | fg => exact .ofNext (fgMicro_inv h)

/-- Every step from the invariant answers a next state of the invariant, or is refused. -/
theorem step_sound {s : State} (h : StateOk s) : Sound (step s) := by
  cases ht : s.tape with
  | nil => rw [step_nil ht]; exact .ofNext (fgTurn_inv h)
  | cons i rest => rw [step_cons ht]; exact runInput_sound (h.withTape rest) i

/-! ## Runs -/

/-- Every run from the invariant ends in a state of the invariant, or in a refusal. -/
theorem run_sound (k : Nat) {s : core.State} (h : StateOk s) : Sound (core.run k s) := by
  induction k generalizing s with
  | zero => exact h
  | succ k ih =>
    have hs : Sound (core.step s) := step_sound h
    unfold Host.Core.run
    split
    · rename_i t ht
      rw [ht] at hs
      exact ih hs
    · rename_i r hr
      rw [hr] at hs
      exact hs
    · trivial

/-- Settles O14, by induction on the length of the run: a step from the invariant is sound. -/
theorem invariantStatesRunSafely : Obligations.InvariantStatesRunSafely := by
  intro s h k f hf
  have hr := run_sound k h
  rw [hf] at hr
  exact hr

end Sys2Proof.Machine

/-! PROOFS. Reserved stimulus words, RESET after construction and stimuli from a context that does not own them are
refused (spec/00_scope.md R26, 20_memory.md R86, 30_encoding.md R137). -/

namespace Sys2Proof.Machine

open Sys2Proof

/-! ## Reserved words -/

theorem when_eq_ok {c : Bool} {i j : Instr} {r : Reject} (h : Decoded.when c i r = .ok j) : c = true ∧ j = i := by
  cases c with
  | true => cases h; exact ⟨rfl, rfl⟩
  | false => cases h

/-- A QOP word that decodes has operand byte 0 unless it is one of the two pushes (R134). -/
theorem decodeQop_ok {ch : Chan} {mn : Nat} {imm : Byte} {i : Instr} (hmn : mn < 8)
    (h : decodeQop ch mn imm = .ok i) : mn % 4 = 0 ∨ imm = 0 := by
  match mn with
  | 0 | 4 => exact .inl rfl
  | 1 | 2 | 3 | 5 | 6 | 7 => exact .inr (of_decide_eq_true (when_eq_ok h).1)
  | _ + 8 => omega

/-- A KBD word that decodes has operand byte 0 unless it is SETLOCKS (R135). -/
theorem decodeKbd_ok {mn : Nat} {imm : Byte} {i : Instr} (hmn : mn < 6)
    (h : decodeKbd mn imm = .ok i) : mn = 5 ∨ imm = 0 := by
  match mn with
  | 0 | 1 | 2 | 3 | 4 => exact .inr (of_decide_eq_true (when_eq_ok h).1)
  | 5 => exact .inl rfl
  | _ + 6 => omega

/-- An EDGE word's operand byte above its level bit is 0 (R132). -/
theorem toNat_lt_two_of_extractLsb' {imm : Byte} (h : imm.extractLsb' 1 7 = 0) : imm.toNat < 2 := by
  have hhigh : imm.toNat >>> 1 % 2 ^ 7 = 0 := congrArg BitVec.toNat h
  rw [Nat.shiftRight_eq_div_pow] at hhigh
  omega

/-- A reserved word decodes to nothing but a reserved row. -/
theorem isReservedRow_of_reservedWord {w : BitVec 16} {i : Instr} (hw : reservedWord w = true)
    (hd : decode (.stimulus w) = .ok i) : isReservedRow i = true := by
  by_cases hw0 : w = 0
  · rw [hw0] at hw
    exact absurd hw (by decide)
  have hmn : (w.extractLsb' 8 3).toNat < 8 := (w.extractLsb' 8 3).isLt
  simp only [decode, decodeStimulus] at hd
  simp only [reservedWord] at hw
  generalize (w.extractLsb' 8 3).toNat = mn at hd hw hmn
  generalize w.extractLsb' 0 8 = imm at hd hw
  generalize w.getLsbD 11 = c at hd hw
  generalize (w.extractLsb' 12 4).toNat = maj at hd hw
  split at hd
  case h_1 => exact absurd (of_decide_eq_true (when_eq_ok hd).1) hw0
  case h_2 =>
    obtain ⟨hmn0, hhigh⟩ : mn = 0 ∧ imm.extractLsb' 1 7 = 0 := by simpa using (when_eq_ok hd).1
    have himm := toNat_lt_two_of_extractLsb' hhigh
    have hfield : mn ≠ 0 ∨ 2 ≤ imm.toNat := by simpa using hw
    omega
  case h_3 | h_4 =>
    obtain ⟨rfl, rfl⟩ : mn = 0 ∧ imm = 0 := by simpa using (when_eq_ok hd).1
    simp at hw
  case h_5 =>
    rcases decodeQop_ok hmn hd with h | h <;> simp [h] at hw
  case h_6 =>
    have hmn0 : mn = 0 := of_decide_eq_true (when_eq_ok hd).1
    simp [hmn0] at hw
  case h_7 =>
    cases c with
    | true => cases hd
    | false =>
      by_cases h6 : 6 ≤ mn
      · rw [if_neg (by simp), if_pos h6] at hd
        cases hd
        rfl
      · rw [if_neg (by simp), if_neg h6] at hd
        rcases decodeKbd_ok (by omega) hd with h | h <;> simp [h, h6] at hw
  case h_8 =>
    cases c with
    | false => cases hd; rfl
    | true =>
      by_cases hmn0 : mn = 0
      · rw [if_neg (by simp), if_pos hmn0] at hd
        have himm : imm = 0 := of_decide_eq_true (when_eq_ok hd).1
        simp [hmn0, himm] at hw
      · rw [if_neg (by simp), if_neg hmn0] at hd
        cases hd
  case h_9 => cases hd; rfl

/-! ## Refusals -/

/-- A reserved row belongs to no agent. -/
theorem reservedRow_unowned {i : Instr} (hrow : isReservedRow i = true) :
    fgOpOf i = none ∧ ∀ ch, isrQuery ch i = none := by
  cases i with
  | reservedMaj _ | reservedKbdMin _ | reservedMouseCh0 _ => exact ⟨rfl, fun _ => rfl⟩
  | _ => cases hrow

/-- An instruction that is refused to its own agent, and is no queue query, is refused whoever issues it. -/
theorem runInstr_refused {i : Instr} {s : State} (hx : ∃ r, exec i s = .refused r)
    (hq : ∀ ch, isrQuery ch i = none) (issuer : Option Context) : ∃ r, runInstr issuer i s = .refused r := by
  obtain ⟨r, hx⟩ := hx
  unfold runInstr whenBuilt
  split
  · match issuer with
    | none => exact ⟨r, hx⟩
    | some .fg =>
      simp only [execIssued, execFrom, hx]
      split <;> exact ⟨_, rfl⟩
    | some (.isr ch) =>
      simp only [execIssued, execFrom, hq, hx]
      split <;> exact ⟨_, rfl⟩
  · exact ⟨_, rfl⟩

/-- The application's call of an instruction that calls no operation is the foreground's issue of it. -/
theorem runCall_eq_runInstr {c : Code} {i : Instr} (hd : decode c = .ok i) (hop : fgOpOf i = none) (s : State) :
    runCall c s = runInstr (some .fg) i s := by
  simp [runCall, hd, callInstr, hop]

/-- A word that is refused to its own agent is refused to every issuer and caller. -/
theorem word_refused {w : BitVec 16} {i : Instr} {s : State} (hd : decode (.stimulus w) = .ok i)
    (hx : ∃ r, exec i s = .refused r) (hop : fgOpOf i = none) (hq : ∀ ch, isrQuery ch i = none)
    (issuer : Option Context) :
    (∃ r, runCode issuer (.stimulus w) s = .refused r) ∧ ∃ r, runCall (.stimulus w) s = .refused r := by
  rw [runCode_ok hd, runCall_eq_runInstr hd hop]
  exact ⟨runInstr_refused hx hq issuer, runInstr_refused hx hq (some .fg)⟩

theorem reservedWord_refused {w : BitVec 16} (hw : reservedWord w = true) (issuer : Option Context) (s : State) :
    (∃ r, runCode issuer (.stimulus w) s = .refused r) ∧ ∃ r, runCall (.stimulus w) s = .refused r := by
  cases hd : decode (.stimulus w) with
  | ok i =>
    have hrow := isReservedRow_of_reservedWord hw hd
    obtain ⟨hop, hq⟩ := reservedRow_unowned hrow
    exact word_refused hd ⟨_, exec_reservedRow hrow s⟩ hop hq issuer
  | reject r =>
    exact ⟨⟨_, runCode_reserved hd issuer s⟩, .reservedStimulus, by simp [runCall, hd, Code.unlisted]⟩

/-- RESET after construction is refused (R346). -/
theorem execReset_built {s : State} (hb : s.built = true) : execReset s = .refused .resetAfterConstruction :=
  if_pos hb

/-- An instruction that an interrupt context owns is refused to the foreground. -/
theorem execFrom_fg_refused {i : Instr} {ch : Chan} (h : isrChanOf i = some ch) (s : State) :
    execFrom .fg i s = .refused .wrongContext := by
  simp [execFrom, fgMayIssue, h]

/-- An instruction that an interrupt context neither owns nor may query is refused to it. -/
theorem execFrom_isr_refused {i : Instr} {ch : Chan} (hq : isrQuery ch i = none) (hc : isrChanOf i ≠ some ch)
    (s : State) : execFrom (.isr ch) i s = .refused .wrongContext := by
  simp [execFrom, hq, hc]

/-- The application's call of an instruction that an interrupt context owns is refused. -/
theorem runCall_isrOwned_refused {c : Code} {i : Instr} {ch : Chan} (hd : decode c = .ok i)
    (hop : fgOpOf i = none) (hc : isrChanOf i = some ch) (s : State) : ∃ r, runCall c s = .refused r := by
  rw [runCall_eq_runInstr hd hop]
  unfold runInstr whenBuilt
  split
  · exact ⟨_, execFrom_fg_refused hc s⟩
  · exact ⟨_, rfl⟩

/-- An interrupt context that does not own a QOP's channel is refused the interrupt side's pushes, pops and queries of
that channel (R86). -/
theorem execFrom_otherChannel_refused {c ch : Chan} (hne : c ≠ ch) (b : Byte) (s : State) :
    ∀ i ∈ [Instr.pushRx ch b, .popTx ch, .lenRx ch, .fullRx ch, .lenTx ch, .fullTx ch],
      execFrom (.isr c) i s = .refused .wrongContext := by
  have owned : ∀ {i : Instr}, isrChanOf i = some ch → isrChanOf i ≠ some c := fun h e =>
    hne (Option.some.inj (e.symm.trans h))
  simp only [List.forall_mem_cons]
  refine ⟨execFrom_isr_refused rfl (owned rfl) s, execFrom_isr_refused rfl (owned rfl) s, ?_, ?_, ?_, ?_, by simp⟩
  all_goals exact execFrom_isr_refused (by simp [isrQuery, hne.symm]) (by simp [isrChanOf]) s

/-- Settles O3: a reserved word decodes to a reserved row or to nothing, and a QOP is refused by who owns it. -/
theorem reservedWordsAreRefused : Obligations.ReservedWordsAreRefused := by
  refine ⟨fun w issuer s hw => reservedWord_refused hw issuer s, fun issuer s hb => ?_, fun ch b s => ?_, fun s => ?_⟩
  · exact word_refused (i := .reset) (by decide) ⟨_, execReset_built hb⟩ rfl (fun _ => rfl) issuer
  · refine ⟨execFrom_fg_refused rfl s, execFrom_fg_refused rfl s, fun c hd => ?_, fun c => ⟨?_, ?_, fun hne => ?_⟩⟩
    · rcases hd with hd | hd
      · exact runCall_isrOwned_refused hd rfl rfl s
      · exact runCall_isrOwned_refused hd rfl rfl s
    · exact execFrom_isr_refused rfl (by simp [isrChanOf]) s
    · exact execFrom_isr_refused rfl (by simp [isrChanOf]) s
    · exact execFrom_otherChannel_refused hne b s
  · exact ⟨fun _ => exec_reservedRow rfl s, fun _ => exec_reservedRow rfl s, fun _ => exec_reservedRow rfl s⟩

end Sys2Proof.Machine

/-! PROOFS. What validation accepts (spec/00_scope.md R9, R10), and the order in which called operations run
(00_scope.md R7, 30_encoding.md R138). -/

namespace Sys2Proof.Machine

open Sys2Proof

/-! ## Validation -/

theorem isPow2_two_pow (k : Nat) : isPow2 (2 ^ k) = true := by
  have hand : 2 ^ k &&& (2 ^ k - 1) = 0 := by
    rw [Nat.and_two_pow_sub_one_eq_mod, Nat.mod_self]
  simp [isPow2, hand]

theorem capValid_two_pow {k : Nat} (hlow : 3 ≤ k) (hhigh : k ≤ 31) : capValid (2 ^ k) = true := by
  have h8 : 2 ^ 3 ≤ 2 ^ k := Nat.pow_le_pow_right (by decide) hlow
  have h31 : 2 ^ k ≤ 2 ^ 31 := Nat.pow_le_pow_right (by decide) hhigh
  simp only [capValid, isPow2_two_pow, Bool.true_and, Bool.and_eq_true, decide_eq_true_eq]
  exact ⟨h8, h31⟩

theorem capValid_iff (c : Nat) : capValid c = true ↔ ∃ k, 3 ≤ k ∧ k ≤ 31 ∧ c = 2 ^ k where
  mp h := by
    obtain ⟨k, hc, hlow, hhigh⟩ := capValid_pow h
    exact ⟨k, hlow, hhigh, hc⟩
  mpr := by
    rintro ⟨k, hlow, hhigh, rfl⟩
    exact capValid_two_pow hlow hhigh

/-- A statement about every queue is one about the four of them. -/
theorem forall_qsel {p : QSel → Prop} :
    (∀ q, p q) ↔ p (.rx .kbd) ∧ p (.tx .kbd) ∧ p (.rx .mouse) ∧ p (.tx .mouse) where
  mp h := ⟨h _, h _, h _, h _⟩
  mpr := by
    rintro ⟨hrk, htk, hrm, htm⟩ ((_ | _) | (_ | _))
    · exact hrk
    · exact hrm
    · exact htk
    · exact htm

theorem validCfg_iff (c : Cfg) :
    validCfg c = true ↔ (∀ q, capValid (capOf c q) = true) ∧ c.tStartUs ≠ 0 ∧ c.tBitUs ≠ 0 ∧ c.tGapUs ≠ 0 := by
  simp only [validCfg, forall_qsel, capOf, Bool.and_eq_true, bne_iff_ne, and_assoc]

/-- Settles O11: one bit set and bounded by 8 and 2^31 is a power of two with exponent 3 to 31. -/
theorem validationIsPowersOfTwo : Obligations.ValidationIsPowersOfTwo := ⟨capValid_iff, validCfg_iff⟩

/-! ## Calls -/

/-- With the foreground free and nothing on the tape, the step begins the oldest call, with the time fixed for it. -/
theorem step_nextCall {s : State} {c : Call} {rest : List Call} (hfg : s.fg = none) (htape : s.tape = [])
    (hcalls : s.calls = c :: rest) : step s = runOp c.op { s with calls := rest, hostFixed := c.time } := by
  rw [step_nil htape]
  simp only [fgTurn, hfg, hcalls]
  rfl

/-- A call of a foreground operation on the tape holds it, whether or not the foreground is idle. -/
theorem step_call {s : State} {c : Code} {rest : List Input} {i : Instr} {op : FgOp} (hbuilt : s.built = true)
    (htape : s.tape = .call c :: rest) (hd : decode c = .ok i) (hop : fgOpOf i = some op) :
    step s = .next (State.held { s with tape := rest } op) := by
  rw [step_cons htape]
  simp only [runInput, runCall, hd, callInstr, hop]
  exact whenBuilt_eq (.inl hbuilt) _

/-- Settles O41: an idle foreground begins the operation, and any other call is held. -/
theorem callsWaitTheirTurn : Obligations.CallsWaitTheirTurn := by
  refine ⟨fun i op s hop => ⟨fun hidle => ?_, fun hbusy => ?_⟩, fun c rest s hfg htape hcalls => ?_,
    fun s rest c i op hbuilt htape hd hop => ?_⟩
  · rw [exec_eq_callOp hop, callOp_idle hidle]
    rfl
  · rw [exec_eq_callOp hop, callOp_busy hbusy]
    rfl
  · exact step_nextCall hfg htape hcalls
  · exact step_call hbuilt htape hd hop

end Sys2Proof.Machine

/-! PROOFS. The invariant is kept by every step (spec/10_state.md R34, R43, R45, R46, R57, 40_transceiver.md R159, R160,
R164, 43_mouse.md R258, 20_memory.md R80). -/

namespace Sys2Proof.Machine

open Sys2Proof

/-- The next state of a sound outcome meets the invariant. -/
theorem Sound.next {o : Host.Outcome State Fault Refusal} {t : State} (ho : Sound o) (ht : o = .next t) :
    StateOk t := by
  rw [ht] at ho
  exact ho

/-- Settles O13: a step is the turn of the foreground or the front of the tape, and either is sound (`step_sound`, with
one lemma for each kind of input). -/
theorem invariantIsKeptByEveryStep : Obligations.InvariantIsKeptByEveryStep :=
  fun _ _ h ht => (step_sound h).next ht

end Sys2Proof.Machine

/-! PROOFS. The queues are first-in first-out under every interleaving of micro-steps (spec/20_memory.md R80, R81, R87):
what each side knows between two of its micro-steps, and that no event of either side disturbs it. -/

namespace Sys2Proof.Machine

open Sys2Proof

/-! ## One event of a queue, as contents -/

/-- A push appends exactly the byte it accepts, if any (R183). -/
theorem push_appends {c : Nat} {q : Queue} (h : QueueOk c q) (b : Byte) :
    (q.push b).2.contents = q.contents ++ if (q.push b).1 then [b] else [] := by
  cases hf : q.isFull with
  | true => simp [push_full b hf]
  | false => simp [push_room b hf, contents_push h hf b]

/-- A pop splits the contents into the byte it takes, if any, and those it leaves (R184). -/
theorem pop_splits (q : Queue) : q.pop.1.toList ++ q.pop.2.contents = q.contents := by
  rw [(pop_contents q).1, (pop_contents q).2]
  cases q.contents <;> rfl

/-- Writing the slot of a push stores nothing among the queued bytes (R81). -/
theorem contents_writeSlot {c : Nat} {q : Queue} (h : QueueOk c q) (hf : q.isFull = false) (b : Byte) :
    (q.writeSlot b).contents = q.contents :=
  bytesFrom_congr fun _ hk => read_write_ne b (slot_ne_of_lt h hf hk)

/-- Publishing `w` queues the byte that the slot holds (R81). -/
theorem contents_publishW {c : Nat} {q : Queue} (h : QueueOk c q) :
    q.publishW.contents = q.contents ++ [Memory.read q.buf (q.slot q.w)] := by
  have hlen : q.publishW.len.toNat = q.len.toNat + 1 :=
    len_publishW (by have := h.len; have := (capValid_bounds h.cap).2; omega)
  rw [Queue.contents, hlen, bytesFrom_succ, publishW_r, ← w_eq]
  exact congrArg (· ++ _) (bytesFrom_congr fun _ _ => rfl)

/-- A pop leaves the producer's side of the queue alone. -/
theorem pop_producerSide (q : Queue) : q.pop.2.w = q.w ∧ q.pop.2.buf = q.buf ∧ q.pop.2.cap = q.cap := by
  unfold Queue.pop
  split <;> exact ⟨rfl, rfl, rfl⟩

/-- A pop leaves room where there was room (R44). -/
theorem isFull_pop {c : Nat} {q : Queue} (h : QueueOk c q) (hf : q.isFull = false) : q.pop.2.isFull = false := by
  have hlen := len_pop q
  rw [isFull_eq h, decide_eq_false_iff_not] at hf
  rw [isFull_eq h.pop, decide_eq_false_iff_not]
  omega

/-! ## A receive queue: whole pushes between the micro-steps of pops -/

/-- What a pop in progress knows of the queue before its next micro-step: there is a byte to take, and the byte it has
read is the oldest. -/
def PopPhase.fits (q : Queue) : PopPhase → Prop
  | .readW => True
  | .readSlot => q.contents ≠ []
  | .publish b => q.contents.head? = some b

/-- A push does not disturb a pop in progress (R81). -/
theorem PopPhase.fits.push {c : Nat} {q : Queue} (h : QueueOk c q) (b : Byte) {ph : PopPhase} (hf : ph.fits q) :
    ph.fits (q.push b).2 := by
  cases ph with
  | readW => trivial
  | readSlot =>
    show (q.push b).2.contents ≠ []
    rw [push_appends h]
    exact List.append_ne_nil_of_left_ne_nil hf _
  | publish b' =>
    show (q.push b).2.contents.head? = some b'
    rw [push_appends h, List.head?_append, hf]
    rfl

/-- First-in first-out so far, from a queue that held `start`. -/
structure RxRun.Ok (c : Nat) (start : List Byte) (x : RxRun) : Prop where
  queue : QueueOk c x.q
  fifo  : x.popped ++ x.q.contents = start ++ x.accepted
  phase : x.phase.fits x.q

/-- The consumer's next micro-step: `fits` says that `w ≠ r` where the index is published, and that the byte handed over
is the oldest. -/
theorem RxRun.Ok.micro {c : Nat} {start : List Byte} {x : RxRun} (h : x.Ok c start) : (x.step none).Ok c start := by
  obtain ⟨q, ph, acc, popped⟩ := x
  obtain ⟨hq, hfifo, hph⟩ := h
  cases ph with
  | readW =>
    refine ⟨hq, hfifo, ?_⟩
    by_cases he : q.w = q.r
    · simp [RxRun.step, he, PopPhase.fits]
    · simpa [RxRun.step, he, PopPhase.fits] using mt contents_nil.1 he
  | readSlot =>
    refine ⟨hq, hfifo, ?_⟩
    show q.contents.head? = some q.readSlot
    rw [contents_pop (mt contents_nil.2 hph)]
    rfl
  | publish b =>
    have hne : q.w ≠ q.r := by
      intro he
      rw [PopPhase.fits, contents_nil.2 he] at hph
      cases hph
    rw [PopPhase.fits, contents_pop hne] at hph
    cases hph
    refine ⟨hq.publishR hne, ?_, trivial⟩
    show (popped ++ [q.readSlot]) ++ q.publishR.contents = start ++ acc
    rw [List.append_assoc, List.singleton_append, ← contents_pop hne]
    exact hfifo

theorem RxRun.Ok.step {c : Nat} {start : List Byte} {x : RxRun} (h : x.Ok c start) (e : Option Byte) :
    (x.step e).Ok c start := by
  cases e with
  | none => exact h.micro
  | some b =>
    refine ⟨h.queue.push b, ?_, h.phase.push h.queue b⟩
    show x.popped ++ (x.q.push b).2.contents = start ++ (x.accepted ++ if (x.q.push b).1 then [b] else [])
    rw [push_appends h.queue, ← List.append_assoc, h.fifo, List.append_assoc]

/-! ## A transmit queue: whole pops between the micro-steps of pushes -/

/-- What a push in progress of `b` knows of the queue before its next micro-step: there is room, and the slot it has
written holds its byte. -/
def PushPhase.fits (q : Queue) (b : Byte) : PushPhase → Prop
  | .readR => True
  | .writeSlot => q.isFull = false
  | .publish => q.isFull = false ∧ Memory.read q.buf (q.slot q.w) = b

/-- A pop does not disturb a push in progress (R81). -/
theorem PushPhase.fits.pop {c : Nat} {q : Queue} (h : QueueOk c q) {b : Byte} {ph : PushPhase} (hf : ph.fits q b) :
    ph.fits q.pop.2 b := by
  cases ph with
  | readR => trivial
  | writeSlot => exact isFull_pop h hf
  | publish =>
    obtain ⟨hroom, hbyte⟩ := hf
    obtain ⟨hw, hbuf, hcap⟩ := pop_producerSide q
    refine ⟨isFull_pop h hroom, ?_⟩
    rwa [hbuf, Queue.slot, hw, hcap]

/-- First-in first-out so far, from a queue that held `start`. -/
structure TxRun.Ok (c : Nat) (start : List Byte) (x : TxRun) : Prop where
  queue : QueueOk c x.q
  fifo  : x.popped ++ x.q.contents = start ++ x.accepted
  phase : x.phase.fits x.q x.byte

/-- The producer's next micro-step: the slot written is no queued byte's, and publishing it queues the byte written. -/
theorem TxRun.Ok.micro {c : Nat} {start : List Byte} {x : TxRun} (h : x.Ok c start) (b : Byte) :
    (x.step (some b)).Ok c start := by
  obtain ⟨q, ph, byte, acc, popped⟩ := x
  obtain ⟨hq, hfifo, hph⟩ := h
  cases ph with
  | readR =>
    refine ⟨hq, hfifo, ?_⟩
    cases hf : q.isFull <;> simp [TxRun.step, hf, PushPhase.fits]
  | writeSlot =>
    refine ⟨hq.writeSlot byte, ?_, hph, read_write _ byte hq.buf⟩
    show popped ++ (q.writeSlot byte).contents = start ++ acc
    rw [contents_writeSlot hq hph]
    exact hfifo
  | publish =>
    obtain ⟨hroom, hbyte⟩ := hph
    refine ⟨hq.publishW hroom, ?_, trivial⟩
    show popped ++ q.publishW.contents = start ++ (acc ++ [byte])
    rw [contents_publishW hq, hbyte, ← List.append_assoc, ← List.append_assoc]
    exact congrArg (· ++ [byte]) hfifo

theorem TxRun.Ok.step {c : Nat} {start : List Byte} {x : TxRun} (h : x.Ok c start) (e : Option Byte) :
    (x.step e).Ok c start := by
  cases e with
  | some b => exact h.micro b
  | none =>
    refine ⟨h.queue.pop, ?_, h.phase.pop h.queue⟩
    show (x.popped ++ x.q.pop.1.toList) ++ x.q.pop.2.contents = start ++ x.accepted
    rw [List.append_assoc, pop_splits]
    exact h.fifo

/-! ## The statement -/

/-- Settles O35, by induction on the list of events: `RxRun.Ok` and `TxRun.Ok` hold at the start and every event keeps
them. -/
theorem queuesAreFifoUnderEveryInterleaving : Obligations.QueuesAreFifoUnderEveryInterleaving := by
  refine ⟨fun c q es hq => ?_, fun c q es hq => ?_⟩
  · have h : RxRun.Ok c q.contents (es.foldl RxRun.step ⟨q, .readW, [], []⟩) :=
      List.foldlRecOn es RxRun.step ⟨hq, (List.append_nil _).symm, trivial⟩ fun _ hx e _ => hx.step e
    exact ⟨h.fifo, h.queue.len⟩
  · have h : TxRun.Ok c q.contents (es.foldl TxRun.step ⟨q, .readR, 0, [], []⟩) :=
      List.foldlRecOn es TxRun.step ⟨hq, (List.append_nil _).symm, trivial⟩ fun _ hx e _ => hx.step e
    exact ⟨h.fifo, h.queue.len⟩

end Sys2Proof.Machine

/-! PROOFS. An operation in progress that is run by micro-steps with nothing between them ends where the uninterrupted
run of it ends (spec/20_memory.md R79, R80, 60_exceptions.md R322). The two runs differ only in `State.fg`, which
micro-steps write and no foreground computation reads. -/

namespace Sys2Proof.Machine

open Sys2Proof

/-! ## What recording the operation in progress leaves alone -/

@[simp] theorem paused_cfg (s : State) (u : Task) : (s.paused u).cfg = s.cfg := rfl
@[simp] theorem paused_kb (s : State) (u : Task) : (s.paused u).kb = s.kb := rfl
@[simp] theorem paused_ms (s : State) (u : Task) : (s.paused u).ms = s.ms := rfl
@[simp] theorem paused_queue (s : State) (u : Task) (q : QSel) : (s.paused u).queue q = s.queue q := by
  rcases q with (_ | _) | (_ | _) <;> rfl

theorem setMs_paused (s : State) (u : Task) (f : Ms → Ms) : (s.paused u).setMs f = (s.setMs f).paused u := rfl

@[simp] theorem setQueue_paused (s : State) (u : Task) (q : QSel) (v : Queue) :
    (s.paused u).setQueue q v = (s.setQueue q v).paused u := by
  rcases q with (_ | _) | (_ | _) <;> rfl

@[simp] theorem kickFor_paused (s : State) (u : Task) (q : QSel) :
    (s.paused u).kickFor q = (s.kickFor q).paused u := by
  rcases q with (_ | _) | (_ | _) <;> rfl

@[simp] theorem publishPush_paused (s : State) (u : Task) (q : QSel) :
    (s.paused u).publishPush q = (s.publishPush q).paused u := by
  simp [State.publishPush]

theorem readNow_paused (s : State) (u : Task) : (s.paused u).readNow = (s.readNow.1, s.readNow.2.paused u) := by
  cases h : s.hostFixed <;> simp [State.readNow, State.paused, h]

/-! ## Foreground computations -/

/-- A result with `u` recorded as the operation in progress. -/
def pausedWith (u : Task) (r : Act × State) : Act × State := (r.1, r.2.paused u)

@[simp] theorem pausedWith_mk (u : Task) (a : Act) (s : State) : pausedWith u (a, s) = (a, s.paused u) := rfl

/-- A computation that does not read the operation in progress and leaves it as it is. -/
def IgnoresFg (f : State → Act × State) : Prop := ∀ s u, f (s.paused u) = pausedWith u (f s)

/-- Going on in an unchanged state. -/
theorem IgnoresFg.pure (a : Act) : IgnoresFg fun s => (a, s) := fun _ _ => rfl

theorem failWith_ignoresFg (kind : Chan → Stage → Note) : IgnoresFg (failWith kind) := fun _ _ => rfl

theorem charReturn_ignoresFg (p : Bool) (o : Option Byte) : IgnoresFg (charReturn p o) := by
  intro s u
  cases p with
  | false => rfl
  | true => cases o <;> rfl

theorem resumeNextChar_ignoresFg (p : Bool) (ob : Option Byte) : IgnoresFg (resumeNextChar p ob) := by
  intro s u
  cases ob with
  | none => exact charReturn_ignoresFg p none s u
  | some c =>
    unfold resumeNextChar
    dsimp only
    rw [paused_cfg, paused_kb]
    split
    · rename_i v _
      exact charReturn_ignoresFg p (some v) { s with kb := (decodeByte s.cfg s.kb c).2 } u
    · rfl
    · rfl

theorem awaited_ignoresFg (e g n : List Byte) (st : Stage) : IgnoresFg (awaited e g n st) := by
  intro s u
  unfold awaited
  split <;> rfl

theorem identified_ignoresFg (g : List Byte) : IgnoresFg (identified g) := by
  intro s u
  unfold identified
  dsimp only
  split
  · rfl
  · rw [setMs_paused, paused_cfg]
    split <;> rfl

theorem enabled_ignoresFg (g : List Byte) : IgnoresFg (enabled g) := by
  intro s u
  unfold enabled
  split <;> rfl

theorem replyComplete_ignoresFg (g : List Byte) : IgnoresFg (replyComplete g) := by
  intro s u
  unfold replyComplete
  rw [paused_ms]
  split
  · exact awaited_ignoresFg _ _ _ _ s u
  · exact awaited_ignoresFg _ _ _ _ s u
  · exact awaited_ignoresFg _ _ _ _ s u
  · exact awaited_ignoresFg _ _ _ _ s u
  · exact identified_ignoresFg g s u
  · exact enabled_ignoresFg g s u
  all_goals rfl

theorem reportAB_ignoresFg : IgnoresFg reportAB := by
  intro s u
  unfold reportAB
  dsimp only
  rw [paused_ms, setMs_paused, paused_ms]
  split <;> rfl

theorem packetComplete_ignoresFg (pkt : List Byte) : IgnoresFg (packetComplete pkt) := by
  intro s u
  unfold packetComplete
  dsimp only
  rw [setMs_paused, paused_cfg]
  split
  · exact reportAB_ignoresFg _ u
  · rfl
  · rfl

theorem drainNext_ignoresFg (n : Nat) (t : DrainThen) : IgnoresFg (drainNext n t) := by
  intro s u
  cases n with
  | succ n => rfl
  | zero => cases t <;> rfl

theorem streamCheck_ignoresFg (L : Word32) : IgnoresFg (streamCheck L) := by
  intro s u
  unfold streamCheck
  rw [paused_ms]
  split
  · rfl
  · split <;> rfl

theorem streamPacket_ignoresFg (left : Nat) (pkt : List Byte) : IgnoresFg (streamPacket left pkt) := by
  intro s u
  cases left with
  | zero => rfl
  | succ n =>
    unfold streamPacket
    dsimp only
    rw [paused_ms]
    split <;> rfl

theorem sent_ignoresFg (t : SendThen) : IgnoresFg (sent t) := by
  intro s u
  cases t with
  | toStage st => rfl
  | pollA => rfl
  | reportB => exact reportAB_ignoresFg s u

theorem collect_ignoresFg {got : List Byte} {b : Byte} {more : List Byte → PopK}
    {done : List Byte → State → Act × State} (want : Nat) (h : ∀ g, IgnoresFg (done g)) :
    IgnoresFg (collect want got b more done) := by
  intro s u
  unfold collect
  split
  · exact h _ s u
  · rfl

theorem pollAck_ignoresFg (a : Byte) : IgnoresFg (pollAck a) := by
  intro s u
  unfold pollAck
  split <;> rfl

theorem counted_ignoresFg (ob : Option Byte) {f : Byte → State → Act × State} (h : ∀ b, IgnoresFg (f b)) :
    IgnoresFg (counted ob f) := by
  cases ob with
  | none => exact .pure _
  | some b => exact h b

theorem replyLen_ignoresFg (n : Word32) : IgnoresFg (replyLen n) := by
  intro s u
  unfold replyLen
  rw [paused_ms]
  split <;> rfl

theorem pollLen_ignoresFg (n : Word32) : IgnoresFg (pollLen n) := by
  intro s u
  unfold pollLen
  rw [paused_ms]
  split <;> rfl

theorem streamLen_ignoresFg (n : Word32) : IgnoresFg (streamLen n) := by
  intro s u
  unfold streamLen
  rw [paused_ms]
  split
  · rfl
  · exact streamCheck_ignoresFg n s u

theorem countLen_ignoresFg (n : Word32) : IgnoresFg (countLen n) := by
  intro s u
  unfold countLen
  rw [paused_ms]
  split <;> rfl

theorem resumeLen_ignoresFg (q : QSel) (k : LenK) (n : Word32) : IgnoresFg (resumeLen q k n) := by
  intro s u
  cases k with
  | ret => rfl
  | retFull => simp [resumeLen]
  | drain t => exact drainNext_ignoresFg _ t s u
  | reply => exact replyLen_ignoresFg n s u
  | poll => exact pollLen_ignoresFg n s u
  | stream => exact streamLen_ignoresFg n s u
  | count => exact countLen_ignoresFg n s u
  | resynced => rfl
  | reported ev => rfl

theorem resumePop_ignoresFg (k : PopK) (ob : Option Byte) : IgnoresFg (resumePop k ob) := by
  intro s u
  cases k with
  | ret => rfl
  | nextChar p => exact resumeNextChar_ignoresFg p ob s u
  | drain n t => exact drainNext_ignoresFg n t s u
  | reply got =>
    exact counted_ignoresFg ob (fun _ => collect_ignoresFg (replyLength s.ms.stage) replyComplete_ignoresFg) s u
  | pollAck => exact counted_ignoresFg ob pollAck_ignoresFg s u
  | pollPkt got =>
    exact counted_ignoresFg ob (fun _ => collect_ignoresFg s.ms.psize.bytes packetComplete_ignoresFg) s u
  | stream left got =>
    exact counted_ignoresFg ob (fun _ => collect_ignoresFg s.ms.psize.bytes (streamPacket_ignoresFg left)) s u

theorem resumePush_ignoresFg (q : QSel) (b : Byte) (k : PushK) (ok : Bool) : IgnoresFg (resumePush q b k ok) := by
  intro s u
  cases k with
  | ret => rfl
  | emit rest after => cases ok <;> simp [resumePush]

theorem resumeNow_ignoresFg (k : NowK) (t : Word32) : IgnoresFg (resumeNow k t) := by
  intro s u
  cases k with
  | stamp th => exact sent_ignoresFg th (s.setMs fun m => { m with ts := t }) u
  | replyDeadline =>
    unfold resumeNow
    dsimp only
    rw [paused_ms, paused_cfg]
    split <;> rfl
  | pollDeadline =>
    unfold resumeNow
    dsimp only
    rw [paused_ms, paused_cfg]
    split
    · rfl
    · split <;> rfl
  | seen L => exact streamCheck_ignoresFg L (s.setMs fun m => { m with ts := t, lastLen := L }) u
  | resyncDeadline =>
    unfold resumeNow
    dsimp only
    rw [paused_ms, paused_cfg]
    split <;> rfl
  | resynced => rfl

/-! ## Micro-steps -/

theorem popMicro_ignoresFg (ph : PopPhase) (q : QSel) (k : PopK) : IgnoresFg (popMicro ph q k) := by
  intro s u
  cases ph with
  | readW =>
    unfold popMicro
    dsimp only
    rw [paused_queue]
    split
    · exact resumePop_ignoresFg k none s u
    · rfl
  | readSlot => simp [popMicro]
  | publish b => simp [popMicro, resumePop_ignoresFg k _ _ u]

theorem pushMicro_ignoresFg (ph : PushPhase) (q : QSel) (b : Byte) (k : PushK) : IgnoresFg (pushMicro ph q b k) := by
  intro s u
  cases ph with
  | readR =>
    unfold pushMicro
    dsimp only
    rw [paused_queue]
    split
    · exact resumePush_ignoresFg q b k false s u
    · rfl
  | writeSlot => simp [pushMicro]
  | publish => simp [pushMicro, resumePush_ignoresFg q b k _ _ u]

theorem micro_ignoresFg (t : Task) : IgnoresFg t.micro := by
  intro s u
  cases t with
  | len q k => simp [Task.micro, resumeLen_ignoresFg q k _ _ u]
  | pop ph q k => exact popMicro_ignoresFg ph q k s u
  | push ph q b k => exact pushMicro_ignoresFg ph q b k s u
  | now k => simp [Task.micro, readNow_paused, resumeNow_ignoresFg k _ _ u]

/-- A micro-step taken into the state replaces the operation in progress, whatever was recorded. -/
theorem settleAct_pausedWith (u : Task) (r : Act × State) : settleAct (pausedWith u r) = settleAct r := by
  obtain ⟨a, s⟩ := r
  cases a <;> rfl

/-- The foreground's micro-step in a state whose operation in progress is `t`. -/
theorem fgMicro_paused (t : Task) (s : State) : fgMicro (s.paused t) = settleAct (t.micro s) := by
  show settleAct (t.micro (s.paused t)) = _
  rw [micro_ignoresFg, settleAct_pausedWith]

/-! ## One queue operation -/

theorem fgMicros_add (m n : Nat) (s : State) : fgMicros (m + n) s = andThen (fgMicros m s) (fgMicros n) := by
  induction m generalizing s with
  | zero => rw [Nat.zero_add]; rfl
  | succ m ih =>
    rw [Nat.succ_add]
    simp only [fgMicros]
    cases fgMicro s with
    | next t => exact ih t
    | fault r => rfl
    | refused r => rfl

/-- A micro-step that goes on with `t'`, and the micro-steps after it. -/
theorem fgMicros_succ_go {t t' : Task} {s s' : State} (h : t.micro s = (.go t', s')) (n : Nat) :
    fgMicros (n + 1) (s.paused t) = fgMicros n (s'.paused t') := by
  rw [fgMicros, fgMicro_paused, h]
  rfl

/-- A micro-step that is the whole rest of its queue operation. -/
theorem fgMicros_one {t : Task} {s : State} {r : Act × State} (h : t.micro s = r) :
    fgMicros 1 (s.paused t) = settleAct r := by
  rw [fgMicros, fgMicro_paused, h]
  cases settleAct r <;> rfl

/-- The micro-steps of a pop make up the pop: reading `w`, and, if there is a byte, reading its slot and publishing
`r` (R80). -/
theorem popMicros_complete (ph : PopPhase) (q : QSel) (k : PopK) (s : State) :
    ∃ n, fgMicros (n + 1) (s.paused (.pop ph q k)) = settleAct (popRest ph q k s) := by
  have publish (b : Byte) : fgMicros 1 (s.paused (.pop (.publish b) q k)) = settleAct (popRest (.publish b) q k s) :=
    fgMicros_one rfl
  have readSlot : fgMicros 2 (s.paused (.pop .readSlot q k)) = settleAct (popRest .readSlot q k s) :=
    (fgMicros_succ_go rfl 1).trans (publish _)
  cases ph with
  | publish b => exact ⟨0, publish b⟩
  | readSlot => exact ⟨1, readSlot⟩
  | readW =>
    by_cases he : (s.queue q).w = (s.queue q).r
    · have hmicro : (Task.pop .readW q k).micro s = resumePop k none s := if_pos he
      have hrest : popRest .readW q k s = resumePop k none s := by simp [popRest, State.pop, Queue.pop, he]
      exact ⟨0, fgMicros_one (hmicro.trans hrest.symm)⟩
    · have hmicro : (Task.pop .readW q k).micro s = (.go (.pop .readSlot q k), s) := if_neg he
      have hrest : popRest .readW q k s = popRest .readSlot q k s := by simp [popRest, State.pop, Queue.pop, he]
      exact ⟨2, by rw [fgMicros_succ_go hmicro, readSlot, hrest]⟩

/-- The micro-steps of a push make up the push: reading `r`, and, if there is room, writing the slot and publishing
`w` (R80). -/
theorem pushMicros_complete (ph : PushPhase) (q : QSel) (b : Byte) (k : PushK) (s : State) :
    ∃ n, fgMicros (n + 1) (s.paused (.push ph q b k)) = settleAct (pushRest ph q b k s) := by
  have writeSlot : fgMicros 2 (s.paused (.push .writeSlot q b k)) = settleAct (pushRest .writeSlot q b k s) :=
    (fgMicros_succ_go rfl 1).trans (fgMicros_one rfl)
  cases ph with
  | publish => exact ⟨0, fgMicros_one rfl⟩
  | writeSlot => exact ⟨1, writeSlot⟩
  | readR =>
    by_cases hf : (s.queue q).isFull = true
    · have hmicro : (Task.push .readR q b k).micro s = resumePush q b k false s := if_pos hf
      have hrest : pushRest .readR q b k s = resumePush q b k false s := by simp [pushRest, State.push, hf]
      exact ⟨0, fgMicros_one (hmicro.trans hrest.symm)⟩
    · have hmicro : (Task.push .readR q b k).micro s = (.go (.push .writeSlot q b k), s) := if_neg hf
      have hrest : pushRest .readR q b k s = pushRest .writeSlot q b k s := by simp [pushRest, State.push, hf]
      exact ⟨2, by rw [fgMicros_succ_go hmicro, writeSlot, hrest]⟩

theorem micros_complete (t : Task) (s : State) :
    ∃ n, fgMicros (n + 1) (s.paused t) = settleAct (t.complete s) := by
  cases t with
  | len q k => exact ⟨0, fgMicros_one rfl⟩
  | pop ph q k => exact popMicros_complete ph q k s
  | push ph q b k => exact pushMicros_complete ph q b k s
  | now k => exact ⟨0, fgMicros_one rfl⟩

/-! ## The operation -/

theorem runTask_succ (fuel : Nat) (t : Task) (s : State) : runTask (fuel + 1) t s = runAct fuel (t.complete s) := by
  rw [runTask]
  rcases t.complete s with ⟨_ | _ | _ | _, _⟩ <;> rfl

/-- From the end of a foreground computation, micro-steps end where the uninterrupted run ends, however many queue
operations that run is given. -/
theorem micros_runAct (fuel : Nat) (r : Act × State) : ∃ n, andThen (settleAct r) (fgMicros n) = runAct fuel r := by
  induction fuel generalizing r with
  | zero => obtain ⟨a, s⟩ := r; exact ⟨0, by cases a <;> rfl⟩
  | succ fuel ih =>
    obtain ⟨a, s⟩ := r
    cases a with
    | go t =>
      obtain ⟨m, hm⟩ := micros_complete t s
      obtain ⟨n, hn⟩ := ih (t.complete s)
      refine ⟨m + 1 + n, ?_⟩
      calc fgMicros (m + 1 + n) (s.paused t)
        _ = andThen (settleAct (t.complete s)) (fgMicros n) := by rw [fgMicros_add, hm]
        _ = runTask (fuel + 1) t s := by rw [hn, runTask_succ]
    | wait t => exact ⟨0, rfl⟩
    | ret v => exact ⟨0, rfl⟩
    | stop f => exact ⟨0, rfl⟩

/-- Settles O40: the micro-steps of the current queue operation make it up (`micros_complete`), and those of the later
ones follow by induction on the fuel of the uninterrupted run (`micros_runAct`). -/
theorem microStepsMakeUpTheOperation : Obligations.MicroStepsMakeUpTheOperation := by
  intro s t _ hfg
  obtain ⟨fuel, hfuel⟩ := fgFuel_succ s
  obtain ⟨m, hm⟩ := micros_complete t s
  obtain ⟨n, hn⟩ := micros_runAct (fuel + 63) (t.complete s)
  have hs : s.paused t = s := by rw [State.paused, ← hfg]
  have hturn : fgTurn s = runTask (fuel + 63 + 1) t s := by simp only [fgTurn, hfg, hfuel]
  refine ⟨m + 1 + n, by omega, ?_⟩
  rw [hturn, runTask_succ, ← hn, ← hm, hs, fgMicros_add]

end Sys2Proof.Machine

/-! PROOFS. The decoder and the encoder are inverse to each other (spec/30_encoding.md R100 to R139): a code is the
concatenation of its fields, so decoding what is encoded reads the fields back, and encoding what is decoded puts them
together again. -/

namespace Sys2Proof.Machine

open Sys2Proof

/-! ## The fields of a stimulus word (R130) -/

@[simp] theorem stimulusWord_maj (maj : BitVec 4) (c : BitVec 1) (mn : BitVec 3) (imm : Byte) :
    (stimulusWord maj c mn imm).extractLsb' 12 4 = maj := calc
  _ = (maj ++ c ++ mn).extractLsb' 4 4 := BitVec.extractLsb'_append_eq_of_le (by decide)
  _ = (maj ++ c).extractLsb' 1 4 := BitVec.extractLsb'_append_eq_of_le (by decide)
  _ = maj := BitVec.extractLsb'_append_eq_left

@[simp] theorem stimulusWord_min (maj : BitVec 4) (c : BitVec 1) (mn : BitVec 3) (imm : Byte) :
    (stimulusWord maj c mn imm).extractLsb' 8 3 = mn := calc
  _ = (maj ++ c ++ mn).extractLsb' 0 3 := BitVec.extractLsb'_append_eq_of_le (by decide)
  _ = mn := BitVec.extractLsb'_append_eq_right

@[simp] theorem stimulusWord_imm (maj : BitVec 4) (c : BitVec 1) (mn : BitVec 3) (imm : Byte) :
    (stimulusWord maj c mn imm).extractLsb' 0 8 = imm :=
  BitVec.extractLsb'_append_eq_right

theorem stimulusWord_ch (maj : BitVec 4) (ch : Chan) (mn : BitVec 3) (imm : Byte) :
    (stimulusWord maj ch.bit mn imm).getLsbD 11 = decide (ch = .mouse) := by
  unfold stimulusWord
  rw [BitVec.getLsbD_append, BitVec.getLsbD_append, BitVec.getLsbD_append]
  cases ch <;> rfl

@[simp] theorem ofBit_eq_mouse (ch : Chan) : Chan.ofBit (decide (ch = .mouse)) = ch := by
  cases ch <;> rfl

theorem bit_ofBit (b : Bool) : (Chan.ofBit b).bit = bit1 b := by
  cases b <;> rfl

theorem bit1_getLsbD {n : Nat} (x : BitVec n) (i : Nat) : bit1 (x.getLsbD i) = x.extractLsb' i 1 := by
  apply BitVec.eq_of_getLsbD_eq
  intro j hj
  simp [bit1, show j = 0 by omega]

/-- Every word is the word of its fields. -/
theorem exists_stimulusWord (w : BitVec 16) : ∃ maj ch mn imm, w = stimulusWord maj (Chan.bit ch) mn imm := by
  refine ⟨w.extractLsb' 12 4, Chan.ofBit (w.getLsbD 11), w.extractLsb' 8 3, w.extractLsb' 0 8, ?_⟩
  rw [stimulusWord, bit_ofBit, bit1_getLsbD,
    BitVec.extractLsb'_append_extractLsb'_eq_extractLsb' (show 12 = 11 + 1 from rfl),
    BitVec.extractLsb'_append_extractLsb'_eq_extractLsb' (show 11 = 8 + 3 from rfl),
    BitVec.extractLsb'_append_extractLsb'_eq_extractLsb' (show 8 = 0 + 8 from rfl),
    BitVec.extractLsb'_eq_self]

theorem eq_ofNat_of_toNat {n k : Nat} {x : BitVec n} (h : x.toNat = k) : x = BitVec.ofNat n k := by
  rw [← h, BitVec.ofNat_toNat, BitVec.setWidth_eq]

/-! ## The leading bits of the reserved rows (R137) -/

theorem append_of_leadingBits {k l : Nat} {w : BitVec (k + l)} {p : BitVec k} (h : w.extractLsb' l k = p) :
    p ++ w.extractLsb' 0 l = w := by
  rw [← h, BitVec.extractLsb'_append_extractLsb']

theorem getLsbD_eleven (w : BitVec 16) : w.getLsbD 11 = decide (w.toNat / 2048 % 2 = 1) := by
  rw [← BitVec.testBit_toNat, Nat.testBit_eq_decide_div_mod_eq]

theorem reservedMaj_iff (w : BitVec 16) : w.extractLsb' 15 1 = 1 ↔ 8 ≤ (w.extractLsb' 12 4).toNat := by
  have hw := w.isLt
  simp only [← BitVec.toNat_inj, BitVec.extractLsb'_toNat, Nat.shiftRight_eq_div_pow, BitVec.ofNat_eq_ofNat,
    BitVec.toNat_ofNat]
  omega

theorem reservedKbdMin_iff (w : BitVec 16) : w.extractLsb' 9 7 = 0x33 ↔
    (w.extractLsb' 12 4).toNat = 6 ∧ w.getLsbD 11 = false ∧ 6 ≤ (w.extractLsb' 8 3).toNat := by
  have hw := w.isLt
  simp only [← BitVec.toNat_inj, BitVec.extractLsb'_toNat, Nat.shiftRight_eq_div_pow, BitVec.ofNat_eq_ofNat,
    BitVec.toNat_ofNat, getLsbD_eleven, decide_eq_false_iff_not]
  omega

theorem reservedMouseCh0_iff (w : BitVec 16) : w.extractLsb' 11 5 = 0x0E ↔
    (w.extractLsb' 12 4).toNat = 7 ∧ w.getLsbD 11 = false := by
  have hw := w.isLt
  simp only [← BitVec.toNat_inj, BitVec.extractLsb'_toNat, Nat.shiftRight_eq_div_pow, BitVec.ofNat_eq_ofNat,
    BitVec.toNat_ofNat, getLsbD_eleven, decide_eq_false_iff_not]
  omega

theorem decodeStimulus_reservedMaj {w : BitVec 16} (h : w.extractLsb' 15 1 = 1) :
    decodeStimulus w = .ok (.reservedMaj (w.extractLsb' 0 15)) := by
  rw [reservedMaj_iff] at h
  unfold decodeStimulus
  split
  case h_9 => rfl
  all_goals omega

theorem decodeStimulus_reservedKbdMin {w : BitVec 16} (h : w.extractLsb' 9 7 = 0x33) :
    decodeStimulus w = .ok (.reservedKbdMin (w.extractLsb' 0 9)) := by
  obtain ⟨hmaj, hch, hmn⟩ := (reservedKbdMin_iff w).mp h
  simp only [decodeStimulus, hmaj, hch, hmn, if_true, Bool.false_eq_true, if_false]

theorem decodeStimulus_reservedMouseCh0 {w : BitVec 16} (h : w.extractLsb' 11 5 = 0x0E) :
    decodeStimulus w = .ok (.reservedMouseCh0 (w.extractLsb' 0 11)) := by
  obtain ⟨hmaj, hch⟩ := (reservedMouseCh0_iff w).mp h
  simp only [decodeStimulus, hmaj, hch, Bool.not_false, if_true]

/-! ## The positions of a wire frame (R101, R103) -/

theorem decodeD2H_positions (ch : Chan) (stop p : Bool) (d : Byte) (start : Bool) :
    decodeD2H ch (bit1 stop ++ bit1 p ++ d ++ bit1 start) =
      .when (!start && p == oddParity d && stop) (.frameD2H ch d p) .badFrame := by
  have hd : (bit1 stop ++ bit1 p ++ d ++ bit1 start).extractLsb' 1 8 = d := calc
    _ = (bit1 stop ++ bit1 p ++ d).extractLsb' 0 8 := BitVec.extractLsb'_append_eq_of_le (by decide)
    _ = d := BitVec.extractLsb'_append_eq_right
  simp only [decodeD2H, hd, BitVec.getLsbD_append]
  simp [bit1]

theorem exists_d2hPositions (bits : BitVec 11) :
    ∃ (stop p : Bool) (d : Byte) (start : Bool), bits = bit1 stop ++ bit1 p ++ d ++ bit1 start := by
  refine ⟨bits.getLsbD 10, bits.getLsbD 9, bits.extractLsb' 1 8, bits.getLsbD 0, ?_⟩
  simp only [bit1_getLsbD]
  rw [BitVec.extractLsb'_append_extractLsb'_eq_extractLsb' (show 10 = 9 + 1 from rfl),
    BitVec.extractLsb'_append_extractLsb'_eq_extractLsb' (show 9 = 1 + 8 from rfl),
    BitVec.extractLsb'_append_extractLsb'_eq_extractLsb' (show 1 = 0 + 1 from rfl),
    BitVec.extractLsb'_eq_self]

theorem decodeH2D_positions (ch : Chan) (ack stop p : Bool) (d : Byte) (start : Bool) :
    decodeH2D ch (bit1 ack ++ bit1 stop ++ bit1 p ++ d ++ bit1 start) =
      .when (!start && p == oddParity d && stop) (.frameH2D ch d p ack) .badFrame := by
  have hd : (bit1 ack ++ bit1 stop ++ bit1 p ++ d ++ bit1 start).extractLsb' 1 8 = d := calc
    _ = (bit1 ack ++ bit1 stop ++ bit1 p ++ d).extractLsb' 0 8 := BitVec.extractLsb'_append_eq_of_le (by decide)
    _ = d := BitVec.extractLsb'_append_eq_right
  simp only [decodeH2D, hd, BitVec.getLsbD_append]
  simp [bit1]

theorem exists_h2dPositions (bits : BitVec 12) : ∃ (ack stop p : Bool) (d : Byte) (start : Bool),
    bits = bit1 ack ++ bit1 stop ++ bit1 p ++ d ++ bit1 start := by
  refine ⟨bits.getLsbD 11, bits.getLsbD 10, bits.getLsbD 9, bits.extractLsb' 1 8, bits.getLsbD 0, ?_⟩
  simp only [bit1_getLsbD]
  rw [BitVec.extractLsb'_append_extractLsb'_eq_extractLsb' (show 11 = 10 + 1 from rfl),
    BitVec.extractLsb'_append_extractLsb'_eq_extractLsb' (show 10 = 9 + 1 from rfl),
    BitVec.extractLsb'_append_extractLsb'_eq_extractLsb' (show 9 = 1 + 8 from rfl),
    BitVec.extractLsb'_append_extractLsb'_eq_extractLsb' (show 1 = 0 + 1 from rfl),
    BitVec.extractLsb'_eq_self]

/-! ## The two field patterns of a byte (R108, R109) -/

theorem decodeByte8_status (yo xo ys xs : Bool) (b : BitVec 3) :
    decodeByte8 (bit1 yo ++ bit1 xo ++ bit1 ys ++ bit1 xs ++ bit1 true ++ b) = .ok (.mouseStatus yo xo ys xs b) := by
  have hb : (bit1 yo ++ bit1 xo ++ bit1 ys ++ bit1 xs ++ bit1 true ++ b).extractLsb' 0 3 = b :=
    BitVec.extractLsb'_append_eq_right
  simp only [decodeByte8, hb, BitVec.getLsbD_append]
  simp [bit1]

theorem statusFields_append {x : Byte} (h : x.getLsbD 3 = true) :
    bit1 (x.getLsbD 7) ++ bit1 (x.getLsbD 6) ++ bit1 (x.getLsbD 5) ++ bit1 (x.getLsbD 4) ++ bit1 true ++
      x.extractLsb' 0 3 = x := by
  rw [← h]
  simp only [bit1_getLsbD]
  rw [BitVec.extractLsb'_append_extractLsb'_eq_extractLsb' (show 7 = 6 + 1 from rfl),
    BitVec.extractLsb'_append_extractLsb'_eq_extractLsb' (show 6 = 5 + 1 from rfl),
    BitVec.extractLsb'_append_extractLsb'_eq_extractLsb' (show 5 = 4 + 1 from rfl),
    BitVec.extractLsb'_append_extractLsb'_eq_extractLsb' (show 4 = 3 + 1 from rfl),
    BitVec.extractLsb'_append_extractLsb'_eq_extractLsb' (show 3 = 0 + 3 from rfl),
    BitVec.extractLsb'_eq_self]

theorem ledFields_append {x : Byte} (h : x.extractLsb' 3 5 = 0) :
    (0 : BitVec 5) ++ bit1 (x.getLsbD 2) ++ bit1 (x.getLsbD 1) ++ bit1 (x.getLsbD 0) = x := by
  rw [← h]
  simp only [bit1_getLsbD]
  rw [BitVec.extractLsb'_append_extractLsb'_eq_extractLsb' (show 3 = 2 + 1 from rfl),
    BitVec.extractLsb'_append_extractLsb'_eq_extractLsb' (show 2 = 1 + 1 from rfl),
    BitVec.extractLsb'_append_extractLsb'_eq_extractLsb' (show 1 = 0 + 1 from rfl),
    BitVec.extractLsb'_eq_self]

/-! ## Decoding an encoding -/

/-- The code of a well-formed instruction decodes to that instruction. -/
theorem decode_encodeOne {i : Instr} {c : Code} (hwf : i.wellFormed = true) (h : encodeOne i = some c) :
    decode c = .ok i := by
  cases i with
  | rxbyte _ _ | rxframe _ _ _ _ _ | txclock _ _ _ | settle _ | pulse _ => cases h
  | reservedMaj lo =>
    cases h
    rw [decode, decodeStimulus_reservedMaj BitVec.extractLsb'_append_eq_left, BitVec.extractLsb'_append_eq_right]
  | reservedKbdMin lo =>
    cases h
    rw [decode, decodeStimulus_reservedKbdMin BitVec.extractLsb'_append_eq_left, BitVec.extractLsb'_append_eq_right]
  | reservedMouseCh0 lo =>
    cases h
    rw [decode, decodeStimulus_reservedMouseCh0 BitVec.extractLsb'_append_eq_left, BitVec.extractLsb'_append_eq_right]
  | edge ch d =>
    cases h
    cases ch <;> cases d <;> rfl
  | timer ch | kick ch | popRx ch | lenRx ch | fullRx ch | popTx ch | lenTx ch | fullTx ch =>
    cases h
    cases ch <;> rfl
  | pushRx ch b | pushTx ch b | emit ch b =>
    cases h
    simp only [decode, decodeStimulus, stimulusWord_maj, stimulusWord_ch, stimulusWord_min, stimulusWord_imm,
      ofBit_eq_mouse]
    rfl
  | setlocks m =>
    cases h
    have hch : (stimulusWord 6 0 5 m).getLsbD 11 = false := stimulusWord_ch 6 .kbd 5 m
    simp only [decode, decodeStimulus, stimulusWord_maj, stimulusWord_min, stimulusWord_imm, hch]
    rfl
  | frameD2H ch d p =>
    cases h
    have hp : p = oddParity d := by simpa [Instr.wellFormed, parityMatches] using hwf
    rw [decode, decodeD2H_positions]
    simp [hp, Decoded.when]
  | frameH2D ch d p a =>
    cases h
    have hp : p = oddParity d := by simpa [Instr.wellFormed, parityMatches] using hwf
    rw [decode, decodeH2D_positions]
    simp [hp, Decoded.when]
  | mouseStatus yo xo ys xs b =>
    cases h
    rw [decode, decodeByte8_status]
  | ledArg c n s =>
    cases h
    cases c <;> cases n <;> cases s <;> rfl
  | _ => cases h; rfl  -- a row without operands

theorem expansion_statement (i : Instr) : Laws.Expansion.Statement i := by
  cases i with
  | rxbyte ch b => exact Laws.Expansion.rxbyte ch b
  | rxframe ch start b p t => exact Laws.Expansion.rxframe ch start b p t
  | txclock ch b a => exact Laws.Expansion.txclock ch b a
  | settle ch => exact Laws.Expansion.settle ch
  | pulse ch => exact Laws.Expansion.pulse ch
  | _ => exact Laws.Expansion.ownCode rfl rfl rfl

theorem decode_codes {l : List Instr} (hcode : ∀ j ∈ l, j.hasCode = true) (hwf : ∀ j ∈ l, j.wellFormed = true) :
    (l.filterMap encodeOne).map decode = l.map Decoded.ok := by
  induction l with
  | nil => rfl
  | cons i l ih =>
    rw [List.forall_mem_cons] at hcode hwf
    obtain ⟨c, hc⟩ := Option.isSome_iff_exists.mp hcode.1
    rw [List.filterMap_cons_some hc, List.map_cons, List.map_cons, decode_encodeOne hwf.1 hc, ih hcode.2 hwf.2]

/-- Settles O1: every stimulus of an expansion has a code of its own and is well formed (family `Expansion`), and each
code decodes back (`decode_encodeOne`). -/
theorem decodeOfEncodeIsIdentity : Obligations.DecodeOfEncodeIsIdentity := by
  intro i hwf
  obtain ⟨hcode, hexpand, -⟩ := expansion_statement i
  exact decode_codes hcode (hexpand hwf)

/-! ## Encoding a decoding -/

theorem encodeOne_of_decodeQop {ch : Chan} {mn : BitVec 3} {imm : Byte} {i : Instr}
    (h : decodeQop ch mn.toNat imm = .ok i) : encodeOne i = some (.stimulus (stimulusWord 0x4 ch.bit mn imm)) := by
  generalize hk : mn.toNat = k at h
  rw [eq_ofNat_of_toNat hk]
  match k with
  | 0 | 4 => cases h; rfl
  | 1 | 2 | 3 | 5 | 6 | 7 =>
    obtain ⟨himm, rfl⟩ := when_eq_ok h
    rw [of_decide_eq_true himm]
    rfl
  | k + 8 => omega

theorem encodeOne_of_decodeKbd {mn : BitVec 3} {imm : Byte} {i : Instr} (hmn : mn.toNat < 6)
    (h : decodeKbd mn.toNat imm = .ok i) : encodeOne i = some (.stimulus (stimulusWord 0x6 0 mn imm)) := by
  generalize hk : mn.toNat = k at h hmn
  rw [eq_ofNat_of_toNat hk]
  match k with
  | 0 | 1 | 2 | 3 | 4 =>
    obtain ⟨himm, rfl⟩ := when_eq_ok h
    rw [of_decide_eq_true himm]
    rfl
  | 5 => cases h; rfl
  | k + 6 => omega

/-- The three reserved rows first, by their leading bits; the other words by `MAJ`. -/
theorem encodeOne_of_decodeStimulus {w : BitVec 16} {i : Instr} (h : decodeStimulus w = .ok i) :
    encodeOne i = some (.stimulus w) := by
  by_cases hmaj : w.extractLsb' 15 1 = 1
  · cases (decodeStimulus_reservedMaj hmaj).symm.trans h
    rw [encodeOne, append_of_leadingBits (k := 1) (l := 15) hmaj]
  by_cases hkbd : w.extractLsb' 9 7 = 0x33
  · cases (decodeStimulus_reservedKbdMin hkbd).symm.trans h
    rw [encodeOne, append_of_leadingBits (k := 7) (l := 9) hkbd]
  by_cases hmouse : w.extractLsb' 11 5 = 0x0E
  · cases (decodeStimulus_reservedMouseCh0 hmouse).symm.trans h
    rw [encodeOne, append_of_leadingBits (k := 5) (l := 11) hmouse]
  rw [reservedMaj_iff] at hmaj
  rw [reservedKbdMin_iff] at hkbd
  rw [reservedMouseCh0_iff] at hmouse
  obtain ⟨maj, ch, mn, imm, rfl⟩ := exists_stimulusWord w
  simp only [decodeStimulus, stimulusWord_maj, stimulusWord_ch, stimulusWord_min, stimulusWord_imm,
    ofBit_eq_mouse] at h hmaj hkbd hmouse
  generalize hk : maj.toNat = k at h hmaj hkbd hmouse
  obtain rfl := eq_ofNat_of_toNat hk
  match k with
  | 0 =>
    obtain ⟨hzero, rfl⟩ := when_eq_ok h
    rw [of_decide_eq_true hzero]
    rfl
  | 1 =>
    obtain ⟨hzero, rfl⟩ := when_eq_ok h
    obtain ⟨hmn, himm⟩ : mn.toNat = 0 ∧ imm.extractLsb' 1 7 = 0 := by simpa using hzero
    rw [encodeOne, bit1_getLsbD, append_of_leadingBits (k := 7) (l := 1) himm, eq_ofNat_of_toNat hmn]
    rfl
  | 2 | 3 =>
    obtain ⟨hzero, rfl⟩ := when_eq_ok h
    obtain ⟨hmn, rfl⟩ : mn.toNat = 0 ∧ imm = 0 := by simpa using hzero
    rw [eq_ofNat_of_toNat hmn]
    rfl
  | 4 => exact encodeOne_of_decodeQop h
  | 5 =>
    obtain ⟨hmn, rfl⟩ := when_eq_ok h
    rw [eq_ofNat_of_toNat (of_decide_eq_true hmn)]
    rfl
  | 6 =>
    cases ch with
    | mouse => cases h
    | kbd =>
      have hmn : mn.toNat < 6 := by simpa using hkbd
      exact encodeOne_of_decodeKbd hmn (by simpa [Nat.not_le.mpr hmn] using h)
  | 7 =>
    cases ch with
    | kbd => simp at hmouse
    | mouse =>
      by_cases hmn : mn.toNat = 0
      · simp only [hmn] at h
        obtain ⟨himm, rfl⟩ := when_eq_ok h
        rw [eq_ofNat_of_toNat hmn, of_decide_eq_true himm]
        rfl
      · simp [hmn] at h
  | k + 8 => omega

theorem encodeOne_of_decodeByte8 {b : Byte} {i : Instr} (h : decodeByte8 b = .ok i) :
    encodeOne i = some (.byte8 b) := by
  unfold decodeByte8 at h
  split at h
  case isTrue hstatus =>
    cases h
    rw [encodeOne, statusFields_append hstatus]
  case isFalse =>
    obtain ⟨hhigh, rfl⟩ := when_eq_ok h
    rw [encodeOne, ledFields_append (of_decide_eq_true hhigh)]

/-- Only the two wire formats put a condition on the operands. -/
theorem wellFormed_or_wire {i : Instr} {c : Code} (h : encodeOne i = some c) :
    i.wellFormed = true ∨ (∃ ch bits, c = .wireD2H ch bits) ∨ ∃ ch bits, c = .wireH2D ch bits := by
  cases i with
  | frameD2H ch d p => exact .inr (.inl ⟨_, _, (Option.some.inj h).symm⟩)
  | frameH2D ch d p a => exact .inr (.inr ⟨_, _, (Option.some.inj h).symm⟩)
  | _ => exact .inl rfl

/-- Settles O2: format by format, the fields that the decoder reads make up the code. -/
theorem decodedCodeIsItsEncoding : Obligations.DecodedCodeIsItsEncoding := by
  intro c i h
  have noWire (hc : ¬((∃ ch bits, c = .wireD2H ch bits) ∨ ∃ ch bits, c = .wireH2D ch bits))
      (he : encodeOne i = some c) : i.wellFormed = true ∧ encodeOne i = some c :=
    ⟨(wellFormed_or_wire he).resolve_right hc, he⟩
  cases c with
  | stimulus w => exact noWire (by simp) (encodeOne_of_decodeStimulus h)
  | wireD2H ch bits =>
    obtain ⟨stop, p, d, start, rfl⟩ := exists_d2hPositions bits
    rw [decode, decodeD2H_positions] at h
    obtain ⟨hc, rfl⟩ := when_eq_ok h
    obtain ⟨⟨rfl, rfl⟩, rfl⟩ : (start = false ∧ p = oddParity d) ∧ stop = true := by simpa using hc
    exact ⟨beq_self_eq_true _, rfl⟩
  | wireH2D ch bits =>
    obtain ⟨ack, stop, p, d, start, rfl⟩ := exists_h2dPositions bits
    rw [decode, decodeH2D_positions] at h
    obtain ⟨hc, rfl⟩ := when_eq_ok h
    obtain ⟨⟨rfl, rfl⟩, rfl⟩ : (start = false ∧ p = oddParity d) ∧ stop = true := by simpa using hc
    exact ⟨beq_self_eq_true _, rfl⟩
  | byte8 b => exact noWire (by simp) (encodeOne_of_decodeByte8 h)
  | hostCmd b | hostArg b | deviceReply b | scancode b =>
    refine noWire (by simp) ?_
    simp only [decode, decodeHostCmd, decodeHostArg, decodeReply, decodeScancode] at h
    split at h
    all_goals cases h
    all_goals
      rename_i hb
      rw [eq_ofNat_of_toNat hb]
      rfl

/-! ## Words that R137 does not reserve -/

/-- A QOP word with operand byte 0, or any for the two pushes, is that of a row (R134). -/
theorem exists_qopRow (ch : Chan) {mn : BitVec 3} {imm : Byte} (h : mn.toNat % 4 ≠ 0 → imm = 0) :
    ∃ i, encodeOne i = some (.stimulus (stimulusWord 0x4 ch.bit mn imm)) ∧ isReservedRow i = false := by
  generalize hk : mn.toNat = k at h
  obtain rfl := eq_ofNat_of_toNat hk
  match k with
  | 0 => exact ⟨.pushRx ch imm, rfl, rfl⟩
  | 1 => exact ⟨.popRx ch, by rw [h (by decide)]; rfl, rfl⟩
  | 2 => exact ⟨.lenRx ch, by rw [h (by decide)]; rfl, rfl⟩
  | 3 => exact ⟨.fullRx ch, by rw [h (by decide)]; rfl, rfl⟩
  | 4 => exact ⟨.pushTx ch imm, rfl, rfl⟩
  | 5 => exact ⟨.popTx ch, by rw [h (by decide)]; rfl, rfl⟩
  | 6 => exact ⟨.lenTx ch, by rw [h (by decide)]; rfl, rfl⟩
  | 7 => exact ⟨.fullTx ch, by rw [h (by decide)]; rfl, rfl⟩
  | k + 8 => omega

/-- A KBD word with `MIN` up to 5 and operand byte 0, or any for SETLOCKS, is that of a row (R135). -/
theorem exists_kbdRow {mn : BitVec 3} {imm : Byte} (hmn : mn.toNat < 6) (h : mn.toNat ≠ 5 → imm = 0) :
    ∃ i, encodeOne i = some (.stimulus (stimulusWord 0x6 0 mn imm)) ∧ isReservedRow i = false := by
  generalize hk : mn.toNat = k at h hmn
  obtain rfl := eq_ofNat_of_toNat hk
  match k with
  | 0 => exact ⟨.getsc, by rw [h (by decide)]; rfl, rfl⟩
  | 1 => exact ⟨.peek, by rw [h (by decide)]; rfl, rfl⟩
  | 2 => exact ⟨.getkey, by rw [h (by decide)]; rfl, rfl⟩
  | 3 => exact ⟨.locks, by rw [h (by decide)]; rfl, rfl⟩
  | 4 => exact ⟨.ctrls, by rw [h (by decide)]; rfl, rfl⟩
  | 5 => exact ⟨.setlocks imm, rfl, rfl⟩
  | k + 6 => omega

theorem exists_row_of_not_reservedWord {w : BitVec 16} (hw : reservedWord w = false) :
    ∃ i, encodeOne i = some (.stimulus w) ∧ isReservedRow i = false := by
  obtain ⟨maj, ch, mn, imm, rfl⟩ := exists_stimulusWord w
  simp only [reservedWord, stimulusWord_maj, stimulusWord_ch, stimulusWord_min, stimulusWord_imm] at hw
  have himm : imm.toNat = 0 ↔ imm = 0 := BitVec.toNat_inj (y := 0#8)
  have hmn : mn.toNat = 0 ↔ mn = 0 := BitVec.toNat_inj (y := 0#3)
  generalize hk : maj.toNat = k at hw
  obtain rfl := eq_ofNat_of_toNat hk
  match k with
  | 0 =>
    obtain ⟨⟨hch, rfl⟩, rfl⟩ : (ch ≠ .mouse ∧ mn = 0) ∧ imm = 0 := by simpa [himm, hmn] using hw
    cases ch with
    | mouse => contradiction
    | kbd => exact ⟨.reset, rfl, rfl⟩
  | 1 =>
    obtain ⟨rfl, hle⟩ : mn = 0 ∧ imm.toNat ≤ 1 := by simpa [hmn] using hw
    obtain h | h := Nat.le_one_iff_eq_zero_or_eq_one.mp hle
    · exact ⟨.edge ch false, by rw [eq_ofNat_of_toNat h]; rfl, rfl⟩
    · exact ⟨.edge ch true, by rw [eq_ofNat_of_toNat h]; rfl, rfl⟩
  | 2 =>
    obtain ⟨rfl, rfl⟩ : mn = 0 ∧ imm = 0 := by simpa [himm, hmn] using hw
    exact ⟨.timer ch, rfl, rfl⟩
  | 3 =>
    obtain ⟨rfl, rfl⟩ : mn = 0 ∧ imm = 0 := by simpa [himm, hmn] using hw
    exact ⟨.kick ch, rfl, rfl⟩
  | 4 => exact exists_qopRow ch (by simpa [himm] using hw)
  | 5 =>
    obtain rfl : mn = 0 := by simpa [hmn] using hw
    exact ⟨.emit ch imm, rfl, rfl⟩
  | 6 =>
    obtain ⟨⟨hch, hlt⟩, hzero⟩ : (ch ≠ .mouse ∧ mn.toNat < 6) ∧ (mn.toNat ≠ 5 → imm = 0) := by
      simpa [himm] using hw
    cases ch with
    | mouse => contradiction
    | kbd => exact exists_kbdRow hlt hzero
  | 7 =>
    obtain ⟨⟨rfl, rfl⟩, rfl⟩ : (ch = .mouse ∧ mn = 0) ∧ imm = 0 := by simpa [himm, hmn] using hw
    exact ⟨.getmove, rfl, rfl⟩
  | k + 8 => simp at hw

/-- Settles O4: a reserved word decodes to reserved rows only, and any other word is the code of a row. -/
theorem wordsDecodeUnlessReserved : Obligations.WordsDecodeUnlessReserved := by
  refine fun w => ⟨fun ⟨i, hd, hrow⟩ => ?_, fun hw => ?_⟩
  · by_contra hw
    have hrow' := isReservedRow_of_reservedWord (eq_true_of_ne_false hw) hd
    simp [hrow] at hrow'
  · obtain ⟨i, he, hrow⟩ := exists_row_of_not_reservedWord hw
    have hwf : i.wellFormed = true := (wellFormed_or_wire he).resolve_right (by simp)
    exact ⟨i, decode_encodeOne hwf he, hrow⟩

/-- Settles O5: the words are concrete. -/
theorem sampleWordsDecode : Obligations.SampleWordsDecode := by
  unfold Obligations.SampleWordsDecode
  decide

/-! ## Odd parity (R102) -/

/-- Toggling a bit for every `p i` that holds keeps it at whether their number is even. -/
theorem foldl_xor_eq_even (p : Nat → Bool) (n : Nat) :
    (List.range n).foldl (fun acc i => acc ^^ p i) true = decide ((List.range n).countP p % 2 = 0) := by
  induction n with
  | zero => rfl
  | succ n ih =>
    rw [List.range_succ, List.foldl_append, List.countP_append, ih]
    cases hp : p n with
    | false => simp [hp]
    | true =>
      obtain h | h := Nat.mod_two_eq_zero_or_one ((List.range n).countP p)
      · simp [hp, h, Nat.add_mod]
      · simp [hp, h, Nat.add_mod]

/-- Settles O7: the parity bit is toggled by each of the eight bits (`foldl_xor_eq_even`). -/
theorem oddParityIsOneIffPopcountEven : Obligations.OddParityIsOneIffPopcountEven := by
  intro d
  rw [← decide_eq_true_iff (p := _ = 0), ← foldl_xor_eq_even]
  rfl

end Sys2Proof.Machine

/-! PROOFS. A step runs what its input names (spec/30_encoding.md R131, R138), and the rows that are expansions or bytes
of another operation run as that operation (R105, R106, R109, R139). -/

namespace Sys2Proof.Machine

open Sys2Proof

/-! ## Steps -/

theorem decode_tableCode {nbits w : Nat} {i : Instr} (h : decodeTableWord nbits w = some i) :
    decode (tableCode nbits w) = .ok i := by
  unfold decodeTableWord at h
  cases hd : decode (tableCode nbits w) with
  | ok j => rw [hd] at h; cases h; rfl
  | reject r => rw [hd] at h; cases h

theorem called_readNow {s : State} {n : Word32} (h : s.hostNext = some n) :
    s.called.readNow = (n, { s.called with hostTime := n }) :=
  readNow_fixed h

/-- Settles O8: the step takes the front of the tape (`step_cons`), and each kind of input has its own law. -/
theorem stepRunsDecodedInstruction : Obligations.StepRunsDecodedInstruction := by
  refine ⟨?_, ?_, ?_, ?_, fun s rest n htape => step_cons htape, ?_, fun s r => rfl⟩
  · intro s rest issuer c i htape hd
    have hstep : step s = runInstr issuer i { s with tape := rest } := (step_cons htape).trans (runCode_ok hd _ _)
    rw [hstep]
    refine ⟨fun hb => ⟨runInstr_built hb, fun hi => ?_⟩, fun hb hi => runInstr_unbuilt hb hi⟩
    rw [hi]
    exact runInstr_built hb
  · intro s nbits w i hd
    rw [step_withFetchWord, runCode_ok (decode_tableCode hd)]
    exact ⟨runInstr_built, runInstr_unbuilt⟩
  · intro s rest c r hb htape hd u
    have hstep : step s = runCode none c u := step_cons htape
    have hruns {i : Instr} (hi : c.unlisted = .runs i) : step s = exec i u :=
      hstep.trans ((runCode_runs hd hi none u).trans (runInstr_built (.inl hb)))
    cases c with
    | stimulus w => exact hstep.trans (runCode_reserved hd none u)
    | scancode b => exact hstep.trans (runCode_decodes hd hb)
    | _ => exact hruns rfl
  · intro s rest i htape
    have hstep : step s = runInstr none i { s with tape := rest } := step_cons htape
    rw [hstep]
    exact ⟨fun hb => runInstr_built hb, fun hb hi => runInstr_unbuilt hb hi⟩
  · intro s n hn
    rw [called_readNow hn, readNow_fixed (t := n) hn]
    exact ⟨rfl, rfl, rfl⟩

/-! ## Pseudo-stimuli (R139) -/

theorem execAll_edges (ch : Chan) (ds : List Bool) (s : State) : execAll (ds.map (.edge ch)) s = runEdges ch ds s := by
  induction ds generalizing s with
  | nil => rfl
  | cons d ds ih =>
    rw [List.map_cons, execAll, runEdges]
    exact congrArg (andThen _) (funext ih)

theorem execAll_singleton (i : Instr) (s : State) : execAll [i] s = exec i s := by
  rw [execAll]
  cases exec i s <;> rfl

/-- Settles O6: a frame is the edge handler at each of its levels, and SETTLE and PULSE are the timer handler. -/
theorem pseudoStimuliAreTheirExpansions : Obligations.PseudoStimuliAreTheirExpansions := by
  intro ch b st p t a s frame
  refine ⟨?_, ?_, ?_, ?_, ?_⟩
  · exact (execAll_edges ch (frameLevels false b (oddParity b) true) s).symm
  · exact (execAll_edges ch (frameLevels st b p t) s).symm
  · exact (execAll_edges ch (frameLevels false b (oddParity b) a) s).symm
  · exact (execAll_singleton (.timer ch) s).symm
  · exact (execAll_singleton (.timer ch) s).symm

/-! ## Emitting one byte (R190) -/

/-- An emit on an idle foreground is one push and what follows it. -/
theorem emit_idle {s : State} (h : s.fgIdle = true) (ch : Chan) (b : Byte) :
    ∃ fuel, callOp (.emit ch b) s = runAct fuel
      (resumePush (.tx ch) b (.emit [] .ret) (s.called.push (.tx ch) b).1 (s.called.push (.tx ch) b).2) := by
  obtain ⟨fuel, hfuel⟩ := fgFuel_succ s.called
  refine ⟨fuel + 63, ?_⟩
  rw [callOp_idle h, hfuel]
  exact runTask_succ (fuel + 63) _ _

theorem emit_room {s : State} (h : s.fgIdle = true) {ch : Chan} (b : Byte) (hq : (s.port ch).tx.isFull = false) :
    callOp (.emit ch b) s = .next ((s.called.setPort ch { s.port ch with
      tx := ((s.port ch).tx.writeSlot b).publishW
      kickPend := true }).returns .unit) := by
  obtain ⟨fuel, hrun⟩ := emit_idle h ch b
  rw [hrun, push_tx_eq, called_port, Queue.push, if_neg (by simp [hq])]
  simp [resumePush, emitNext, afterEmit, runAct]

theorem emit_full {s : State} (h : s.fgIdle = true) {ch : Chan} (b : Byte) (hq : (s.port ch).tx.isFull = true) :
    callOp (.emit ch b) s = .next ((s.called.setPort ch { s.port ch with kickPend := true }).paused
      (.push .readR (.tx ch) b (.emit [] .ret))) := by
  obtain ⟨fuel, hrun⟩ := emit_idle h ch b
  rw [hrun, push_tx_eq, called_port, Queue.push, if_pos hq]
  simp [resumePush, runAct, State.kickFor, setKick_eq]

/-! ## Byte rows (R105, R106, R109) -/

theorem fgOpOf_byteCommand {i : Instr} {ch : Chan} {b : Byte} (h : (i, ch, b) ∈ byteCommands) :
    fgOpOf i = some (.emit ch b) := by
  have hall : ∀ x ∈ byteCommands, fgOpOf x.1 = some (.emit x.2.1 x.2.2) := by decide
  exact hall _ h

theorem ledByte_eq (c n l : Bool) : ledByte c n l = BitVec.ofNat 8 (l.toNat + 2 * n.toNat + 4 * c.toNat) := by
  cases c <;> cases n <;> cases l <;> rfl

/-- Settles O39: each row calls the emit of its byte (`fgOpOf`), which finds room or waits. -/
theorem byteRowsReachTheirDevice : Obligations.ByteRowsReachTheirDevice := by
  intro s i ch b hidle hrow q
  have hop : fgOpOf i = some (.emit ch b) := by
    rcases hrow with hrow | ⟨c, n, l, rfl, rfl, rfl⟩
    · exact fgOpOf_byteCommand hrow
    · rw [← ledByte_eq]
      rfl
  rw [exec_eq_callOp hop]
  exact ⟨emit_room hidle b, emit_full hidle b⟩

end Sys2Proof.Machine

/-! PROOFS. Whole frames, edge by edge (spec/40_transceiver.md R141 to R155, R162, R163): each edge is an update of the
channel record, the eight data bits are an induction over the levels, and a frame is its start, its data bits and its
last positions. -/

namespace Sys2Proof.Machine

open Sys2Proof

/-! ## Updates of a channel record -/

@[simp] theorem setChn_setChn (s : State) (ch : Chan) (c c' : Channel) :
    (s.setChn ch c).setChn ch c' = s.setChn ch c' := by
  cases ch <;> rfl

@[simp] theorem setChn_chn (s : State) (ch : Chan) : s.setChn ch (s.chn ch) = s := setPort_port s ch

@[simp] theorem setChn_cfg (s : State) (ch : Chan) (c : Channel) : (s.setChn ch c).cfg = s.cfg := setPort_cfg _ _ _

theorem chn_setPort (s : State) (ch : Chan) (p : Port) : (s.setPort ch p).chn ch = p.chn := by
  rw [chn_eq, port_setPort]

/-- The eight data positions of a frame, in order (R101). -/
def dataLevels (b : Byte) : List Bool :=
  [b.getLsbD 0, b.getLsbD 1, b.getLsbD 2, b.getLsbD 3, b.getLsbD 4, b.getLsbD 5, b.getLsbD 6, b.getLsbD 7]

theorem frameLevels_eq (start : Bool) (b : Byte) (p t : Bool) :
    frameLevels start b p t = start :: (dataLevels b ++ [p, t]) := rfl

/-! ## Received edges (R142 to R146) -/

theorem startBit_eq (ch : Chan) (d : Bool) (s : State) : startBit ch d s = s.setChn ch { s.chn ch with
    status := .receiving, bitcnt := 1, shift := 0x00, parity := true, timerArmed := true,
    timerPeriod := s.cfg.tBitUs, err := d } := by
  simp [startBit, State.armTimer]

/-- The channel record after a received data bit (R143). -/
def Channel.gotBit (c : Channel) (d : Bool) : Channel :=
  { c with shift := setBit c.shift (c.bitcnt.toNat - 1) d, parity := parityStep c.parity d, bitcnt := c.bitcnt + 1,
           timerArmed := true }

theorem dataBit_eq (ch : Chan) (d : Bool) (s : State) : dataBit ch d s = s.setChn ch ((s.chn ch).gotBit d) := by
  simp [dataBit, State.restartTimer, Channel.gotBit]

theorem parityBit_eq (ch : Chan) (d : Bool) (s : State) : parityBit ch d s = s.setChn ch { s.chn ch with
    err := (s.chn ch).err || d != (s.chn ch).parity, bitcnt := 10, timerArmed := true } := by
  simp [parityBit, State.restartTimer]

theorem push_fst (q : Queue) (b : Byte) : (q.push b).1 = !q.isFull := by
  cases h : q.isFull <;> simp [Queue.push, h]

theorem push_snd (q : Queue) (b : Byte) : (q.push b).2 = if q.isFull then q else (q.writeSlot b).publishW := by
  cases h : q.isFull <;> simp [Queue.push, h]

theorem deliver_eq (ch : Chan) (b : Byte) (err : Bool) (s : State) : deliver ch b err s =
    { s.setPort ch { s.port ch with rx := ((s.port ch).rx.push b).2 } with
      notes := s.notes ++ (if err then [.frameError ch] else []) ++
        (if (s.port ch).rx.isFull then [.overflow ch] else [])
      wire := s.wire ++ [.received ch b err] } := by
  simp only [deliver, push_rx_eq, push_fst]
  cases err <;> cases hq : (s.port ch).rx.isFull <;> cases ch <;> simp_all [transfer_eq, raise_eq]

theorem stopBit_eq (ch : Chan) (d : Bool) (s : State) : stopBit ch d s =
    { s.setPort ch { s.port ch with
        chn := { s.chn ch with status := .postSettle, bitcnt := 0, timerArmed := true, timerPeriod := s.cfg.tGapUs,
                               err := (s.chn ch).err || !d }
        rx := ((s.port ch).rx.push (s.chn ch).shift).2 } with
      notes := s.notes ++ (if (s.chn ch).err || !d then [.frameError ch] else []) ++
        (if (s.port ch).rx.isFull then [.overflow ch] else [])
      wire := s.wire ++ [.received ch (s.chn ch).shift ((s.chn ch).err || !d)] } := by
  simp only [stopBit, deliver_eq]
  cases ch <;> simp [State.armTimer, State.setChn, State.chn] <;> rfl

theorem edgeHandler_start {ch : Chan} {s : State}
    (hst : (s.chn ch).status = .passive ∨ (s.chn ch).status = .postSettle) (hl : (s.chn ch).legal = true) (d : Bool) :
    edgeHandler ch d s = .next (startBit ch d s) := by
  rw [edgeHandler_eq hl]
  rcases hst with h | h <;> simp [edgeBody, h]

/-- R141 in `Receiving`: the position says which bit it is. -/
theorem edgeHandler_receiving {ch : Chan} {s : State} (hst : (s.chn ch).status = .receiving) (d : Bool)
    (hlow : 1 ≤ (s.chn ch).bitcnt.toNat) (hhigh : (s.chn ch).bitcnt.toNat ≤ 10) :
    edgeHandler ch d s = .next (if (s.chn ch).bitcnt.toNat ≤ 8 then dataBit ch d s
      else if (s.chn ch).bitcnt.toNat = 9 then parityBit ch d s else stopBit ch d s) := by
  rw [edgeHandler_eq (by simp [Channel.legal, hst, hlow, hhigh])]
  simp [edgeBody, hst]

theorem edgeHandler_parity {ch : Chan} {s : State} (hst : (s.chn ch).status = .receiving)
    (hk : (s.chn ch).bitcnt = 9) (d : Bool) : edgeHandler ch d s = .next (parityBit ch d s) := by
  rw [edgeHandler_receiving hst] <;> simp [hk]

theorem edgeHandler_stop {ch : Chan} {s : State} (hst : (s.chn ch).status = .receiving)
    (hk : (s.chn ch).bitcnt = 10) (d : Bool) : edgeHandler ch d s = .next (stopBit ch d s) := by
  rw [edgeHandler_receiving hst] <;> simp [hk]

/-! ## A received frame (R162) -/

theorem toNat_bitcnt_add_one {k : BitVec 4} (h : k.toNat ≤ 9) : (k + 1).toNat = k.toNat + 1 := by
  bv_omega

/-- Edges up to position 8 of a received frame put their levels into the record one by one. -/
theorem runEdges_gotBits (ch : Chan) (ds rest : List Bool) {s : State} (hst : (s.chn ch).status = .receiving)
    (hlow : 1 ≤ (s.chn ch).bitcnt.toNat) (hhigh : (s.chn ch).bitcnt.toNat + ds.length ≤ 9) :
    runEdges ch (ds ++ rest) s = runEdges ch rest (s.setChn ch (ds.foldl Channel.gotBit (s.chn ch))) := by
  induction ds generalizing s with
  | nil => rw [List.foldl_nil, setChn_chn]; rfl
  | cons d ds ih =>
    rw [List.length_cons] at hhigh
    have hedge : edgeHandler ch d s = .next (s.setChn ch ((s.chn ch).gotBit d)) := by
      rw [edgeHandler_receiving hst d hlow (by omega), if_pos (by omega), dataBit_eq]
    have hcnt : ((s.chn ch).gotBit d).bitcnt.toNat = (s.chn ch).bitcnt.toNat + 1 := toNat_bitcnt_add_one (by omega)
    rw [List.cons_append, runEdges_cons hedge, ih]
    · rw [chn_setChn, setChn_setChn, List.foldl_cons]
    · rw [chn_setChn]; exact hst
    · rw [chn_setChn, hcnt]; omega
    · rw [chn_setChn, hcnt]; omega

/-- Written bit by bit into an empty register, the data positions make up the byte. -/
theorem setBits_eq (b : Byte) :
    setBit (setBit (setBit (setBit (setBit (setBit (setBit (setBit 0 0 (b.getLsbD 0)) 1 (b.getLsbD 1))
      2 (b.getLsbD 2)) 3 (b.getLsbD 3)) 4 (b.getLsbD 4)) 5 (b.getLsbD 5)) 6 (b.getLsbD 6)) 7 (b.getLsbD 7) = b := by
  apply BitVec.eq_of_getLsbD_eq
  intro j hj
  simp only [setBit_getLsbD _ _ _ (show 7 < 8 by decide) j hj, setBit_getLsbD _ _ _ (show 6 < 8 by decide) j hj,
    setBit_getLsbD _ _ _ (show 5 < 8 by decide) j hj, setBit_getLsbD _ _ _ (show 4 < 8 by decide) j hj,
    setBit_getLsbD _ _ _ (show 3 < 8 by decide) j hj, setBit_getLsbD _ _ _ (show 2 < 8 by decide) j hj,
    setBit_getLsbD _ _ _ (show 1 < 8 by decide) j hj, setBit_getLsbD _ _ _ (show 0 < 8 by decide) j hj]
  interval_cases j <;> rfl

theorem foldl_parityStep (b : Byte) : (dataLevels b).foldl parityStep true = oddParity b := by
  simp only [dataLevels, List.foldl_cons, List.foldl_nil, parityStep, oddParity]

theorem foldl_gotBit {c : Channel} (b : Byte) (hk : c.bitcnt = 1) (hs : c.shift = 0) (hp : c.parity = true) :
    (dataLevels b).foldl Channel.gotBit c =
      { c with shift := b, parity := oddParity b, bitcnt := 9, timerArmed := true } := by
  rw [← foldl_parityStep]
  simpa [dataLevels, Channel.gotBit, hk, hs, hp, -BitVec.getLsbD_eq_getElem] using setBits_eq b

/-- From the start bit on: data bits, parity bit, stop bit. -/
theorem runEdges_received {ch : Chan} {s : State} (hst : (s.chn ch).status = .receiving) (hk : (s.chn ch).bitcnt = 1)
    (hs : (s.chn ch).shift = 0) (hp : (s.chn ch).parity = true) (b : Byte) (p t : Bool) :
    runEdges ch (dataLevels b ++ [p, t]) s =
      .next (afterFrame ch b ((s.chn ch).err || (p != oddParity b) || !t) s) := by
  rw [runEdges_gotBits ch _ _ hst (by simp [hk]) (by simp [hk, dataLevels]), foldl_gotBit b hk hs hp,
    runEdges_cons (edgeHandler_parity ?_ ?_ p), parityBit_eq, setChn_setChn,
    runEdges_cons (edgeHandler_stop ?_ ?_ t), runEdges, stopBit_eq, push_snd]
  · simp [afterFrame, setChn_eq, chn_eq]
  all_goals simp [hst]

theorem afterFrame_startBit (ch : Chan) (b : Byte) (err d : Bool) (s : State) :
    afterFrame ch b err (startBit ch d s) = afterFrame ch b err s := by
  simp [startBit_eq, afterFrame, setChn_eq, chn_eq]

/-- A frame with any start, parity and stop bit delivers its byte, with an error if one of them is wrong. -/
theorem runFrame_received {ch : Chan} {s : State}
    (hst : (s.chn ch).status = .passive ∨ (s.chn ch).status = .postSettle) (hl : (s.chn ch).legal = true)
    (start : Bool) (b : Byte) (p t : Bool) :
    runFrame ch start b p t s = .next (afterFrame ch b (start || (p != oddParity b) || !t) s) := by
  rw [runFrame, frameLevels_eq, runEdges_cons (edgeHandler_start hst hl start), runEdges_received,
    afterFrame_startBit]
  all_goals simp [startBit_eq]

theorem deviceSends_received {ch : Chan} {s : State}
    (hst : (s.chn ch).status = .passive ∨ (s.chn ch).status = .postSettle) (hl : (s.chn ch).legal = true) (b : Byte) :
    deviceSends ch b s = .next (afterFrame ch b false s) := by
  rw [deviceSends, runFrame_received hst hl]
  simp

/-! ## The bytes a mouse sends (R107, R108) -/

theorem toNat_append_bit1 {n : Nat} (x : BitVec n) (b : Bool) : (x ++ bit1 b).toNat = 2 * x.toNat + b.toNat := by
  have hb : (bit1 b).toNat = b.toNat := BitVec.toNat_ofBool b
  rw [BitVec.toNat_append, hb, ← Nat.shiftLeft_add_eq_or_of_lt (Bool.toNat_lt b), Nat.shiftLeft_eq, Nat.mul_comm]

theorem toNat_statusByte (yo xo ys xs : Bool) (btns : BitVec 3) : (statusByte yo xo ys xs btns).toNat =
    btns.toNat + 8 + 16 * xs.toNat + 32 * ys.toNat + 64 * xo.toNat + 128 * yo.toNat := by
  have hyo : (bit1 yo).toNat = yo.toNat := BitVec.toNat_ofBool yo
  rw [statusByte, BitVec.toNat_append, ← Nat.shiftLeft_add_eq_or_of_lt btns.isLt, Nat.shiftLeft_eq,
    toNat_append_bit1, toNat_append_bit1, toNat_append_bit1, toNat_append_bit1, hyo, Bool.toNat_true]
  omega

theorem ofNat_statusByte (yo xo ys xs : Bool) (btns : BitVec 3) :
    BitVec.ofNat 8 (btns.toNat + 8 + 16 * xs.toNat + 32 * ys.toNat + 64 * xo.toNat + 128 * yo.toNat) =
      statusByte yo xo ys xs btns :=
  (eq_ofNat_of_toNat (toNat_statusByte yo xo ys xs btns)).symm

/-- Settles O26: each row is a received frame (`runFrame_received`). -/
theorem deviceRowsDeliverTheirByte : Obligations.DeviceRowsDeliverTheirByte := by
  refine ⟨fun ch b p s hst hl => ?_, fun yo xo ys xs btns i b s hrow hst hl => ?_⟩
  · refine (runFrame_received hst hl false b p true).trans ?_
    simp
  · simp only [mouseBytes, ofNat_statusByte, List.mem_cons, List.not_mem_nil, or_false, Prod.mk.injEq] at hrow
    rcases hrow with ⟨rfl, rfl⟩ | ⟨rfl, rfl⟩ | ⟨rfl, rfl⟩ | ⟨rfl, rfl⟩ | ⟨rfl, rfl⟩
    all_goals exact deviceSends_received (ch := .mouse) hst hl _

/-! ## A channel record and the trace of its lines -/

/-- The state with a channel record replaced and events added to the wire trace: what every edge of a send does. -/
def State.putChn (s : State) (ch : Chan) (c : Channel) (es : List WireEvent) : State :=
  { s.setChn ch c with wire := s.wire ++ es }

@[simp] theorem chn_putChn (s : State) (ch : Chan) (c : Channel) (es : List WireEvent) :
    (s.putChn ch c es).chn ch = c := by
  cases ch <;> rfl

@[simp] theorem putChn_cfg (s : State) (ch : Chan) (c : Channel) (es : List WireEvent) :
    (s.putChn ch c es).cfg = s.cfg := by
  cases ch <;> rfl

@[simp] theorem putChn_putChn (s : State) (ch : Chan) (c c' : Channel) (es es' : List WireEvent) :
    (s.putChn ch c es).putChn ch c' es' = s.putChn ch c' (es ++ es') := by
  cases ch <;> simp [State.putChn, State.setChn]

@[simp] theorem setChn_putChn (s : State) (ch : Chan) (c c' : Channel) (es : List WireEvent) :
    (s.setChn ch c).putChn ch c' es = s.putChn ch c' es := by
  cases ch <;> rfl

@[simp] theorem putChn_setChn (s : State) (ch : Chan) (c c' : Channel) (es : List WireEvent) :
    (s.putChn ch c es).setChn ch c' = s.putChn ch c' es := by
  cases ch <;> rfl

theorem setLine_clk_putChn (s : State) (ch : Chan) :
    s.setLine (.clk ch) = s.putChn ch { s.chn ch with clkOut := .rel } [.latch (.clk ch) .rel] := setLine_clk s ch

theorem setLine_data_putChn (s : State) (ch : Chan) :
    s.setLine (.data ch) = s.putChn ch { s.chn ch with dataOut := .rel } [.latch (.data ch) .rel] := setLine_data s ch

theorem clearLine_data_putChn (s : State) (ch : Chan) :
    s.clearLine (.data ch) = s.putChn ch { s.chn ch with dataOut := .low } [.latch (.data ch) .low] :=
  clearLine_data s ch

/-- The latch level that drives a bit (R152). -/
def bitLatch (b : Bool) : Latch := if b then .rel else .low

theorem driveLine_data_putChn (s : State) (ch : Chan) (b : Bool) : s.driveLine (.data ch) b =
    s.putChn ch { s.chn ch with dataOut := bitLatch b } [.latch (.data ch) (bitLatch b)] := by
  cases b with
  | false => exact clearLine_data s ch
  | true => exact setLine_data s ch

/-! ## Edges of a send (R152 to R155) -/

/-- The data bit that a send drives at its position (R152). -/
def Channel.nextBit (c : Channel) : Bool := c.shift.getLsbD (c.bitcnt.toNat - 1)

/-- The channel record after a sent data bit (R152). -/
def Channel.sentBit (c : Channel) : Channel :=
  { c with dataOut := bitLatch c.nextBit, parity := parityStep c.parity c.nextBit, bitcnt := c.bitcnt + 1,
           timerArmed := true }

theorem sentDataBit_eq (ch : Chan) (s : State) : sentDataBit ch s =
    s.putChn ch (s.chn ch).sentBit [.latch (.data ch) (bitLatch (s.chn ch).nextBit)] := by
  simp [sentDataBit, driveLine_data_putChn, State.restartTimer, Channel.sentBit, Channel.nextBit]

theorem sentParityBit_eq (ch : Chan) (s : State) : sentParityBit ch s = s.putChn ch { s.chn ch with
      dataOut := bitLatch (s.chn ch).parity, bitcnt := 10, timerArmed := true }
    [.latch (.data ch) (bitLatch (s.chn ch).parity)] := by
  simp [sentParityBit, driveLine_data_putChn, State.restartTimer]

theorem sentStopBit_eq (ch : Chan) (s : State) : sentStopBit ch s = s.putChn ch { s.chn ch with
      dataOut := .rel, bitcnt := 11, timerArmed := true } [.latch (.data ch) .rel] := by
  simp [sentStopBit, setLine_data_putChn, State.restartTimer]

theorem ackBit_eq (ch : Chan) (d : Bool) (s : State) : ackBit ch d s = s.putChn ch { s.chn ch with
      err := d, bitcnt := 0, status := .postSettle, timerArmed := true, timerPeriod := s.cfg.tGapUs }
    [.sent ch (s.chn ch).shift d] := by
  cases ch <;> rfl

/-- R141 in `Sending`: the position says which bit it is. -/
theorem edgeHandler_sending {ch : Chan} {s : State} (hst : (s.chn ch).status = .sending) (d : Bool)
    (hlow : 1 ≤ (s.chn ch).bitcnt.toNat) (hhigh : (s.chn ch).bitcnt.toNat ≤ 11) :
    edgeHandler ch d s = .next (if (s.chn ch).bitcnt.toNat ≤ 8 then sentDataBit ch s
      else if (s.chn ch).bitcnt.toNat = 9 then sentParityBit ch s
      else if (s.chn ch).bitcnt.toNat = 10 then sentStopBit ch s else ackBit ch d s) := by
  rw [edgeHandler_eq (by simp [Channel.legal, hst, hlow, hhigh])]
  simp [edgeBody, hst]

theorem edgeHandler_sentParity {ch : Chan} {s : State} (hst : (s.chn ch).status = .sending)
    (hk : (s.chn ch).bitcnt = 9) (d : Bool) : edgeHandler ch d s = .next (sentParityBit ch s) := by
  rw [edgeHandler_sending hst] <;> simp [hk]

theorem edgeHandler_sentStop {ch : Chan} {s : State} (hst : (s.chn ch).status = .sending)
    (hk : (s.chn ch).bitcnt = 10) (d : Bool) : edgeHandler ch d s = .next (sentStopBit ch s) := by
  rw [edgeHandler_sending hst] <;> simp [hk]

theorem edgeHandler_ack {ch : Chan} {s : State} (hst : (s.chn ch).status = .sending)
    (hk : (s.chn ch).bitcnt = 11) (d : Bool) : edgeHandler ch d s = .next (ackBit ch d s) := by
  rw [edgeHandler_sending hst] <;> simp [hk]

/-! ## A send (R163) -/

/-- What `n` data bits of a send drive, from the record `c` (R152). -/
def Channel.drives (ch : Chan) : Nat → Channel → List WireEvent
  | 0, _ => []
  | n + 1, c => .latch (.data ch) (bitLatch c.nextBit) :: Channel.drives ch n c.sentBit

/-- Edges up to position 8 of a send drive its data bits, whatever their levels. -/
theorem runEdges_sentBits (ch : Chan) (ds rest : List Bool) {s : State} (hst : (s.chn ch).status = .sending)
    (hlow : 1 ≤ (s.chn ch).bitcnt.toNat) (hhigh : (s.chn ch).bitcnt.toNat + ds.length ≤ 9) :
    runEdges ch (ds ++ rest) s = runEdges ch rest
      (s.putChn ch (Channel.sentBit^[ds.length] (s.chn ch)) (Channel.drives ch ds.length (s.chn ch))) := by
  induction ds generalizing s with
  | nil => simp [State.putChn, Channel.drives]
  | cons d ds ih =>
    rw [List.length_cons] at hhigh
    have hedge : edgeHandler ch d s = .next (sentDataBit ch s) := by
      rw [edgeHandler_sending hst d hlow (by omega), if_pos (by omega)]
    have hcnt : (s.chn ch).sentBit.bitcnt.toNat = (s.chn ch).bitcnt.toNat + 1 := toNat_bitcnt_add_one (by omega)
    rw [List.cons_append, runEdges_cons hedge, sentDataBit_eq, ih]
    · rw [chn_putChn, putChn_putChn]; rfl
    · rw [chn_putChn]; exact hst
    · rw [chn_putChn, hcnt]; omega
    · rw [chn_putChn, hcnt]; omega

theorem iterate_sentBit {c : Channel} (hk : c.bitcnt = 1) (hp : c.parity = true) : Channel.sentBit^[8] c =
    { c with dataOut := bitLatch (c.shift.getLsbD 7), parity := oddParity c.shift, bitcnt := 9,
             timerArmed := true } := by
  rw [← foldl_parityStep]
  simp [Channel.sentBit, Channel.nextBit, dataLevels, hk, hp]

theorem drives_sendWire (ch : Chan) {c : Channel} (hk : c.bitcnt = 1) :
    Channel.drives ch 8 c ++ [.latch (.data ch) (bitLatch (oddParity c.shift)), .latch (.data ch) .rel] =
      sendWire ch c.shift (oddParity c.shift) := by
  simp [Channel.drives, Channel.sentBit, Channel.nextBit, sendWire, bitLatch, hk]

/-- The channel record at the end of a send of `b` with acknowledgement level `a` (R155). -/
def Channel.sentByte (c : Channel) (b : Byte) (gap : Word32) (a : Bool) : Channel :=
  { c with status := .postSettle, bitcnt := 0, shift := b, parity := oddParity b, timerArmed := true,
           timerPeriod := gap, err := a, dataOut := .rel }

/-- From the start bit on: eight data bits, the parity bit, the release and the acknowledgement. -/
theorem runEdges_sent {ch : Chan} {s : State} (hst : (s.chn ch).status = .sending) (hk : (s.chn ch).bitcnt = 1)
    (hp : (s.chn ch).parity = true) {ds : List Bool} (hds : ds.length = 8) (x y a : Bool) :
    runEdges ch (ds ++ [x, y, a]) s =
      .next (s.putChn ch ((s.chn ch).sentByte (s.chn ch).shift s.cfg.tGapUs a)
        (sendWire ch (s.chn ch).shift (oddParity (s.chn ch).shift) ++ [.sent ch (s.chn ch).shift a])) := by
  rw [runEdges_sentBits ch _ _ hst (by simp [hk]) (by simp [hk, hds]), hds, iterate_sentBit hk hp,
    runEdges_cons (edgeHandler_sentParity ?_ ?_ x), sentParityBit_eq, putChn_putChn,
    runEdges_cons (edgeHandler_sentStop ?_ ?_ y), sentStopBit_eq, putChn_putChn,
    runEdges_cons (edgeHandler_ack ?_ ?_ a), ackBit_eq, putChn_putChn, runEdges, ← drives_sendWire ch hk]
  · simp [Channel.sentByte]
  all_goals simp [hst]

theorem runFrame_sent {ch : Chan} {s : State} (hst : (s.chn ch).status = .sending) (hk : (s.chn ch).bitcnt = 1)
    (hp : (s.chn ch).parity = true) (start : Bool) (b : Byte) (p a : Bool) :
    runFrame ch start b p a s =
      .next (s.putChn ch ((s.chn ch).sentByte (s.chn ch).shift s.cfg.tGapUs a)
        (sendWire ch (s.chn ch).shift (oddParity (s.chn ch).shift) ++ [.sent ch (s.chn ch).shift a])) :=
  runEdges_sent (ds := [start, b.getLsbD 0, b.getLsbD 1, b.getLsbD 2, b.getLsbD 3, b.getLsbD 4, b.getLsbD 5,
    b.getLsbD 6]) hst hk hp rfl (b.getLsbD 7) p a

/-! ## The expiry that starts a send (R151) -/

theorem pop_of_len_ne_zero {q : Queue} (h : q.len ≠ 0) : q.pop = (some q.readSlot, q.publishR) :=
  if_neg fun e => h (by rw [Queue.len, e, BitVec.sub_self]; rfl)

theorem timerHandler_startPulse {ch : Chan} {s : State} (hst : (s.chn ch).status = .sendRequested)
    (ha : (s.chn ch).timerArmed = true) (hl : (s.chn ch).legal = true) :
    timerHandler ch s = .next (startPulseExpiry ch (s.stopTimer ch)) := by
  rw [timerHandler_eq hl ha]
  simp [timerBody, hst]

/-- The channel record after the start bit of a send of `b` (R151). -/
def Channel.startSend (c : Channel) (b : Byte) (bitUs : Word32) : Channel :=
  { c with status := .sending, bitcnt := 1, shift := b, parity := true, timerArmed := true, timerPeriod := bitUs,
           err := false, clkOut := .rel, dataOut := .low }

theorem startPulseExpiry_eq {ch : Chan} {s : State} (h : (s.port ch).tx.len ≠ 0) : startPulseExpiry ch s =
    (s.setQueue (.tx ch) (s.port ch).tx.publishR).putChn ch
      ((s.chn ch).startSend (s.port ch).tx.readSlot s.cfg.tBitUs)
      [.latch (.data ch) .low, .latch (.clk ch) .rel] := by
  rw [startPulseExpiry, pop_tx_eq, pop_of_len_ne_zero h]
  simp [clearLine_data_putChn, setLine_clk_putChn, State.armTimer, chn_setPort, ← chn_eq, Channel.startSend]

theorem afterTransfer_eq (ch : Chan) (a : Bool) (s : State) : afterTransfer ch a s =
    (s.setQueue (.tx ch) (s.port ch).tx.publishR).putChn ch
      { (s.chn ch).sentByte (s.port ch).tx.readSlot s.cfg.tGapUs a with clkOut := .rel }
      ([.latch (.data ch) .low, .latch (.clk ch) .rel] ++
        (sendWire ch (s.port ch).tx.readSlot (oddParity (s.port ch).tx.readSlot) ++
          [.sent ch (s.port ch).tx.readSlot a])) := by
  cases ch <;> simp [afterTransfer, State.putChn, State.setChn, Queue.publishR, Channel.sentByte]

/-- The record of a disarmed timer is overwritten by the end of the send. -/
theorem stopTimer_setQueue_putChn (s : State) (ch : Chan) (q : Queue) (c : Channel) (es : List WireEvent) :
    ((s.stopTimer ch).setQueue (.tx ch) q).putChn ch c es = (s.setQueue (.tx ch) q).putChn ch c es := by
  cases ch <;> rfl

/-- Settles O28: a send from its start bit (`runFrame_sent`), and the expiry that gives it (`startPulseExpiry_eq`). -/
theorem clockedSendCompletes : Obligations.ClockedSendCompletes := by
  refine ⟨fun ch b a s hst hk hp => ?_, fun ch d p a s hst ha hl hq => ?_⟩
  · refine (runFrame_sent hst hk hp false b (oddParity b) a).trans ?_
    rw [State.putChn, ← List.append_assoc]
    rfl
  · have hport : (s.stopTimer ch).port ch = { s.port ch with chn := { s.chn ch with timerArmed := false } } :=
      port_setPort _ _ _
    have hcfg : (s.stopTimer ch).cfg = s.cfg := setPort_cfg _ _ _
    show andThen (timerHandler ch s) _ = _
    rw [timerHandler_startPulse hst ha hl, andThen_next, startPulseExpiry_eq (by rw [hport]; exact hq), hport, hcfg,
      stopTimer_setQueue_putChn, runFrame_sent, putChn_putChn, afterTransfer_eq]
    · simp [Channel.sentByte, Channel.startSend]
    all_goals simp [Channel.startSend]

end Sys2Proof.Machine

/-! PROOFS. The transceiver's handlers, stimulus by stimulus (spec/40_transceiver.md R142 to R158), and the whole frames
of R162 and R163: each handler is an equation about the channel record and the trace of its lines. -/

namespace Sys2Proof.Machine

open Sys2Proof

/-! ## The parity of a damaged byte (R162) -/

/-- Flipping one bit of a byte flips its parity. -/
theorem oddParity_flip (b : Byte) {i : Nat} (hi : i < 8) : oddParity (b ^^^ BitVec.twoPow 8 i) = !oddParity b := by
  simp only [oddParity, BitVec.getLsbD_xor, BitVec.getLsbD_twoPow]
  interval_cases i <;> simp [-BitVec.getLsbD_eq_getElem]

/-- Settles O25: every frame is received (`runFrame_received`), and a flipped data bit is a parity mismatch. -/
theorem framesDeliverTheirByte : Obligations.FramesDeliverTheirByte := by
  intro ch b s hst hl
  refine ⟨deviceSends_received hst hl b, fun st p t => runFrame_received hst hl st b p t, fun i hi => ?_⟩
  refine (runFrame_received hst hl false _ (oddParity b) true).trans ?_
  simp [oddParity_flip b hi]

/-! ## The request-to-send and what ends it (R147, R150, R151) -/

theorem clearLine_clk_putChn (s : State) (ch : Chan) :
    s.clearLine (.clk ch) = s.putChn ch { s.chn ch with clkOut := .low } [.latch (.clk ch) .low] := clearLine_clk s ch

theorem requestToSend_eq (ch : Chan) (s : State) : requestToSend ch s = s.putChn ch { s.chn ch with
      clkOut := .low, status := .sendRequested, timerArmed := true, timerPeriod := s.cfg.tStartUs }
    [.latch (.clk ch) .low] := by
  simp [requestToSend, clearLine_clk_putChn, State.armTimer]

/-- What a handler does to the channel record and the trace does not depend on the timer it disarmed at entry. -/
theorem stopTimer_putChn (s : State) (ch : Chan) (c : Channel) (es : List WireEvent) :
    (s.stopTimer ch).putChn ch c es = s.putChn ch c es := setChn_putChn s ch _ c es

theorem stopTimer_cfg (s : State) (ch : Chan) : (s.stopTimer ch).cfg = s.cfg := setChn_cfg s ch _

theorem tx_stopTimer (s : State) (ch : Chan) : ((s.stopTimer ch).port ch).tx = (s.port ch).tx := by
  rw [State.stopTimer, setChn_eq, port_setPort]

/-- R151 with a byte queued, from the expiry on: the start bit of a send of the oldest byte. -/
theorem timerHandler_startSend {ch : Chan} {s : State} (hst : (s.chn ch).status = .sendRequested)
    (ha : (s.chn ch).timerArmed = true) (hl : (s.chn ch).legal = true) (hq : (s.port ch).tx.len ≠ 0) :
    timerHandler ch s = .next ((s.setQueue (.tx ch) (s.port ch).tx.publishR).putChn ch
      ((s.chn ch).startSend (s.port ch).tx.readSlot s.cfg.tBitUs)
      [.latch (.data ch) .low, .latch (.clk ch) .rel]) := by
  rw [timerHandler_startPulse hst ha hl, startPulseExpiry_eq (by rwa [tx_stopTimer]), tx_stopTimer, stopTimer_cfg,
    stopTimer_setQueue_putChn, chn_stopTimer]
  rfl

theorem pop_of_len_eq_zero {q : Queue} (h : q.len = 0) : q.pop = (none, q) :=
  if_pos (len_eq_zero.mp (by rw [h]; rfl))

/-- R151 with no byte queued: the request collapses. -/
theorem startPulseExpiry_empty {ch : Chan} {s : State} (h : (s.port ch).tx.len = 0) : startPulseExpiry ch s =
    s.putChn ch { s.chn ch with clkOut := .rel, status := .passive } [.latch (.clk ch) .rel] := by
  have hpop : s.pop (.tx ch) = (none, s) := by
    rw [pop_tx_eq, pop_of_len_eq_zero h]
    exact congrArg _ (setPort_port s ch)
  rw [startPulseExpiry, hpop]
  simp [setLine_clk_putChn]

theorem timerHandler_gap {ch : Chan} {s : State} (hst : (s.chn ch).status = .postSettle)
    (ha : (s.chn ch).timerArmed = true) (hl : (s.chn ch).legal = true) :
    timerHandler ch s = .next (gapExpiry ch (s.stopTimer ch)) := by
  rw [timerHandler_eq hl ha]
  simp [timerBody, hst]

/-! ## A whole send (R163) -/

theorem exists_lastTwo {ds : List Bool} (h : ds.length = 10) : ∃ es x y, es.length = 8 ∧ ds = es ++ [x, y] := by
  obtain ⟨x, y, hxy⟩ := List.length_eq_two.mp (show (ds.drop 8).length = 2 by simp [h])
  exact ⟨ds.take 8, x, y, by simp [h], by rw [← hxy, List.take_append_drop]⟩

/-- Settles O27: the expiry gives the start bit (`timerHandler_startSend`), the edges the rest (`runEdges_sent`). -/
theorem sendDrivesTheOldestByte : Obligations.SendDrivesTheOldestByte := by
  intro ch ds a s hds hst ha hl hq
  obtain ⟨es, x, y, hes, rfl⟩ := exists_lastTwo hds
  show andThen (timerHandler ch s) _ = _
  rw [timerHandler_startSend hst ha hl hq, andThen_next, execAll_edges, List.append_assoc]
  refine (runEdges_sent ?_ ?_ ?_ hes x y a).trans ?_
  pick_goal 4
  · rw [putChn_putChn, afterTransfer_eq]
    simp [Channel.startSend, Channel.sentByte]
  all_goals simp [Channel.startSend]

/-! ## Received bits (R142 to R146) -/

theorem parityStep_eq (p d : Bool) : parityStep p d = if d then !p else p := by
  cases d <;> simp [parityStep]

theorem bitcnt_add_one {k : Nat} {p : BitVec 4} (h : p.toNat = k) : p + 1 = BitVec.ofNat 4 (k + 1) := by
  rw [eq_ofNat_of_toNat h, BitVec.ofNat_add, BitVec.ofNat_eq_ofNat]

theorem edgeHandler_data {ch : Chan} {s : State} (hst : (s.chn ch).status = .receiving) (d : Bool)
    (hlow : 1 ≤ (s.chn ch).bitcnt.toNat) (hhigh : (s.chn ch).bitcnt.toNat ≤ 8) :
    edgeHandler ch d s = .next (dataBit ch d s) := by
  rw [edgeHandler_receiving hst d hlow (by omega), if_pos hhigh]

/-- Settles O16: the edge of each position is one update of the channel record. -/
theorem receivedBitEdges : Obligations.ReceivedBitEdges := by
  intro ch d s c
  refine ⟨fun hst hl => ?_, fun k hlow hhigh hst hk => ?_, fun hst hk => ?_⟩
  · exact (edgeHandler_start hst hl d).trans (congrArg _ (startBit_eq ch d s))
  · refine ⟨setBit c.shift (k - 1) d, setBit_getLsbD c.shift d (k - 1) (by omega), ?_⟩
    refine (edgeHandler_data hst d (hk ▸ hlow) (hk ▸ hhigh)).trans ?_
    rw [dataBit_eq, Channel.gotBit, parityStep_eq, bitcnt_add_one hk, hk]
  · refine (edgeHandler_parity hst hk d).trans ?_
    have herr : (c.err || d != c.parity) = if d = c.parity then c.err else true := by
      by_cases h : d = c.parity <;> simp [h]
    rw [parityBit_eq, herr]

/-- Settles O17: the stop bit's error is recorded, and the byte is pushed. -/
theorem stopBitEdgeDelivers : Obligations.StopBitEdgeDelivers := by
  intro ch d s hst hk c q err
  have herr : (c.err || !d) = err := by cases d <;> simp [err]
  refine ⟨s.wire ++ [.received ch c.shift err], (edgeHandler_stop hst hk d).trans ?_⟩
  rw [stopBit_eq, push_snd, herr]

/-! ## Sent bits (R152 to R155) -/

theorem edgeHandler_sentData {ch : Chan} {s : State} (hst : (s.chn ch).status = .sending) (d : Bool)
    (hlow : 1 ≤ (s.chn ch).bitcnt.toNat) (hhigh : (s.chn ch).bitcnt.toNat ≤ 8) :
    edgeHandler ch d s = .next (sentDataBit ch s) := by
  rw [edgeHandler_sending hst d hlow (by omega), if_pos hhigh]

/-- Settles O18: each edge of a send is one update of the channel record and one event on the trace. -/
theorem sentBitEdges : Obligations.SentBitEdges := by
  intro ch d s hst c drive
  refine ⟨fun k hlow hhigh hk => ?_, fun hk => ?_, fun hk => ?_, fun hk => ?_⟩
  · refine (edgeHandler_sentData hst d (hk ▸ hlow) (hk ▸ hhigh)).trans ?_
    rw [sentDataBit_eq, Channel.sentBit, Channel.nextBit, parityStep_eq, bitcnt_add_one hk, hk]
    rfl
  · exact (edgeHandler_sentParity hst hk d).trans (congrArg _ (sentParityBit_eq ch s))
  · exact (edgeHandler_sentStop hst hk d).trans (congrArg _ (sentStopBit_eq ch s))
  · exact ⟨_, (edgeHandler_ack hst hk d).trans (congrArg _ (ackBit_eq ch d s))⟩

/-! ## Ignored events, kicks and expiries (R147 to R151, R156 to R158) -/

/-- Settles O19: the edge body and the timer body give the state back. -/
theorem ignoredEvents : Obligations.IgnoredEvents := by
  intro ch s hl
  refine ⟨fun hst d => ?_, fun hst ha => ?_⟩
  · have hbody : edgeBody ch d s = s := by simp [edgeBody, hst]
    exact (edgeHandler_eq hl d).trans (congrArg _ hbody)
  · have hbody : timerBody ch (s.stopTimer ch) = s.stopTimer ch := by simp [timerBody, hst]
    exact (timerHandler_eq hl ha).trans (congrArg _ hbody)

/-- Settles O20: the handler clears the latch, and its body requests to send or does nothing. -/
theorem kickStartsASend : Obligations.KickStartsASend := by
  intro ch s hk hl
  have hrun : exec (.kick ch) s = .next (kickBody ch (s.setKick ch false)) := kickHandler_eq hl hk
  have htx : ((s.setKick ch false).port ch).tx = (s.port ch).tx := by rw [setKick_eq, port_setPort]
  refine ⟨fun hst hq => ?_, fun h => ?_⟩
  · rw [hrun, kickBody, if_pos ⟨by rw [chn_setKick, hst], by rwa [queue_tx, htx]⟩, requestToSend_eq]
    cases ch <;> rfl
  · rw [hrun, kickBody, if_neg (by rw [chn_setKick, queue_tx, htx]; tauto)]
    rfl

theorem abandon_eq (ch : Chan) (s : State) : abandon ch s = s.putChn ch { s.chn ch with
      clkOut := .rel, dataOut := .rel, timerArmed := false, bitcnt := 0, status := .passive }
    [.latch (.data ch) .rel, .latch (.clk ch) .rel] := by
  simp [abandon, setLine_data_putChn, setLine_clk_putChn, State.stopTimer]

/-- Settles O21: in both directions the expiry abandons the frame. -/
theorem watchdogAbandonsTheFrame : Obligations.WatchdogAbandonsTheFrame := by
  intro ch s hst ha hl
  have hbody : timerBody ch (s.stopTimer ch) = abandon ch (s.stopTimer ch) := by
    rcases hst with hst | hst <;> simp [timerBody, hst]
  refine (timerHandler_eq hl ha).trans ?_
  rw [hbody, abandon_eq, stopTimer_putChn, chn_stopTimer]
  rfl

theorem exec_of_timer_or_settle {i : Instr} {ch : Chan} (hi : i = .timer ch ∨ i = .settle ch) (s : State) :
    exec i s = timerHandler ch s := by
  rcases hi with rfl | rfl <;> rfl

theorem exec_of_timer_or_pulse {i : Instr} {ch : Chan} (hi : i = .timer ch ∨ i = .pulse ch) (s : State) :
    exec i s = timerHandler ch s := by
  rcases hi with rfl | rfl <;> rfl

theorem gapExpiry_empty {ch : Chan} {s : State} (h : (s.port ch).tx.len = 0) :
    gapExpiry ch s = s.setChn ch { s.chn ch with status := .passive } :=
  if_neg (not_not.mpr h)

theorem gapExpiry_send {ch : Chan} {s : State} (h : (s.port ch).tx.len ≠ 0) : gapExpiry ch s = requestToSend ch s :=
  if_pos h

/-! The last two theorems have a namespace of their own: the model's functions have their names. -/

namespace Transceiver

/-- Settles O22: the gap expiry splits on the TX queue (`gapExpiry_empty`, `gapExpiry_send`). -/
theorem gapExpiry : Obligations.GapExpiry := by
  intro ch s i hi hst ha hl
  rw [exec_of_timer_or_settle hi, timerHandler_gap hst ha hl]
  refine ⟨fun hq => ?_, fun hq => ?_⟩
  · rw [gapExpiry_empty (by rwa [tx_stopTimer]), chn_stopTimer, State.stopTimer, setChn_setChn]
  · rw [gapExpiry_send (by rwa [tx_stopTimer]), requestToSend_eq, stopTimer_putChn, stopTimer_cfg, chn_stopTimer]
    rfl

/-- Settles O23: the start-pulse expiry splits on the TX queue (`timerHandler_startSend`, `startPulseExpiry_empty`). -/
theorem startPulseExpiry : Obligations.StartPulseExpiry := by
  intro ch s i hi hst ha hl q
  rw [exec_of_timer_or_pulse hi]
  refine ⟨fun hq => ?_, fun hq => ?_⟩
  · rw [timerHandler_startSend hst ha hl hq]
    cases ch <;> rfl
  · rw [timerHandler_startPulse hst ha hl, startPulseExpiry_empty (by rwa [tx_stopTimer]), stopTimer_putChn,
      chn_stopTimer]
    rfl

end Transceiver

end Sys2Proof.Machine

/-! PROOFS. Queue operations (spec/41_queue.md R181 to R187, R190, R191): what a push and a pop do to the contents, and
the results of the queue stimuli of either side and of EMIT. -/

namespace Sys2Proof.Machine

open Sys2Proof

/-! ## Contents (R183 to R187) -/

theorem isFull_of_lt {c : Nat} {q : Queue} (h : QueueOk c q) (hlt : q.len.toNat < c) : q.isFull = false := by
  rw [isFull_eq h, decide_eq_false (Nat.not_le.mpr hlt)]

theorem isFull_of_eq {c : Nat} {q : Queue} (h : QueueOk c q) (heq : q.len.toNat = c) : q.isFull = true := by
  rw [isFull_eq h, decide_eq_true heq.ge]

/-- Settles O34: fullness is occupancy `C`, and push and pop are `push_contents` and `pop_contents`. -/
theorem queueContents : Obligations.QueueContents := by
  refine ⟨fun c n hc => by rw [fullAt_eq hc, decide_eq_true_iff], fun c q b h => ?_⟩
  obtain ⟨hpop, hrest⟩ := pop_contents q
  refine ⟨fun hlt => ?_, fun heq => ?_, contents_nil, hpop, hrest, h.push b, h.pop⟩
  · have hroom := isFull_of_lt h hlt
    rw [push_room b hroom]
    exact ⟨rfl, contents_push h hroom b⟩
  · rw [push_full b (isFull_of_eq h heq)]
    exact ⟨rfl, rfl⟩

/-! ## One push or pop in the state -/

theorem push_rx_room {s : State} {ch : Chan} (b : Byte) (h : (s.port ch).rx.isFull = false) :
    s.push (.rx ch) b = (true, s.setPort ch { s.port ch with rx := ((s.port ch).rx.writeSlot b).publishW }) := by
  rw [push_rx_eq, push_room b h]

theorem push_tx_room {s : State} {ch : Chan} (b : Byte) (h : (s.port ch).tx.isFull = false) :
    s.push (.tx ch) b = (true, s.setPort ch { s.port ch with
      tx := ((s.port ch).tx.writeSlot b).publishW
      kickPend := true }) := by
  rw [push_tx_eq, push_room b h, Bool.or_true]

theorem statePush_full {s : State} {q : QSel} (b : Byte) (h : (s.queue q).isFull = true) :
    s.push q b = (false, s) :=
  if_pos h

theorem statePop_empty {s : State} {q : QSel} (h : (s.queue q).w = (s.queue q).r) : s.pop q = (none, s) := by
  rw [State.pop, pop_of_len_eq_zero ((not_iff_not.mp len_ne_zero).mpr h), setQueue_queue]

theorem statePop_byte {s : State} {q : QSel} (h : (s.queue q).w ≠ (s.queue q).r) :
    s.pop q = (some (s.queue q).readSlot, s.setQueue q (s.queue q).publishR) := by
  rw [State.pop, pop_of_len_ne_zero (len_ne_zero.mpr h)]

theorem complete_push_room {s : State} {ch : Chan} (b : Byte) (k : PushK) (h : (s.port ch).tx.isFull = false) :
    (Task.push .readR (.tx ch) b k).complete s = resumePush (.tx ch) b k true (s.setPort ch { s.port ch with
      tx := ((s.port ch).tx.writeSlot b).publishW
      kickPend := true }) := by
  rw [Task.complete, pushRest, push_tx_room b h]

theorem complete_push_full {s : State} {ch : Chan} (b : Byte) (k : PushK) (h : (s.port ch).tx.isFull = true) :
    (Task.push .readR (.tx ch) b k).complete s = resumePush (.tx ch) b k false s := by
  rw [Task.complete, pushRest, statePush_full (q := .tx ch) b h]

/-! ## An operation that is one queue operation -/

/-- Called on an idle foreground, an operation that starts with `t` runs that queue operation first. -/
theorem callOp_go {op : FgOp} {s : State} {t : Task} (hidle : s.fgIdle = true)
    (hbegin : op.begin s.called = (.go t, s.called)) :
    ∃ fuel, callOp op s = runAct fuel (t.complete s.called) := by
  obtain ⟨fuel, hfuel⟩ := fgFuel_succ s.called
  refine ⟨fuel + 63, ?_⟩
  rw [callOp_idle hidle, hbegin, hfuel]
  exact runTask_succ (fuel + 63) t s.called

theorem callOp_returns {op : FgOp} {s u : State} {t : Task} {r : Ret} (hidle : s.fgIdle = true)
    (hbegin : op.begin s.called = (.go t, s.called)) (hret : t.complete s.called = (.ret r, u)) :
    callOp op s = .next (u.returns r) := by
  obtain ⟨fuel, hrun⟩ := callOp_go hidle hbegin
  rw [hrun, hret]
  rfl

/-- A step with nothing on the tape goes on with the operation in progress, its current queue operation first. -/
theorem step_inProgress {s : State} {t : Task} (htape : s.tape = []) (hfg : s.fg = some t) :
    ∃ fuel, step s = runAct fuel (t.complete s) := by
  obtain ⟨fuel, hfuel⟩ := fgFuel_succ s
  refine ⟨fuel + 63, ?_⟩
  rw [step_nil htape, fgTurn, hfg, hfuel]
  exact runTask_succ (fuel + 63) t s

/-! ## PUSH_RX and PUSH_TX (R183, R191) -/

theorem pushTx_full {s : State} {ch : Chan} (b : Byte) (hidle : s.fgIdle = true)
    (h : (s.port ch).tx.isFull = true) : callOp (.pushTx ch b) s = .next (s.called.returns (.bool false)) := by
  refine callOp_returns hidle rfl ?_
  rw [complete_push_full b .ret (by rwa [called_port]), resumePush]

theorem pushTx_room {s : State} {ch : Chan} (b : Byte) (hidle : s.fgIdle = true)
    (h : (s.port ch).tx.isFull = false) :
    callOp (.pushTx ch b) s = .next ((s.called.setPort ch { s.port ch with
      tx := ((s.port ch).tx.writeSlot b).publishW
      kickPend := true }).returns (.bool true)) := by
  refine callOp_returns hidle rfl ?_
  rw [complete_push_room b .ret (by rwa [called_port]), resumePush, called_port]

/-- Settles O36: each side's push finds room or does not (`push_rx_room`, `pushTx_room`, `pushTx_full`). -/
theorem pushResult : Obligations.PushResult := by
  intro ch b s rx tx
  refine ⟨fun hfull => ?_, fun hroom => ?_, fun hidle hfull => pushTx_full b hidle hfull,
    fun hidle hroom => pushTx_room b hidle hroom⟩
  · show Host.Outcome.next (isrPush (.rx ch) b s) = _
    rw [isrPush, statePush_full (q := .rx ch) b hfull]
    rfl
  · show Host.Outcome.next (isrPush (.rx ch) b s) = _
    rw [isrPush, push_rx_room b hroom, State.isrReturns, setPort_isrRets]
    rfl

/-! ## POP, LEN, FULL and GETSC (R181, R182, R184, R201) -/

/-- POP_RX, and GETSC on the keyboard's queue, are one pop that returns its result. -/
theorem popRx_returns {op : FgOp} {ch : Chan} {s : State} (hidle : s.fgIdle = true)
    (hbegin : op.begin s.called = (beginPop (.rx ch) .ret, s.called)) :
    ((s.port ch).rx.w = (s.port ch).rx.r → callOp op s = .next (s.called.returns (.byte none))) ∧
    ((s.port ch).rx.w ≠ (s.port ch).rx.r → callOp op s = .next ((s.called.setPort ch { s.port ch with
      rx := (s.port ch).rx.publishR }).returns (.byte (some (s.port ch).rx.readSlot)))) := by
  have hqueue : s.called.queue (.rx ch) = (s.port ch).rx := by rw [queue_rx, called_port]
  refine ⟨fun h => callOp_returns hidle hbegin ?_, fun h => callOp_returns hidle hbegin ?_⟩
  · simp only [Task.complete, popRest, statePop_empty (s := s.called) (q := .rx ch) (by rwa [hqueue]), resumePop]
  · simp only [Task.complete, popRest, statePop_byte (s := s.called) (q := .rx ch) (by rwa [hqueue]), resumePop,
      hqueue, setQueue_rx, called_port]

/-- Settles O37: each is one queue operation, whose result is returned or recorded. -/
theorem popAndQueryResult : Obligations.PopAndQueryResult := by
  intro ch s rx tx
  refine ⟨fun hidle i hi => ?_, fun hidle => ?_, ?_, fun h => ?_, fun h => ?_⟩
  · rcases hi with rfl | ⟨rfl, rfl⟩
    · exact popRx_returns hidle rfl
    · exact popRx_returns hidle rfl
  · have hrx : s.called.queue (.rx ch) = rx := by rw [queue_rx, called_port]
    have htx : s.called.queue (.tx ch) = tx := by rw [queue_tx, called_port]
    refine ⟨callOp_returns hidle rfl ?_, callOp_returns hidle rfl ?_, callOp_returns hidle rfl ?_,
      callOp_returns hidle rfl ?_⟩
    all_goals simp only [Task.complete, resumeLen, hrx, htx]; rfl
  · cases ch <;> exact ⟨rfl, rfl, rfl, rfl⟩
  · show Host.Outcome.next (isrPop (.tx ch) s) = _
    rw [isrPop, statePop_empty (q := .tx ch) h]
    rfl
  · show Host.Outcome.next (isrPop (.tx ch) s) = _
    rw [isrPop, statePop_byte (q := .tx ch) h, State.isrReturns, setQueue_tx, setPort_isrRets]
    rfl

/-! ## EMIT (R190) -/

/-- Settles O38: an emit that is called or tried again finds room or waits (`complete_push_room`,
`complete_push_full`). -/
theorem emitQueuesOrWaits : Obligations.EmitQueuesOrWaits := by
  intro ch b s q waiting done waits
  refine ⟨fun hidle => ⟨fun hroom => emit_room hidle b hroom, fun hfull => emit_full hidle b hfull⟩,
    fun hfg htape => ?_⟩
  obtain ⟨fuel, hstep⟩ := step_inProgress htape hfg
  rw [hstep]
  refine ⟨fun hroom => ?_, fun hfull => ?_⟩
  · rw [complete_push_room b _ hroom]
    rfl
  · rw [complete_push_full b _ hfull]
    rfl

end Sys2Proof.Machine

/-! PROOFS. What is stored in the queue buffers (spec/41_queue.md R183, R184, 10_state.md R44): pops and the rest of the
state leave every slot alone, a push fills the slot of the write index, and an instruction fills those of its pushes. -/

namespace Sys2Proof.Machine

open Sys2Proof

/-! ## Nothing stored -/

theorem SameSlots.of_buf {s t : State} (h : ∀ q, (t.queue q).buf = (s.queue q).buf) : SameSlots s t :=
  fun q a => congrArg (Memory.read · a) (h q)

theorem SameSlots.refl (s : State) : SameSlots s s := fun _ _ => rfl

theorem SameSlots.trans {s t u : State} (h : SameSlots s t) (h' : SameSlots t u) : SameSlots s u :=
  fun q a => (h' q a).trans (h q a)

theorem SameSlots.but {s t : State} (h : SameSlots s t) (q0 : QSel) (a0 : Nat) : SameSlotsBut q0 a0 s t :=
  fun q a _ => h q a

theorem sameSlots_of_ports {s t : State} (hk : t.kbd = s.kbd) (hm : t.mouse = s.mouse) : SameSlots s t :=
  .of_buf fun q => by rcases q with (_ | _) | (_ | _) <;> simp [hk, hm]

theorem sameSlots_setQueue (s : State) {q0 : QSel} {v : Queue} (hv : v.buf = (s.queue q0).buf) :
    SameSlots s (s.setQueue q0 v) := by
  refine .of_buf fun q => ?_
  by_cases hq : q = q0
  · rw [hq, queue_setQueue, hv]
  · rw [queue_setQueue_ne s v hq]

theorem sameSlots_pop (s : State) (q : QSel) : SameSlots s (s.pop q).2 :=
  sameSlots_setQueue s (pop_producerSide (s.queue q)).2.1

theorem sameSlots_putChn (s : State) (ch : Chan) (c : Channel) (es : List WireEvent) :
    SameSlots s (s.putChn ch c es) :=
  .of_buf fun q => by cases ch <;> rcases q with (_ | _) | (_ | _) <;> rfl

theorem sameSlots_setChn (s : State) (ch : Chan) (c : Channel) : SameSlots s (s.setChn ch c) :=
  .of_buf fun q => by cases ch <;> rcases q with (_ | _) | (_ | _) <;> rfl

theorem sameSlots_setKick (s : State) (ch : Chan) (k : Bool) : SameSlots s (s.setKick ch k) :=
  .of_buf fun q => by cases ch <;> rcases q with (_ | _) | (_ | _) <;> rfl

/-! ## Handlers that store nothing (R147 to R158) -/

theorem sameSlots_requestToSend (ch : Chan) (s : State) : SameSlots s (requestToSend ch s) := by
  rw [requestToSend_eq]
  exact sameSlots_putChn _ _ _ _

theorem sameSlots_abandon (ch : Chan) (s : State) : SameSlots s (abandon ch s) := by
  rw [abandon_eq]
  exact sameSlots_putChn _ _ _ _

theorem sameSlots_kickBody (ch : Chan) (s : State) : SameSlots s (kickBody ch s) := by
  unfold kickBody
  split
  · exact sameSlots_requestToSend ch s
  · exact .refl s

theorem sameSlots_timerBody (ch : Chan) (s : State) : SameSlots s (timerBody ch s) := by
  unfold timerBody
  split
  case h_1 => exact .refl s
  case h_2 | h_5 => exact sameSlots_abandon ch s
  case h_3 =>
    by_cases hq : (s.port ch).tx.len = 0
    · rw [gapExpiry_empty hq]; exact sameSlots_setChn _ _ _
    · rw [gapExpiry_send hq]; exact sameSlots_requestToSend ch s
  case h_4 =>
    by_cases hq : (s.port ch).tx.len = 0
    · rw [startPulseExpiry_empty hq]; exact sameSlots_putChn _ _ _ _
    · have hpop : SameSlots s (s.setQueue (.tx ch) (s.port ch).tx.publishR) := sameSlots_setQueue s rfl
      rw [startPulseExpiry_eq hq]; exact hpop.trans (sameSlots_putChn _ _ _ _)

theorem sameSlots_enterHandler (s : State) (irq : Irq) : SameSlots s (s.enterHandler irq) := by
  cases irq with
  | edge ch => exact .refl s
  | timer ch => exact sameSlots_setChn _ _ _
  | kick ch => exact sameSlots_setKick _ _ _

theorem takeInterrupt_sameSlots {s t : State} {irq : Irq} {body : State → State} (hb : ∀ u, SameSlots u (body u))
    (h : s.takeInterrupt irq body = .next t) : SameSlots s t := by
  obtain ⟨-, rfl⟩ | ⟨-, -, rfl⟩ := takeInterrupt_eq_next h
  · exact .refl _
  · exact (sameSlots_enterHandler s irq).trans (hb _)

theorem timerHandler_sameSlots {ch : Chan} {s t : State} (h : timerHandler ch s = .next t) : SameSlots s t :=
  takeInterrupt_sameSlots (sameSlots_timerBody ch) h

theorem isrPop_sameSlots {ch : Chan} {s t : State} (h : execPopTx ch s = .next t) : SameSlots s t := by
  cases h
  exact (sameSlots_pop s (.tx ch)).trans (sameSlots_of_ports rfl rfl)

/-! ## Foreground operations that store nothing -/

/-- An operation is held, or it runs; if it returns at once in a state with the same slots, none has changed. -/
theorem callOp_sameSlots {op : FgOp} {s t : State} (h : callOp op s = .next t)
    (hrun : s.fgIdle = true → ∃ u r, callOp op s = .next (u.returns r) ∧ SameSlots s.called u) :
    SameSlots s t := by
  cases hidle : s.fgIdle with
  | false =>
    rw [callOp_busy hidle] at h
    cases h
    exact sameSlots_of_ports rfl rfl
  | true =>
    obtain ⟨u, r, hu, hs⟩ := hrun hidle
    rw [hu] at h
    cases h
    exact ((sameSlots_of_ports (t := s.called) rfl rfl).trans hs).trans (sameSlots_of_ports rfl rfl)

theorem popRx_sameSlots {op : FgOp} {ch : Chan} {s t : State}
    (hbegin : op.begin s.called = (beginPop (.rx ch) .ret, s.called)) (h : callOp op s = .next t) : SameSlots s t :=
  callOp_sameSlots h fun hidle => ⟨_, _, callOp_returns hidle hbegin rfl, sameSlots_pop _ _⟩

theorem query_sameSlots {op : FgOp} {q : QSel} {k : LenK} {r : Ret} {s t : State}
    (hbegin : op.begin s.called = (.go (.len q k), s.called))
    (hread : (Task.len q k).complete s.called = (.ret r, s.called)) (h : callOp op s = .next t) : SameSlots s t :=
  callOp_sameSlots h fun hidle => ⟨_, r, callOp_returns hidle hbegin hread, .refl _⟩

theorem returning_sameSlots {op : FgOp} {r : Ret} {s t u : State} (hbegin : op.begin s.called = (.ret r, u))
    (hu : SameSlots s.called u) (h : callOp op s = .next t) : SameSlots s t :=
  callOp_sameSlots h fun hidle => ⟨u, r, by rw [callOp_idle hidle, hbegin]; rfl, hu⟩

/-- None of the three scancode rows is a lock key's, whatever is pending (R202, R203, R224). -/
theorem decodeByte_scancodeRow (cfg : Cfg) (kb : Kb) {c : Byte} (hc : c = SC_EXT ∨ c = SC_BRK ∨ c = SC_E1) :
    (decodeByte cfg kb c).1 = .nothing := by
  rcases hc with rfl | rfl | rfl
  · rfl
  · rfl
  · cases hbrk : hasBit kb.mods bitBRK <;> cases hext : hasBit kb.mods bitEXT <;>
      simp [decodeByte, makeKey, hbrk, hext, SC_E1] <;> rfl

theorem scancodeRow_sameSlots {c : Byte} (hc : c = SC_EXT ∨ c = SC_BRK ∨ c = SC_E1) {s t : State}
    (h : callOp (.decodeByte c) s = .next t) : SameSlots s t := by
  refine returning_sameSlots (r := .byte none) (u := { s.called with kb := (decodeByte s.cfg s.kb c).2 }) ?_
    (sameSlots_of_ports rfl rfl) h
  have hnothing := decodeByte_scancodeRow s.called.cfg s.called.kb hc
  simp only [FgOp.begin, beginDecodeByte, hnothing]
  rfl

/-- Settles O31: a handler that does not deliver, a pop, a query, or a decode step that emits no byte. -/
theorem formsThatStoreNothing : Obligations.FormsThatStoreNothing := by
  intro i ch s t hi h
  simp only [List.mem_cons, List.not_mem_nil, or_false] at hi
  rcases hi with rfl | rfl | rfl | rfl | rfl | rfl | rfl | rfl | rfl | rfl | rfl | rfl | rfl | rfl | rfl | rfl
  · exact timerHandler_sameSlots h
  · exact takeInterrupt_sameSlots (sameSlots_kickBody ch) h
  · exact timerHandler_sameSlots h
  · exact timerHandler_sameSlots h
  · exact isrPop_sameSlots h
  · exact popRx_sameSlots rfl h
  · exact query_sameSlots rfl rfl h
  · exact query_sameSlots rfl rfl h
  · exact query_sameSlots rfl rfl h
  · exact query_sameSlots rfl rfl h
  · exact popRx_sameSlots rfl h
  · exact returning_sameSlots rfl (.refl _) h
  · exact returning_sameSlots rfl (.refl _) h
  · exact scancodeRow_sameSlots (.inl rfl) h
  · exact scancodeRow_sameSlots (.inr (.inl rfl)) h
  · exact scancodeRow_sameSlots (.inr (.inr rfl)) h

/-! ## One byte stored (R183) -/

/-- The queues of `t` are those of `s` after a push of `b` onto `q0`. -/
def Pushed (q0 : QSel) (b : Byte) (s t : State) : Prop :=
  ∀ q, t.queue q = (s.setQueue q0 ((s.queue q0).push b).2).queue q

theorem Pushed.sameQueues {q0 : QSel} {b : Byte} {s t u : State} (h : Pushed q0 b s t)
    (hu : ∀ q, u.queue q = t.queue q) : Pushed q0 b s u :=
  fun q => (hu q).trans (h q)

theorem Pushed.queue_eq {q0 : QSel} {b : Byte} {s t : State} (h : Pushed q0 b s t) :
    t.queue q0 = ((s.queue q0).push b).2 :=
  (h q0).trans (queue_setQueue s q0 _)

/-- A push stores its byte in the slot of the write index, or nothing. -/
theorem Pushed.sameSlotsBut {q0 : QSel} {b : Byte} {s t : State} (h : Pushed q0 b s t) :
    SameSlotsBut q0 ((s.queue q0).slot (s.queue q0).w) s t := by
  intro q a hne
  by_cases hq : q = q0
  · subst hq
    rw [h.queue_eq, push_snd]
    split
    · rfl
    · exact read_write_ne b fun ha => hne ⟨rfl, ha⟩
  · rw [h q, queue_setQueue_ne s _ hq]

/-- Where there is room, the byte is read back. -/
theorem Pushed.read {q0 : QSel} {b : Byte} {s t : State} (h : Pushed q0 b s t) (hs : StateOk s)
    (hroom : (s.queue q0).isFull = false) :
    Memory.read (t.queue q0).buf ((s.queue q0).slot (s.queue q0).w) = b := by
  rw [h.queue_eq, push_room b hroom]
  exact read_write _ b (hs.base.queue q0).buf

theorem pushed_rx (ch : Chan) (b : Byte) (s : State) : Pushed (.rx ch) b s (s.push (.rx ch) b).2 := by
  rw [push_rx_eq]
  exact fun q => rfl

theorem pushed_tx (ch : Chan) (b : Byte) (s : State) : Pushed (.tx ch) b s (s.push (.tx ch) b).2 := by
  rw [push_tx_eq]
  exact fun q => by cases ch <;> rcases q with (_ | _) | (_ | _) <;> rfl

/-! The last edge of a received frame pushes the byte; no other edge stores anything (R141 to R155). -/

theorem edgeHandler_eq_next {ch : Chan} {d : Bool} {s t : State} (h : edgeHandler ch d s = .next t) :
    (s.chn ch).legal = true ∧ t = edgeBody ch d s := by
  obtain ⟨hoff, -⟩ | ⟨-, hl, ht⟩ := takeInterrupt_eq_next h
  · cases hoff
  · exact ⟨hl, ht⟩

theorem pushed_stopBit (ch : Chan) (d : Bool) (s : State) :
    Pushed (.rx ch) (s.chn ch).shift s (stopBit ch d s) := by
  rw [stopBit_eq]
  exact fun q => by cases ch <;> rcases q with (_ | _) | (_ | _) <;> rfl

theorem sameSlots_edgeBody {ch : Chan} {s : State} (hl : (s.chn ch).legal = true)
    (hlast : ¬((s.chn ch).status = .receiving ∧ (s.chn ch).bitcnt = 10)) (d : Bool) :
    SameSlots s (edgeBody ch d s) := by
  unfold edgeBody
  dsimp only
  split
  case h_1 | h_2 => rw [startBit_eq]; exact sameSlots_setChn _ _ _
  case h_3 hst =>
    have hle : (s.chn ch).bitcnt.toNat ≤ 10 := by simp [Channel.legal, hst] at hl; omega
    have hne : (s.chn ch).bitcnt.toNat ≠ 10 := fun h10 => hlast ⟨hst, eq_ofNat_of_toNat h10⟩
    split
    · rw [dataBit_eq]; exact sameSlots_setChn _ _ _
    · rw [if_pos (by omega), parityBit_eq]; exact sameSlots_setChn _ _ _
  case h_4 => exact .refl s
  case h_5 =>
    split
    · rw [sentDataBit_eq]; exact sameSlots_putChn _ _ _ _
    split
    · rw [sentParityBit_eq]; exact sameSlots_putChn _ _ _ _
    split
    · rw [sentStopBit_eq]; exact sameSlots_putChn _ _ _ _
    · rw [ackBit_eq]; exact sameSlots_putChn _ _ _ _

/-! PUSH_TX and the emits are one push (R183, R190). -/

/-- After the push, an operation that pushes one byte changes no queue any more: it returns, or it waits. -/
theorem resumePush_queues {fuel : Nat} {q0 : QSel} {b : Byte} {k : PushK} {ok : Bool} {s t : State}
    (hk : k = .ret ∨ k = .emit [] .ret) (h : runAct fuel (resumePush q0 b k ok s) = .next t) (q : QSel) :
    t.queue q = s.queue q := by
  rcases hk with rfl | rfl
  · cases h
    rcases q with (_ | _) | (_ | _) <;> rfl
  · cases ok with
    | true => cases h; rcases q with (_ | _) | (_ | _) <;> rfl
    | false => cases h; rcases q0 with (_ | _) | (_ | _) <;> rcases q with (_ | _) | (_ | _) <;> rfl

/-- The operations that push one byte onto a TX queue, called on an idle foreground. -/
theorem pushed_callOp {op : FgOp} {ch : Chan} {b : Byte} {s t : State} (hop : op = .pushTx ch b ∨ op = .emit ch b)
    (hidle : s.fgIdle = true) (h : callOp op s = .next t) : Pushed (.tx ch) b s t := by
  obtain ⟨k, hk, hbegin⟩ : ∃ k, (k = .ret ∨ k = .emit [] .ret) ∧
      op.begin s.called = (.go (.push .readR (.tx ch) b k), s.called) := by
    rcases hop with rfl | rfl
    · exact ⟨.ret, .inl rfl, rfl⟩
    · exact ⟨.emit [] .ret, .inr rfl, rfl⟩
  obtain ⟨fuel, hrun⟩ := callOp_go hidle hbegin
  rw [hrun] at h
  have hpushed : Pushed (.tx ch) b s (s.called.push (.tx ch) b).2 := by
    intro q
    rw [pushed_tx ch b s.called q]
    cases ch <;> rcases q with (_ | _) | (_ | _) <;> rfl
  exact hpushed.sameQueues (resumePush_queues hk h)

/-- Called, such an operation stores its byte, or is held and stores nothing. -/
theorem callOp_storesOne {op : FgOp} {ch : Chan} {b : Byte} {s t : State} (hop : op = .pushTx ch b ∨ op = .emit ch b)
    (h : callOp op s = .next t) : SameSlotsBut (.tx ch) ((s.port ch).tx.slot (s.port ch).tx.w) s t ∧
      (StateOk s → s.fgIdle = true → (s.port ch).tx.isFull = false →
        Memory.read (t.port ch).tx.buf ((s.port ch).tx.slot (s.port ch).tx.w) = b) := by
  refine ⟨?_, fun hs hidle => (pushed_callOp hop hidle h).read hs⟩
  cases hidle : s.fgIdle with
  | true => exact (pushed_callOp hop hidle h).sameSlotsBut
  | false => exact (callOp_sameSlots h fun hi => absurd hi (by simp [hidle])).but _ _

/-- Settles O32: the forms are one push each (`Pushed`), and an edge that is not the last of a frame is none. -/
theorem formsThatStoreOneByte : Obligations.FormsThatStoreOneByte := by
  refine ⟨fun ch b s t h => ?_, fun ch d s t h => ?_, fun i ch b s t hi h => ?_⟩
  · cases h
    have hpushed : Pushed (.rx ch) b s (isrPush (.rx ch) b s) :=
      (pushed_rx ch b s).sameQueues fun q => by rcases q with (_ | _) | (_ | _) <;> rfl
    exact ⟨hpushed.sameSlotsBut, hpushed.read⟩
  · obtain ⟨hl, rfl⟩ := edgeHandler_eq_next h
    by_cases hlast : (s.chn ch).status = .receiving ∧ (s.chn ch).bitcnt = 10
    · have hbody : edgeBody ch d s = stopBit ch d s := by simp [edgeBody, hlast.1, hlast.2]
      rw [hbody]
      exact ⟨(pushed_stopBit ch d s).sameSlotsBut, fun hno => absurd hlast hno,
        fun hs _ => (pushed_stopBit ch d s).read hs⟩
    · have hsame := sameSlots_edgeBody hl hlast d
      exact ⟨hsame.but _ _, fun _ => hsame, fun _ hyes => absurd hyes hlast⟩
  · obtain ⟨op, hfg, hop⟩ : ∃ op, fgOpOf i = some op ∧ (op = .pushTx ch b ∨ op = .emit ch b) := by
      rcases hi with rfl | rfl | hrow | ⟨c, n, l, hrow⟩
      · exact ⟨_, rfl, .inl rfl⟩
      · exact ⟨_, rfl, .inr rfl⟩
      · exact ⟨_, fgOpOf_byteCommand hrow, .inr rfl⟩
      · cases hrow
        exact ⟨_, rfl, .inr rfl⟩
    rw [exec_eq_callOp hfg] at h
    exact callOp_storesOne hop h

/-! ## The slots that pushes fill (R44, R183) -/

theorem r_pushAll (q : Queue) (bs : List Byte) : (q.pushAll bs).r = q.r := by
  induction bs generalizing q with
  | nil => rfl
  | cons b bs ih =>
    rw [Queue.pushAll, ih, push_snd]
    split <;> rfl

/-- Pushes move the write index by as many places as the occupancy grows. -/
theorem toNat_w_pushAll {c : Nat} {q : Queue} (h : QueueOk c q) (bs : List Byte) :
    ((q.pushAll bs).w - q.w).toNat = (q.pushAll bs).len.toNat - q.len.toNat := by
  have hle := len_pushAll h bs
  have hr := r_pushAll q bs
  simp only [Queue.len] at hle ⊢
  rw [hr] at hle ⊢
  bv_omega

/-- A slot that none of a number of pushes fills reads as before. -/
theorem read_pushAll {c : Nat} {q : Queue} (h : QueueOk c q) (bs : List Byte) {a : Nat}
    (ha : ∀ k < (q.pushAll bs).len.toNat - q.len.toNat, q.slot (q.w + BitVec.ofNat 32 k) ≠ a) :
    Memory.read (q.pushAll bs).buf a = Memory.read q.buf a := by
  induction bs generalizing q with
  | nil => rfl
  | cons b bs ih =>
    rw [Queue.pushAll] at ha ⊢
    cases hf : q.isFull with
    | true =>
      rw [push_full b hf] at ha ⊢
      exact ih h ha
    | false =>
      have hq : QueueOk c (q.writeSlot b).publishW := (h.writeSlot b).publishW hf
      have hlen : (q.writeSlot b).publishW.len.toNat = q.len.toNat + 1 :=
        len_publishW (by have := h.len; have := (capValid_bounds h.cap).2; rw [writeSlot_len]; omega)
      have hle := len_pushAll hq bs
      rw [push_room b hf] at ha ⊢
      refine (ih hq fun k hk => ?_).trans (read_write_ne b fun he => ha 0 ?_ ?_)
      · have hnext : q.w + 1 + BitVec.ofNat 32 k = q.w + BitVec.ofNat 32 (k + 1) := by bv_omega
        rw [slot_publishW, slot_writeSlot, publishW_w, writeSlot_w, hnext]
        exact ha (k + 1) (by dsimp only; omega)
      · dsimp only
        omega
      · simp [he]

theorem buf_popN (q : Queue) (n : Nat) : (q.popN n).buf = q.buf := by
  induction n generalizing q with
  | zero => rfl
  | succ n ih => rw [Queue.popN, ih, (pop_producerSide q).2.1]

/-- A queue after pushes only, or after pops only. -/
def Queue.Moved (q q' : Queue) : Prop := (∃ bs, q' = q.pushAll bs) ∨ ∃ n, q' = q.popN n

theorem Queue.Moved.refl (q : Queue) : q.Moved q := .inr ⟨0, rfl⟩

theorem Queue.Moved.read {c : Nat} {q q' : Queue} (h : q.Moved q') (hq : QueueOk c q) {a : Nat}
    (ha : ∀ k < (q'.w - q.w).toNat, q.slot (q.w + BitVec.ofNat 32 k) ≠ a) :
    Memory.read q'.buf a = Memory.read q.buf a := by
  obtain ⟨bs, rfl⟩ | ⟨n, rfl⟩ := h
  · rw [toNat_w_pushAll hq] at ha
    exact read_pushAll hq bs ha
  · rw [buf_popN]

theorem onlyPushedSlots_of_moved {s t : State} (hs : StateOk s) (h : ∀ q, (s.queue q).Moved (t.queue q)) :
    OnlyPushedSlots s t :=
  fun q _ ha => (h q).read (hs.base.queue q) ha

/-- Each context pushes onto some of the queues and pops the others (R44). -/
theorem FgWrites.moved {s t : State} (h : FgWrites s t) (q : QSel) : (s.queue q).Moved (t.queue q) := by
  cases q with
  | rx ch => exact .inr (h.rx ch)
  | tx ch => exact .inl (h.tx ch)

theorem IsrWrites.moved {ch : Chan} {s t : State} (h : IsrWrites ch s t) (q : QSel) :
    (s.queue q).Moved (t.queue q) := by
  obtain ⟨-, -, -, -, -, -, -, hother⟩ := h.fields
  by_cases hch : q.chan = ch
  · subst hch
    cases q with
    | rx c => exact .inl h.rx
    | tx c => exact .inr h.tx
  · cases q with
    | rx c => rw [queue_rx, queue_rx, hother c hch]; exact .refl _
    | tx c => rw [queue_tx, queue_tx, hother c hch]; exact .refl _

/-- What the interrupt side runs writes what its channel's context may (R325). -/
theorem exec_isrWrites {i : Instr} {ch : Chan} {s t : State} (hi : isrChanOf i = some ch)
    (h : exec i s = .next t) : IsrWrites ch s t := by
  cases i with
  | edge _ _ => cases hi; exact edgeHandler_writes h
  | timer _ | settle _ | pulse _ => cases hi; exact timerHandler_writes h
  | kick _ => cases hi; exact kickHandler_writes h
  | pushRx _ _ => cases hi; cases h; exact isrPush_writes _ _ _
  | popTx _ => cases hi; cases h; exact isrPop_writes _ _
  | frameH2D _ _ _ _ =>
    cases hi
    obtain ⟨u, hu, hr⟩ := andThen_eq_next h
    exact (timerHandler_writes hu).trans (runEdges_writes hr)
  | rxbyte _ _ | rxframe _ _ _ _ _ | txclock _ _ _ | frameD2H _ _ _ => cases hi; exact runEdges_writes h
  | mouseStatus _ _ _ _ _ | replyAck | replySelftest | replyId0OrReset3 | replyId3 =>
    cases hi
    exact runEdges_writes h
  | _ => cases hi  -- a row that no interrupt context runs

theorem isReservedRow_of_unowned {i : Instr} (hreset : i ≠ .reset) (hop : fgOpOf i = none)
    (hisr : isrChanOf i = none) : isReservedRow i = true := by
  cases i with
  | reset => exact absurd rfl hreset
  | reservedMaj _ | reservedKbdMin _ | reservedMouseCh0 _ => rfl
  | edge _ _ | timer _ | kick _ | pushRx _ _ | popTx _ | settle _ | pulse _ => cases hisr
  | rxbyte _ _ | rxframe _ _ _ _ _ | txclock _ _ _ | frameD2H _ _ _ | frameH2D _ _ _ _ => cases hisr
  | mouseStatus _ _ _ _ _ | replyAck | replySelftest | replyId0OrReset3 | replyId3 => cases hisr
  | _ => cases hop

/-- Settles O33: whoever runs it, an instruction only pushes onto a queue or only pops it. -/
theorem onlyPushesStore : Obligations.OnlyPushesStore := by
  intro i s t hs hreset h
  cases hop : fgOpOf i with
  | some op =>
    rw [exec_eq_callOp hop] at h
    exact onlyPushedSlots_of_moved hs (callOp_writes h).moved
  | none =>
    cases hisr : isrChanOf i with
    | some ch => exact onlyPushedSlots_of_moved hs (exec_isrWrites hisr h).moved
    | none =>
      rw [exec_reservedRow (isReservedRow_of_unowned hreset hop hisr)] at h
      cases h

end Sys2Proof.Machine

/-! PROOFS. Commands that the mouse engine sends (spec/41_queue.md R190, 43_mouse.md R251 to R256, R259, R260, R271):
the run of an operation as a sequence of queue operations, a sequence of emits with and without room, and the part of
each stage before its command. -/

namespace Sys2Proof.Machine

open Sys2Proof

/-! ## Runs of an operation, one queue operation after another -/

/-- The uninterrupted run goes from `x` to `y` in `n` queue operations and timebase reads. -/
def Reaches (n : Nat) (x y : Act × State) : Prop := ∀ fuel, runAct (fuel + n) x = runAct fuel y

theorem Reaches.refl (x : Act × State) : Reaches 0 x x := fun _ => rfl

theorem Reaches.trans {m n : Nat} {x y z : Act × State} (h : Reaches m x y) (h' : Reaches n y z) :
    Reaches (n + m) x z :=
  fun fuel => by rw [← Nat.add_assoc, h, h']

theorem Reaches.step (t : Task) (s : State) : Reaches 1 (.go t, s) (t.complete s) := fun fuel => runTask_succ fuel t s

theorem Reaches.run {n fuel : Nat} {x y : Act × State} (h : Reaches n x y) (hle : n ≤ fuel) :
    runAct fuel x = runAct (fuel - n) y := by
  rw [← h (fuel - n), Nat.sub_add_cancel hle]

/-! ## Emits one after another (R190) -/

theorem contents_pushAll {c : Nat} {q : Queue} (h : QueueOk c q) {bs : List Byte}
    (hroom : q.len.toNat + bs.length ≤ c) : (q.pushAll bs).contents = q.contents ++ bs := by
  induction bs generalizing q with
  | nil => exact (List.append_nil _).symm
  | cons b bs ih =>
    rw [List.length_cons] at hroom
    have hpush : (q.push b).2.contents = q.contents ++ [b] := by
      have hf := isFull_of_lt h (by omega)
      rw [push_room b hf, contents_push h hf b]
    have hlen : (q.push b).2.len.toNat = q.len.toNat + 1 := by
      rw [← length_contents, hpush, List.length_append, length_contents]
      rfl
    rw [Queue.pushAll, ih (h.push b) (by omega), hpush, List.append_assoc]
    rfl

theorem len_pushAll_room {c : Nat} {q : Queue} (h : QueueOk c q) {bs : List Byte}
    (hroom : q.len.toNat + bs.length ≤ c) : (q.pushAll bs).len.toNat = q.len.toNat + bs.length := by
  rw [← length_contents, contents_pushAll h hroom, List.length_append, length_contents]

/-- The state after the bytes `bs` were emitted to a TX queue with room for them. -/
def State.emitted (s : State) (ch : Chan) (bs : List Byte) : State :=
  s.setPort ch { s.port ch with
    tx := (s.port ch).tx.pushAll bs
    kickPend := (s.port ch).kickPend || !bs.isEmpty }

theorem emitted_nil (s : State) (ch : Chan) : s.emitted ch [] = s := by
  cases ch <;> simp [State.emitted, Queue.pushAll]

theorem emitted_emitted (s : State) (ch : Chan) (b : Byte) (bs : List Byte) :
    (s.emitted ch [b]).emitted ch bs = s.emitted ch (b :: bs) := by
  cases ch <;> simp [State.emitted, Queue.pushAll]

theorem tx_emitted (s : State) (ch : Chan) (bs : List Byte) :
    ((s.emitted ch bs).port ch).tx = (s.port ch).tx.pushAll bs := by
  rw [State.emitted, port_setPort]

theorem reaches_emit_room {s : State} {ch : Chan} (b : Byte) (rest : List Byte) (a : After)
    (h : (s.port ch).tx.isFull = false) :
    Reaches 1 (emitNext ch (b :: rest) a, s) (emitNext ch rest a, s.emitted ch [b]) := by
  have hdone : (Task.push .readR (.tx ch) b (.emit rest a)).complete s =
      (emitNext ch rest a, s.emitted ch [b]) := by
    rw [complete_push_room b _ h]
    simp [resumePush, State.emitted, Queue.pushAll, push_room b h, QSel.chan]
  exact hdone ▸ Reaches.step _ s

theorem reaches_emit_full {s : State} {ch : Chan} (b : Byte) (rest : List Byte) (a : After)
    (h : (s.port ch).tx.isFull = true) :
    Reaches 1 (emitNext ch (b :: rest) a, s) (.wait (.push .readR (.tx ch) b (.emit rest a)), s.setKick ch true) := by
  have hwait : (Task.push .readR (.tx ch) b (.emit rest a)).complete s =
      (.wait (.push .readR (.tx ch) b (.emit rest a)), s.setKick ch true) := complete_push_full b _ h
  exact hwait ▸ Reaches.step _ s

/-- With room for the bytes `bs`, all of them are queued, and the emits go on with what follows them. -/
theorem reaches_emits {c : Nat} {ch : Chan} {s : State} (h : QueueOk c (s.port ch).tx) (bs rest : List Byte)
    (a : After) (hroom : (s.port ch).tx.len.toNat + bs.length ≤ c) :
    Reaches bs.length (emitNext ch (bs ++ rest) a, s) (emitNext ch rest a, s.emitted ch bs) := by
  induction bs generalizing s with
  | nil => rw [emitted_nil]; exact .refl _
  | cons b bs ih =>
    rw [List.length_cons] at hroom
    have hlen := len_pushAll_room h (bs := [b]) (by rw [List.length_singleton]; omega)
    rw [← emitted_emitted]
    refine (reaches_emit_room b (bs ++ rest) a (isFull_of_lt h (by omega))).trans (ih ?_ ?_)
    · rw [tx_emitted]
      exact h.pushAll [b]
    · rw [tx_emitted, hlen, List.length_singleton]
      omega

/-! ## A command with too little room -/

/-- With room for `k` bytes only, the command waits to push the next. -/
theorem command_waits {s : State} {c fuel k : Nat} {cmd : List Byte} (th : SendThen) (h : QueueOk c s.mouse.tx)
    (hk : k < cmd.length) (hlen : s.mouse.tx.len.toNat + k = c) (hfuel : k < fuel) :
    ∃ t, runAct fuel (sendBytes cmd th, s) = .next t ∧ CommandWaits s t cmd th k ∧ t.mouse.rx = s.mouse.rx ∧
      t.ms = s.ms ∧ t.hostFixed = s.hostFixed := by
  have htake : (cmd.take k).length = k := List.length_take_of_le hk.le
  have hroom : s.mouse.tx.len.toNat + (cmd.take k).length ≤ c := by omega
  have hdrop : cmd.drop k = cmd[k] :: cmd.drop (k + 1) := List.drop_eq_getElem_cons hk
  have hfull : ((s.emitted .mouse (cmd.take k)).port .mouse).tx.isFull = true := by
    rw [tx_emitted]
    exact isFull_of_eq (h.pushAll _) ((len_pushAll_room h hroom).trans (by omega))
  have hemits := reaches_emits (ch := .mouse) h (cmd.take k) (cmd.drop k) (.stamp th) hroom
  rw [List.take_append_drop, hdrop, htake] at hemits
  have hrun := (hemits.trans (reaches_emit_full _ _ _ hfull)).run (fuel := fuel) (by omega)
  exact ⟨_, hrun, ⟨⟨_, _, hdrop, rfl⟩, contents_pushAll h hroom,
    rfl, rfl, rfl, rfl, rfl, rfl, rfl, rfl, rfl, rfl, rfl⟩, rfl, rfl, rfl⟩

/-! ## A command with room, and what follows it (R271) -/

theorem readNow_emitted (s : State) (ch : Chan) (bs : List Byte) :
    (s.emitted ch bs).readNow = (s.readNow.1, s.readNow.2.emitted ch bs) := by
  cases ch <;> cases h : s.hostFixed <;> simp [State.readNow, State.emitted, h]

/-- The state after a command was queued and the timestamp read. -/
def State.commandSent (s : State) (cmd : List Byte) : State :=
  (s.readNow.2.emitted .mouse cmd).setMs fun m => { m with ts := s.readNow.1 }

theorem reaches_commandSent {s : State} {c : Nat} {cmd : List Byte} (th : SendThen) (h : QueueOk c s.mouse.tx)
    (hroom : s.mouse.tx.len.toNat + cmd.length ≤ c) :
    Reaches (1 + cmd.length) (sendBytes cmd th, s) (sent th (s.commandSent cmd)) := by
  have hemits := reaches_emits (ch := .mouse) h cmd [] (.stamp th) hroom
  rw [List.append_nil] at hemits
  have hnow : (Task.now (.stamp th)).complete (s.emitted .mouse cmd) = sent th (s.commandSent cmd) := by
    rw [Task.complete, readNow_emitted]
    rfl
  exact hemits.trans (hnow ▸ Reaches.step _ _)

theorem commandSent_ms (s : State) (cmd : List Byte) :
    (s.commandSent cmd).ms = { s.ms with ts := s.readNow.1 } := by
  simp [State.commandSent, State.emitted, State.setMs]

/-- What the call has done to the queues and the notifications when its command is queued. -/
def CommandQueued (s t : State) (cmd : List Byte) : Prop :=
  t.mouse.rx = s.mouse.rx ∧ t.mouse.tx.contents = s.mouse.tx.contents ++ cmd ∧ t.mouse.kickPend = true ∧
    t.notes = s.notes

theorem commandSent_queued {s : State} {c : Nat} {b : Byte} {rest : List Byte} (h : QueueOk c s.mouse.tx)
    (hroom : s.mouse.tx.len.toNat + (b :: rest).length ≤ c) :
    CommandQueued s (s.commandSent (b :: rest)) (b :: rest) := by
  simp [CommandQueued, State.commandSent, State.emitted, State.setMs, contents_pushAll h hroom]

/-- After the command the engine's fields may change, and the call returns. -/
theorem mouseCallDone_commandSent (s : State) (cmd : List Byte) (f : Ms → Ms) (r : Ret) :
    MouseCallDone s (((s.commandSent cmd).setMs f).returns r) := by
  constructor <;> simp [State.commandSent, State.emitted, State.setMs, State.returns]

theorem reportAB_reportable {s : State} (h : reportable s.ms.acc s.ms.prevBtns) : reportAB s =
    (.ret (.move (some s.ms.acc)), s.setMs fun m => { m with acc := Move.zero, prevBtns := m.acc.btns }) := by
  simp only [reportAB]
  exact if_pos h

theorem reportAB_not_reportable {s : State} (h : ¬reportable s.ms.acc s.ms.prevBtns) :
    reportAB s = (noMove, s.setMs fun m => { m with acc := Move.zero }) := by
  simp only [reportAB]
  exact if_neg h

/-! ## Pops of the mouse's RX queue -/

/-- The state with another RX queue of the mouse. -/
def State.withRx (s : State) (q : Queue) : State := { s with mouse := { s.mouse with rx := q } }

theorem reaches_pop {s : State} {b : Byte} {bs : List Byte} (k : PopK) (h : s.mouse.rx.contents = b :: bs) :
    ∃ q, q.contents = bs ∧ Reaches 1 (beginPop rxMouse k, s) (resumePop k (some b) (s.withRx q)) := by
  have hne : s.mouse.rx.w ≠ s.mouse.rx.r := by
    rw [Ne, ← contents_nil, h]
    exact List.cons_ne_nil _ _
  rw [contents_pop hne] at h
  obtain ⟨hb, hbs⟩ := List.cons.inj h
  have hpop : (Task.pop .readW rxMouse k).complete s = resumePop k (some b) (s.withRx s.mouse.rx.publishR) := by
    rw [Task.complete, popRest, statePop_byte (q := rxMouse) hne, ← hb]
    rfl
  exact ⟨s.mouse.rx.publishR, hbs, hpop ▸ Reaches.step _ s⟩

/-- A drain pops every byte that was counted (R189). -/
theorem reaches_drain (t : DrainThen) {s : State} {bs : List Byte} (h : s.mouse.rx.contents = bs) :
    ∃ q, q.contents = [] ∧ Reaches bs.length (drainNext bs.length t s) (drainNext 0 t (s.withRx q)) := by
  induction bs generalizing s with
  | nil => exact ⟨s.mouse.rx, h, .refl _⟩
  | cons b bs ih =>
    obtain ⟨q, hq, hpop⟩ := reaches_pop (.drain bs.length t) h
    obtain ⟨q', hq', hrest⟩ := ih (s := s.withRx q) hq
    exact ⟨q', hq', hpop.trans hrest⟩

/-- Bytes that are all queued are collected one by one (R256, R259, R260, R262, R269). -/
theorem reaches_collect {ms : Ms} {want : Nat} {more : List Byte → PopK} {done : List Byte → State → Act × State}
    (hmore : ∀ (u : State) (got : List Byte) (b : Byte), u.ms = ms →
      resumePop (more got) (some b) u = collect want got b more done u)
    {bs : List Byte} (b : Byte) (got left : List Byte) {s : State} (hms : s.ms = ms)
    (hwant : got.length + (b :: bs).length = want) (h : s.mouse.rx.contents = b :: bs ++ left) :
    ∃ q, q.contents = left ∧
      Reaches (b :: bs).length (beginPop rxMouse (more got), s) (done (got ++ b :: bs) (s.withRx q)) := by
  induction bs generalizing b got s with
  | nil =>
    obtain ⟨q, hq, hpop⟩ := reaches_pop (more got) h
    rw [hmore (s.withRx q) got b hms, collect, if_pos (by simp [← hwant])] at hpop
    exact ⟨q, hq, hpop⟩
  | cons b' bs ih =>
    obtain ⟨q, hq, hpop⟩ := reaches_pop (more got) h
    rw [hmore (s.withRx q) got b hms, collect, if_neg (by simp [← hwant])] at hpop
    obtain ⟨q', hq', hrest⟩ := ih b' (got ++ [b]) (s := s.withRx q) hms (by simp [← hwant]; omega) hq
    rw [List.append_assoc] at hrest
    exact ⟨q', hq', hpop.trans hrest⟩

/-! ## Each stage up to its command (R251 to R256, R259, R260) -/

/-- The rule of the stage comes to the send of `cmd`, followed by `th`, with the engine state `ms` and the RX bytes
`left`. -/
def ComesToSend (s : State) (cmd : List Byte) (th : SendThen) (ms : Ms) (left : List Byte) : Prop :=
  ∃ n q, n ≤ s.mouse.rx.len.toNat + 1 ∧ q.contents = left ∧
    Reaches n (beginGetMove s) (sendBytes cmd th, { s.withRx q with ms := ms })

/-- An occupancy is read, and the rule goes on with it. -/
theorem reaches_readLen {k : LenK} {s : State} {x : Act × State} (h : resumeLen rxMouse k s.mouse.rx.len s = x) :
    Reaches 1 (readLen k, s) x :=
  h ▸ Reaches.step _ s

theorem start_comesToSend {s : State} (hst : s.ms.stage = .U) :
    ComesToSend s [CMD_RESET] (.toStage .RST) s.ms [] := by
  obtain ⟨q, hq, hdrain⟩ := reaches_drain .start (s := s) rfl
  have hbegin : beginGetMove s = (readLen (.drain .start), s) := by simp [beginGetMove, hst]
  rw [length_contents] at hdrain
  refine ⟨_, q, le_rfl, hq, ?_⟩
  rw [hbegin]
  exact (reaches_readLen rfl).trans hdrain

/-- A stage that awaits a reply, with the whole reply queued (R269). -/
theorem reaches_reply {s : State} {bs left : List Byte} (hlen : bs.length = replyLength s.ms.stage) (hne : bs ≠ [])
    (h : s.mouse.rx.contents = bs ++ left) : ∃ q, q.contents = left ∧ bs.length + 1 ≤ s.mouse.rx.len.toNat + 1 ∧
      Reaches (bs.length + 1) (beginGetMove s) (replyComplete bs (s.withRx q)) := by
  have hcount : bs.length ≤ s.mouse.rx.len.toNat := by
    rw [← length_contents, h, List.length_append]
    omega
  have hbegin : beginGetMove s = (readLen .reply, s) := by
    cases hst : s.ms.stage with
    | U | POLL | STREAM => rw [hst] at hlen; exact absurd (List.length_eq_zero_iff.mp hlen) hne
    | _ => simp [beginGetMove, hst]
  obtain ⟨b, bs, rfl⟩ := List.exists_cons_of_ne_nil hne
  obtain ⟨q, hq, hcollect⟩ := reaches_collect (ms := s.ms) (more := .reply) (done := replyComplete)
    (want := replyLength s.ms.stage) (fun u got b hu => by rw [← hu]; rfl) b [] left rfl (by simpa using hlen) h
  have hcheck : replyLen s.mouse.rx.len s = (beginPop rxMouse (.reply []), s) :=
    if_pos (hlen ▸ hcount)
  refine ⟨q, hq, by omega, ?_⟩
  rw [hbegin]
  exact (reaches_readLen (k := .reply) hcheck).trans hcollect

/-- What `nextCommand` and the engine say of the stages of `awaitTable` (R252 to R255). -/
theorem nextCommand_await {s : State} {reply cmd : List Byte} {next : Stage}
    (h : (s.ms.stage, reply, cmd, next) ∈ awaitTable) :
    nextCommand s = (if s.mouse.rx.contents.take reply.length = reply
      then some (cmd, .toStage next, s.ms, s.mouse.rx.contents.drop reply.length) else none) ∧
    reply.length = replyLength s.ms.stage ∧ reply ≠ [] ∧ cmd.length ≤ 2 := by
  simp only [awaitTable, List.mem_cons, Prod.mk.injEq, List.not_mem_nil, or_false] at h
  rcases h with h | h | h | h
  all_goals
    obtain ⟨hst, rfl, rfl, rfl⟩ := h
    simp [nextCommand, hst, replyLength]

theorem replyComplete_await {s : State} {reply cmd : List Byte} {next : Stage}
    (h : (s.ms.stage, reply, cmd, next) ∈ awaitTable) :
    replyComplete reply s = (sendBytes cmd (.toStage next), s) := by
  simp only [awaitTable, List.mem_cons, Prod.mk.injEq, List.not_mem_nil, or_false] at h
  rcases h with h | h | h | h
  all_goals
    obtain ⟨hst, rfl, rfl, rfl⟩ := h
    simp only [replyComplete, hst]
    exact if_pos rfl

theorem await_comesToSend {s : State} {reply cmd : List Byte} {next : Stage}
    (h : (s.ms.stage, reply, cmd, next) ∈ awaitTable)
    (hreply : s.mouse.rx.contents.take reply.length = reply) :
    ComesToSend s cmd (.toStage next) s.ms (s.mouse.rx.contents.drop reply.length) := by
  obtain ⟨-, hlen, hne, -⟩ := nextCommand_await h
  have hsplit := (List.take_append_drop reply.length s.mouse.rx.contents).symm
  rw [hreply] at hsplit
  obtain ⟨q, hq, hle, hrun⟩ := reaches_reply hlen hne hsplit
  rw [replyComplete_await (s := s.withRx q) h] at hrun
  exact ⟨_, q, hle, hq, hrun⟩

/-- The packet size that an identification byte stands for (R256). -/
def PSize.ofId (id : Byte) : PSize := if id = 0x03 then .four else .three

theorem identified_eq {id : Byte} (hid : id = 0x00 ∨ id = 0x03) (s : State) :
    (s.cfg.policy = .C → identified [0xFA, id] s =
      (sendBytes [CMD_ENABLE] (.toStage .ENA), s.setMs fun m => { m with psize := .ofId id })) ∧
    (s.cfg.policy = .B → identified [0xFA, id] s =
      (sendBytes [CMD_READ_DATA] (.toStage .POLL), s.setMs fun m => { m with psize := .ofId id, stage := .POLL })) := by
  have hok : ¬((0xFA : Byte) ≠ REPLY_ACK ∨ (id ≠ REPLY_ID0 ∧ id ≠ REPLY_ID3)) := by
    rcases hid with rfl | rfl <;> decide
  refine ⟨fun hp => ?_, fun hp => ?_⟩
  all_goals
    simp only [identified, List.getD_cons_zero, List.getD_cons_succ, if_neg hok, State.setMs, hp]
    rfl

theorem identify_comesToSend {s : State} (hst : s.ms.stage = .ID) {cmd left : List Byte} {th : SendThen} {ms : Ms}
    (hn : nextCommand s = some (cmd, th, ms, left)) : ComesToSend s cmd th ms left ∧ cmd.length ≤ 2 := by
  simp only [nextCommand, hst] at hn
  split at hn
  case h_2 => cases hn
  case h_1 a id rest hq =>
    rw [Option.ite_none_right_eq_some] at hn
    obtain ⟨⟨rfl, hid⟩, hn⟩ := hn
    obtain ⟨q, hleft, hle, hrun⟩ := reaches_reply (bs := [0xFA, id]) (by rw [hst]; rfl) (List.cons_ne_nil _ _) hq
    have hdone : replyComplete [0xFA, id] (s.withRx q) = identified [0xFA, id] (s.withRx q) := by
      simp only [replyComplete, State.withRx, hst]
    obtain ⟨hC, hB⟩ := identified_eq hid (s.withRx q)
    rw [hdone] at hrun
    cases hp : s.cfg.policy with
    | A => simp [hp] at hn
    | B =>
      simp only [hp] at hn
      cases hn
      rw [hB hp] at hrun
      exact ⟨⟨_, q, hle, hleft, hrun⟩, by decide⟩
    | C =>
      simp only [hp] at hn
      cases hn
      rw [hC hp] at hrun
      rw [← hst]
      exact ⟨⟨_, q, hle, hleft, hrun⟩, by decide⟩

/-- The request of Policy A comes first in its rule (R259). -/
theorem pollA_comesToSend {s : State} (hst : s.ms.stage = .POLL) (hp : s.cfg.policy = .A) :
    ComesToSend s [CMD_READ_DATA] .pollA s.ms s.mouse.rx.contents := by
  have hbegin : beginGetMove s = (sendBytes [CMD_READ_DATA] .pollA, s) := by simp [beginGetMove, hst, hp]
  exact ⟨0, s.mouse.rx, Nat.zero_le _, rfl, hbegin ▸ .refl _⟩

/-- Policy B pops the acknowledgement and the packet, decodes the packet and asks for the next (R260). -/
theorem pollB_comesToSend {s : State} (hst : s.ms.stage = .POLL) (hp : s.cfg.policy = .B) {pkt left : List Byte}
    (hpkt : pkt.length = s.ms.psize.bytes) (h : s.mouse.rx.contents = 0xFA :: pkt ++ left) :
    ComesToSend s [CMD_READ_DATA] .reportB { s.ms with acc := decodePacket s.ms.psize pkt } left := by
  have hbegin : beginGetMove s = (readLen .poll, s) := by simp [beginGetMove, hst, hp]
  have hcount : pkt.length + 1 ≤ s.mouse.rx.len.toNat := by
    rw [← length_contents, h, List.length_append, List.length_cons]
    omega
  have hcheck : pollLen s.mouse.rx.len s = (beginPop rxMouse .pollAck, s) := if_pos (hpkt ▸ hcount)
  obtain ⟨b, bs, rfl⟩ := List.exists_cons_of_ne_nil (l := pkt) fun he => by
    have := psize_pos s.ms.psize
    rw [he, List.length_nil] at hpkt
    omega
  obtain ⟨q, hq, hack⟩ := reaches_pop .pollAck h
  obtain ⟨q', hq', hcollect⟩ := reaches_collect (ms := s.ms) (more := .pollPkt) (done := packetComplete)
    (want := s.ms.psize.bytes) (fun u got b hu => by rw [← hu]; rfl) b [] left (s := s.withRx q) rfl
    (by simpa using hpkt) hq
  have hdone : packetComplete (b :: bs) (s.withRx q') = (sendBytes [CMD_READ_DATA] .reportB,
      { s.withRx q' with ms := { s.ms with acc := decodePacket s.ms.psize (b :: bs) } }) := by
    simp only [packetComplete, State.setMs, State.withRx, hp]
  have hrun := (reaches_readLen (k := .poll) hcheck).trans (hack.trans hcollect)
  rw [← hbegin] at hrun
  exact ⟨_, q', by omega, hq', hdone ▸ hrun⟩

theorem poll_comesToSend {s : State} (hst : s.ms.stage = .POLL) {cmd left : List Byte} {th : SendThen} {ms : Ms}
    (hn : nextCommand s = some (cmd, th, ms, left)) : ComesToSend s cmd th ms left ∧ cmd.length ≤ 2 := by
  simp only [nextCommand, hst] at hn
  cases hp : s.cfg.policy with
  | A =>
    simp only [hp] at hn
    cases hn
    exact ⟨pollA_comesToSend hst hp, by decide⟩
  | C => simp [hp] at hn
  | B =>
    cases hq : s.mouse.rx.contents with
    | nil => simp [hp, hq] at hn
    | cons a rest =>
      simp only [hp, hq] at hn
      rw [Option.ite_none_right_eq_some] at hn
      obtain ⟨⟨rfl, hle⟩, hn⟩ := hn
      cases hn
      rw [← hst]
      refine ⟨pollB_comesToSend hst hp (List.length_take_of_le hle) ?_, by decide⟩
      rw [hq, List.cons_append, List.take_append_drop]

/-- A GETMOVE that is about to send comes to its send. -/
theorem comesToSend_of_nextCommand {s : State} {cmd left : List Byte} {th : SendThen} {ms : Ms}
    (hn : nextCommand s = some (cmd, th, ms, left)) : ComesToSend s cmd th ms left ∧ cmd.length ≤ 2 := by
  have await {reply cmd' : List Byte} {next : Stage} (hrow : (s.ms.stage, reply, cmd', next) ∈ awaitTable) :
      ComesToSend s cmd th ms left ∧ cmd.length ≤ 2 := by
    obtain ⟨hcmd, -, -, hlen⟩ := nextCommand_await hrow
    rw [hcmd] at hn
    obtain ⟨hreply, hn⟩ := Option.ite_none_right_eq_some.mp hn
    cases hn
    exact ⟨await_comesToSend hrow hreply, hlen⟩
  cases hst : s.ms.stage with
  | U =>
    simp only [nextCommand, hst] at hn
    cases hn
    exact ⟨start_comesToSend hst, by decide⟩
  | RST => exact await (reply := [0xFA, 0xAA, 0x00]) (cmd' := [0xF3, 0xC8]) (next := .SR1) (by simp [awaitTable, hst])
  | SR1 => exact await (reply := [0xFA, 0xFA]) (cmd' := [0xF3, 0x64]) (next := .SR2) (by simp [awaitTable, hst])
  | SR2 => exact await (reply := [0xFA, 0xFA]) (cmd' := [0xF3, 0x50]) (next := .SR3) (by simp [awaitTable, hst])
  | SR3 => exact await (reply := [0xFA, 0xFA]) (cmd' := [0xF2]) (next := .ID) (by simp [awaitTable, hst])
  | ID => exact identify_comesToSend hst hn
  | POLL => exact poll_comesToSend hst hn
  | ENA | STREAM => simp [nextCommand, hst] at hn

/-! ## The wait and its resumption -/

/-- Called with too little room, GETMOVE does its work up to the send and waits. -/
theorem getmove_waits {s : State} {cmd left : List Byte} {th : SendThen} {ms : Ms} {k : Nat} (hs : StateOk s)
    (hidle : s.fgIdle = true) (hn : nextCommand s = some (cmd, th, ms, left)) (hk : k < cmd.length)
    (hlen : s.mouse.tx.len.toNat + k = s.cfg.capTxMouse) :
    ∃ t, exec .getmove s = .next t ∧ CommandWaits s t cmd th k ∧ t.mouse.rx.contents = left ∧ t.ms = ms ∧
      t.hostFixed = s.hostNext := by
  obtain ⟨⟨n, q, hle, hleft, hrun⟩, hcmd⟩ := comesToSend_of_nextCommand (s := s.called) hn
  have hfuel : n + 3 ≤ fgFuel s.called := by
    have hrx : s.called.queue (.rx .mouse) = s.called.mouse.rx := rfl
    rw [fgFuel, hrx]
    omega
  obtain ⟨t, ht, hw, hrx, hms, hfixed⟩ := command_waits (s := { s.called.withRx q with ms := ms })
    (fuel := fgFuel s.called - n) th (hs.base.queue (.tx .mouse)) hk hlen (by omega)
  have hexec : exec .getmove s = .next t := calc
    _ = runAct (fgFuel s.called) (beginGetMove s.called) := callOp_idle hidle .getMove
    _ = .next t := (hrun.run (by omega)).trans ht
  exact ⟨t, hexec, ⟨hw.fg, hw.tx, hw.kick, hw.chn, hw.cfg, hw.kbd, hw.kb, hw.calls, hw.notes, hw.rets, hw.wire,
    hw.isrRets, hw.tape⟩, by rw [hrx]; exact hleft, hms, hfixed⟩

/-- A wait that is resumed sends on. -/
theorem step_sendBytes {s : State} {b : Byte} {rest : List Byte} {th : SendThen} (htape : s.tape = [])
    (hfg : s.fg = some (.push .readR (.tx .mouse) b (.emit rest (.stamp th)))) :
    step s = runAct (fgFuel s) (sendBytes (b :: rest) th, s) := by
  rw [step_nil htape, fgTurn, hfg]
  rfl

/-- Resumed with room for the rest of the command, GETMOVE queues it, reads the timestamp and returns (R271). -/
theorem step_sent {s : State} {b : Byte} {rest : List Byte} {th : SendThen} (hs : StateOk s) (htape : s.tape = [])
    (hrest : rest.length ≤ 1) (hfg : s.fg = some (.push .readR (.tx .mouse) b (.emit rest (.stamp th))))
    (hroom : mouseRoom s (b :: rest).length) {r : Ret} {f : Ms → Ms}
    (hsent : sent th (s.commandSent (b :: rest)) = (.ret r, (s.commandSent (b :: rest)).setMs f)) :
    ∃ t, step s = .next t ∧ MouseCallDone s t ∧ CommandQueued s t (b :: rest) ∧ t.rets = s.rets ++ [r] ∧
      t.ms = f { s.ms with ts := s.readNow.1 } := by
  have hqueue : QueueOk s.cfg.capTxMouse s.mouse.tx := hs.base.queue (.tx .mouse)
  have hlen : (b :: rest).length ≤ 2 := Nat.succ_le_succ hrest
  have hrun := (reaches_commandSent th hqueue hroom).run (fuel := fgFuel s) (by rw [fgFuel]; omega)
  rw [hsent] at hrun
  refine ⟨_, (step_sendBytes htape hfg).trans hrun, mouseCallDone_commandSent _ _ f r,
    commandSent_queued hqueue hroom, ?_, congrArg f (commandSent_ms s (b :: rest))⟩
  simp [State.returns, State.setMs, State.commandSent, State.emitted]

/-- Under Policy A the micro-steps come to the loop (R259): those of an uninterrupted run that is given no more queue
operations than the command and the timestamp take. -/
theorem micros_pollA {s : State} {b : Byte} {rest : List Byte} (hs : StateOk s)
    (hfg : s.fg = some (.push .readR (.tx .mouse) b (.emit rest (.stamp .pollA))))
    (hroom : mouseRoom s (b :: rest).length) :
    ∃ n, fgMicros n s = .next ((s.commandSent (b :: rest)).paused (.len rxMouse .poll)) := by
  have hstart : settleAct (sendBytes (b :: rest) .pollA, s) = .next s := by
    show Host.Outcome.next (s.paused _) = _
    rw [State.paused, ← hfg]
  obtain ⟨n, hn⟩ := micros_runAct (0 + (1 + (b :: rest).length)) (sendBytes (b :: rest) .pollA, s)
  rw [hstart, andThen_next, reaches_commandSent .pollA (hs.base.queue (.tx .mouse)) hroom 0] at hn
  exact ⟨n, hn⟩

/-- Settles O60: GETMOVE comes to its send (`comesToSend_of_nextCommand`) and waits (`command_waits`); resumed with
room, it queues the rest and reads the timestamp (`reaches_commandSent`). -/
theorem mouseCommandsWaitForRoom : Obligations.MouseCommandsWaitForRoom := by
  refine ⟨fun s cmd left th ms k hs hidle hn hk hlen => getmove_waits hs hidle hn hk hlen, ?_⟩
  intro s b rest th hs htape hrest hfg cmd queued
  have hqueue : QueueOk s.cfg.capTxMouse s.mouse.tx := hs.base.queue (.tx .mouse)
  have hms := commandSent_ms s cmd
  refine ⟨fun k hk hlen => ?_, fun hroom => ⟨?_, ?_, ?_⟩⟩
  · have hcmd : cmd.length ≤ 2 := Nat.succ_le_succ hrest
    rw [step_sendBytes htape hfg]
    exact command_waits th hqueue hk hlen (by rw [fgFuel]; omega)
  · rintro st rfl
    obtain ⟨t, hstep, hdone, hqueued, hrets, hmst⟩ :=
      step_sent (r := .move none) (f := fun m => { m with stage := st }) hs htape hrest hfg hroom rfl
    exact ⟨t, hstep, hdone, hqueued, hmst, hrets⟩
  · rintro rfl
    by_cases hrep : reportable s.ms.acc s.ms.prevBtns
    · obtain ⟨t, hstep, hdone, hqueued, hrets, hmst⟩ :=
        step_sent (r := .move (some s.ms.acc)) hs htape hrest hfg hroom
          ((reportAB_reportable (by rwa [hms])).trans (by rw [hms]))
      exact ⟨t, hstep, hdone, hqueued, fun _ => ⟨hrets, hmst⟩, fun hno => absurd hrep hno⟩
    · obtain ⟨t, hstep, hdone, hqueued, hrets, hmst⟩ :=
        step_sent hs htape hrest hfg hroom (reportAB_not_reportable (by rwa [hms]))
      exact ⟨t, hstep, hdone, hqueued, fun hyes => absurd hyes hrep, fun _ => ⟨hrets, hmst⟩⟩
  · rintro rfl
    obtain ⟨n, hn⟩ := micros_pollA hs hfg hroom
    refine ⟨n, _, hn, commandSent_queued hqueue hroom, rfl, hms, ?_⟩
    simp [State.paused, State.setMs, State.commandSent, State.emitted]

end Sys2Proof.Machine

/-! PROOFS. One decode step of the keyboard (spec/42_keyboard.md R202 to R215, R222 to R226): one of the two prefixes, a break or
a make, with the pending flags it sets or clears; and the operations that return without a queue operation (R216 to R219). -/

namespace Sys2Proof.Machine

open Sys2Proof

/-! ## The branches of a decode step (R215) -/

theorem decodeByte_ext (cfg : Cfg) (kb : Kb) :
    decodeByte cfg kb 0xE0 = (.nothing, { kb with mods := kb.mods ||| 0x10 }) := rfl

theorem decodeByte_brk (cfg : Cfg) (kb : Kb) :
    decodeByte cfg kb 0xF0 = (.nothing, { kb with mods := kb.mods ||| 0x20 }) := rfl

theorem decodeByte_break {cfg : Cfg} {kb : Kb} {c : Byte} (hext : c ≠ 0xE0) (hbrk : c ≠ 0xF0)
    (h : kb.mods.getLsbD 5 = true) : decodeByte cfg kb c =
      (.nothing, { kb with mods := breakMods kb.mods c (kb.mods.getLsbD 4) &&& 0xCF }) := by
  rw [← clearPending_eq, decodeByte, if_neg hext, if_neg hbrk]
  simp only [hasBit, bitBRK, bitEXT, h, if_true]

theorem decodeByte_make {cfg : Cfg} {kb : Kb} {c : Byte} (hext : c ≠ 0xE0) (hbrk : c ≠ 0xF0)
    (h : kb.mods.getLsbD 5 = false) : decodeByte cfg kb c = ((makeKey cfg kb c).1,
      { (makeKey cfg kb c).2 with mods := (makeKey cfg kb c).2.mods &&& 0xCF }) := by
  rw [← clearPending_eq, decodeByte, if_neg hext, if_neg hbrk]
  simp only [hasBit, bitBRK, h, Bool.false_eq_true, if_false]

/-- The make of a key only sets modifiers and toggles locks. -/
theorem makeKey_cache (cfg : Cfg) (kb : Kb) (c : Byte) :
    (makeKey cfg kb c).2.cache = kb.cache ∧ (makeKey cfg kb c).2.cacheValid = kb.cacheValid := by
  unfold makeKey
  cases classify c (hasBit kb.mods bitEXT) <;> exact ⟨rfl, rfl⟩

theorem getLsbD_and_CF (m : Byte) : (m &&& 0xCF).getLsbD 4 = false ∧ (m &&& 0xCF).getLsbD 5 = false := by
  simp

/-- Settles O45: a byte is one of the two prefixes, or ends its sequence as a break or as a make. -/
theorem prefixFlags : Obligations.PrefixFlags := by
  intro cfg kb c r
  by_cases hext : c = 0xE0
  · subst hext
    exact ⟨fun _ => rfl, fun h => absurd h (by decide), fun h => absurd rfl h, rfl, rfl⟩
  by_cases hbrk : c = 0xF0
  · subst hbrk
    exact ⟨fun h => absurd h (by decide), fun _ => rfl, fun _ h => absurd rfl h, rfl, rfl⟩
  suffices hr : (∃ m, r.2.mods = m &&& 0xCF) ∧ r.2.cache = kb.cache ∧ r.2.cacheValid = kb.cacheValid by
    obtain ⟨⟨m, hm⟩, hcache⟩ := hr
    exact ⟨fun h => absurd h hext, fun h => absurd h hbrk, fun _ _ => hm ▸ getLsbD_and_CF m, hcache⟩
  cases hpending : kb.mods.getLsbD 5 with
  | true =>
    rw [show r = _ from decodeByte_break hext hbrk hpending]
    exact ⟨⟨_, rfl⟩, rfl, rfl⟩
  | false =>
    rw [show r = _ from decodeByte_make hext hbrk hpending]
    exact ⟨⟨_, rfl⟩, makeKey_cache cfg kb c⟩

/-! ## Modifier and lock keys (R204 to R208, R222, R223) -/

/-- A break clears the bit of its own modifier, and the pending flags with it (R204). -/
theorem breakMods_and_CF (m c : Byte) (e : Bool) : breakMods m c e &&& 0xCF = m &&&
    (if c = 0x12 ∧ e = false then 0xCE else if c = 0x59 ∧ e = false then 0xCD else if c = 0x14 then 0xCB
     else if c = 0x11 ∧ e = true then 0xC7 else 0xCF) := by
  have hclear (i : Nat) : setBit m i false &&& 0xCF = m &&& (~~~(BitVec.ofNat 8 1 <<< i) &&& 0xCF) := by
    rw [setBit, if_neg Bool.false_ne_true, BitVec.and_assoc]
  unfold breakMods
  split_ifs
  · exact hclear bitLSHIFT
  · exact hclear bitRSHIFT
  · exact hclear bitCTRL
  · exact hclear bitALTGR
  · rfl

/-! The make of a key, class by class (R205 to R213, R222, R223). -/

section

variable {kb : Kb} {c : Byte}

theorem makeKey_modifier (cfg : Cfg) {i : Nat}
    (h : (classify c (kb.mods.getLsbD 4), i) ∈ [(KeyClass.shiftLeft, 0), (.shiftRight, 1), (.ctrl, 2), (.altgr, 3)]) :
    makeKey cfg kb c = (.nothing, { kb with mods := setBit kb.mods i true }) := by
  simp only [List.mem_cons, Prod.mk.injEq, List.not_mem_nil, or_false] at h
  rw [makeKey, hasBit, bitEXT]
  rcases h with ⟨hk, rfl⟩ | ⟨hk, rfl⟩ | ⟨hk, rfl⟩ | ⟨hk, rfl⟩ <;> rw [hk] <;> rfl

theorem makeKey_ignored (cfg : Cfg)
    (h : classify c (kb.mods.getLsbD 4) ∈ [KeyClass.leftAlt, .fakeShift, .otherExtended, .outOfRange]) :
    makeKey cfg kb c = (.nothing, kb) := by
  simp only [List.mem_cons, List.not_mem_nil, or_false] at h
  rw [makeKey, hasBit, bitEXT]
  rcases h with hk | hk | hk | hk <;> rw [hk]

theorem makeKey_lock (cfg : Cfg) {b : Byte} (h : classify c (kb.mods.getLsbD 4) = .lock b) :
    makeKey cfg kb c = (.lock, { kb with locks := kb.locks ^^^ b }) := by
  rw [makeKey, hasBit, bitEXT, h]

theorem makeKey_nav (cfg : Cfg) {k : NavKey} (h : classify c (kb.mods.getLsbD 4) = .nav k) :
    makeKey cfg kb c = (charResult (navCode cfg.nav k), kb) := by
  rw [makeKey, hasBit, bitEXT, h]

theorem makeKey_keypad (cfg : Cfg) (h : classify c (kb.mods.getLsbD 4) = .keypad) :
    makeKey cfg kb c = (charResult (tableGet (keypadTable cfg.km kb.locks) c), kb) := by
  rw [makeKey, hasBit, bitEXT, h]

theorem makeKey_mainRange (cfg : Cfg) (h : classify c (kb.mods.getLsbD 4) = .mainRange) :
    makeKey cfg kb c = (charResult (tableGet (mainTable cfg.km kb.mods kb.locks) c), kb) := by
  rw [makeKey, hasBit, bitEXT, h]

end

/-- Setting a modifier bit and clearing the pending flags (R205 to R207, R215). -/
theorem setBit_true_and_CF (m : Byte) : ∀ i < 4, setBit m i true &&& 0xCF = (m &&& 0xCF) ||| BitVec.twoPow 8 i := by
  revert m
  decide

/-- Settles O46: a break by `breakMods_and_CF`, each make by the equation of its class. -/
theorem modifierAndLockKeys : Obligations.ModifierAndLockKeys := by
  intro cfg kb e sets toggles
  refine ⟨fun hbrk c hext hc => ?_, fun hbrk => ?_⟩
  · rw [decodeByte_break hext hc hbrk, breakMods_and_CF]
  have hsets {c : Byte} (i : Nat) (hi : i < 4) (hc : c ≠ 0xE0 ∧ c ≠ 0xF0)
      (hk : (classify c e, i) ∈ [(KeyClass.shiftLeft, 0), (.shiftRight, 1), (.ctrl, 2), (.altgr, 3)]) :
      decodeByte cfg kb c = sets (BitVec.twoPow 8 i) := by
    rw [decodeByte_make hc.1 hc.2 hbrk, makeKey_modifier cfg hk]
    simp only [setBit_true_and_CF kb.mods i hi, sets]
  have hnone {c : Byte} (hc : c ≠ 0xE0 ∧ c ≠ 0xF0)
      (hk : classify c e ∈ [KeyClass.leftAlt, .fakeShift, .otherExtended, .outOfRange]) :
      decodeByte cfg kb c = sets 0x00 := by
    rw [decodeByte_make hc.1 hc.2 hbrk, makeKey_ignored cfg hk]
    simp only [sets, BitVec.ofNat_eq_ofNat, BitVec.or_zero]
  have htoggles {c b : Byte} (hc : c ≠ 0xE0 ∧ c ≠ 0xF0) (hk : classify c e = .lock b) :
      decodeByte cfg kb c = toggles b := by
    rw [decodeByte_make hc.1 hc.2 hbrk, makeKey_lock cfg hk]
  refine ⟨fun he => ?_, hsets 2 (by decide) (by decide) (by cases e <;> decide), fun he => ?_⟩
  · simp only [he] at hsets hnone htoggles
    exact ⟨hsets 0 (by decide) (by decide) (by decide), hsets 1 (by decide) (by decide) (by decide),
      hnone (by decide) (by decide), htoggles (by decide) rfl, htoggles (by decide) rfl, htoggles (by decide) rfl⟩
  · simp only [he] at hsets hnone
    exact ⟨hsets 3 (by decide) (by decide) (by decide), hnone (by decide) (by decide),
      hnone (by decide) (by decide)⟩

/-! ## Characters (R209 to R214) -/

/-- The extended codes of the navigation keys (R122). -/
def navTable : List (Byte × NavKey) :=
  [(0x75, .up), (0x72, .down), (0x6B, .left), (0x74, .right), (0x70, .insert), (0x71, .delete), (0x6C, .home),
    (0x69, .endKey), (0x7D, .pgup), (0x7A, .pgdn), (0x5A, .kpenter), (0x4A, .kpslash)]

theorem navKey_eq_lookup : ∀ c : Byte, navKey c = navTable.lookup c := by
  decide

theorem lookup_mapSnd {α β γ : Type} [BEq α] (f : β → γ) (l : List (α × β)) (a : α) :
    (l.map fun x => (x.1, f x.2)).lookup a = (l.lookup a).map f := by
  induction l with
  | nil => rfl
  | cons x l ih =>
    rw [List.map_cons, List.lookup_cons, List.lookup_cons, ih]
    cases a == x.1 <;> rfl

theorem classifyExtended_of_not_modifier {c : Byte} (h : c ∉ [(0x12 : Byte), 0x59, 0x14, 0x11]) :
    classifyExtended c = (navKey c).elim .otherExtended .nav := by
  simp only [List.mem_cons, List.not_mem_nil, or_false, not_or] at h
  obtain ⟨h12, h59, h14, h11⟩ := h
  rw [classifyExtended, if_neg (by simp only [h12, h59, or_self, not_false_eq_true]), if_neg h14, if_neg h11]
  cases navKey c <;> rfl

theorem classifyPlain_of_not_special {c : Byte} (h : c ∉ [(0x12 : Byte), 0x59, 0x14, 0x11, 0x58, 0x77, 0x7E]) :
    classifyPlain c = if 0x69 ≤ c.toNat ∧ c.toNat ≤ 0x7D then .keypad
      else if c.toNat ≤ 0x83 then .mainRange else .outOfRange := by
  simp only [List.mem_cons, List.not_mem_nil, or_false, not_or] at h
  obtain ⟨h12, h59, h14, h11, h58, h77, h7E⟩ := h
  rw [classifyPlain, if_neg h12, if_neg h59, if_neg h14, if_neg h11, if_neg h58, if_neg h77, if_neg h7E]

theorem keypadTable_eq (km : Keymap) (locks : Byte) :
    keypadTable km locks = if locks.getLsbD 1 then km.numon else km.numoff := by
  have hnum : ∀ m : Byte, (m &&& lockNUM != 0) = m.getLsbD 1 := by decide
  rw [keypadTable, hnum]

theorem mainTable_eq (km : Keymap) (mods locks : Byte) : mainTable km mods locks =
    if mods.getLsbD 3 = true ∧ km.altgrInUse = true then km.altgr
    else if mods.getLsbD 0 || mods.getLsbD 1 then (if locks.getLsbD 2 then km.shiftcaps else km.shift)
    else (if locks.getLsbD 2 then km.noshiftcaps else km.noshift) := by
  simp only [mainTable, hasBit, bitALTGR, bitLSHIFT, bitRSHIFT, Bool.and_eq_true]
  congr 1
  cases mods.getLsbD 0 || mods.getLsbD 1 <;> cases locks.getLsbD 2 <;> rfl

/-- Settles O47: the class of the code says which table is read (`classifyExtended_of_not_modifier`,
`classifyPlain_of_not_special`). -/
theorem characterCodes : Obligations.CharacterCodes := by
  intro cfg kb c hbrk hext hc nav km shift caps table ends
  have hends {v : Byte} (h : makeKey cfg kb c = (charResult v, kb)) : decodeByte cfg kb c = ends v := by
    rw [decodeByte_make hext hc hbrk, h]
    rfl
  refine ⟨fun he hmem => ?_, fun he hmem => ?_⟩
  · have hclass : classify c (kb.mods.getLsbD 4) = (navKey c).elim .otherExtended .nav := by
      rw [he]
      exact classifyExtended_of_not_modifier hmem
    have hnav : nav.lookup c = (navKey c).map (navCode cfg.nav) := by
      rw [navKey_eq_lookup]
      exact lookup_mapSnd (navCode cfg.nav) navTable c
    rw [hnav]
    cases hk : navKey c with
    | none => exact hends (makeKey_ignored cfg (by rw [hclass, hk]; decide))
    | some k => exact hends (makeKey_nav cfg (by rw [hclass, hk]; rfl))
  · have hclass : classify c (kb.mods.getLsbD 4) = classifyPlain c := by
      rw [he]
      rfl
    rw [classifyPlain_of_not_special hmem] at hclass
    by_cases hpad : 0x69 ≤ c.toNat ∧ c.toNat ≤ 0x7D
    · rw [if_neg (by omega), show table = keypadTable km kb.locks from (if_pos hpad).trans (keypadTable_eq _ _).symm]
      exact hends (makeKey_keypad cfg (hclass.trans (if_pos hpad)))
    rw [if_neg hpad] at hclass
    by_cases hmain : c.toNat ≤ 0x83
    · rw [if_neg (by omega),
        show table = mainTable km kb.mods kb.locks from (if_neg hpad).trans (mainTable_eq _ _ _).symm]
      exact hends (makeKey_mainRange cfg (hclass.trans (if_pos hmain)))
    · rw [if_pos (by omega)]
      exact hends (makeKey_ignored cfg (by rw [hclass, if_neg hmain]; decide))

/-! ## The effect of ctrl (R226) -/

theorem getLsbD_xor_ctrl (m : Byte) {i : Nat} (h : i ≠ 2) : (m ^^^ 0x04).getLsbD i = m.getLsbD i := by
  have hctrl : (0x04 : Byte).getLsbD i = false := by
    rw [show (0x04 : Byte) = BitVec.twoPow 8 2 from rfl, BitVec.getLsbD_twoPow]
    simp [h.symm]
  rw [BitVec.getLsbD_xor, hctrl, Bool.xor_false]

section

variable {kb kb' : Kb} (hlocks : kb'.locks = kb.locks) (hmods : ∀ i, i ≠ 2 → kb'.mods.getLsbD i = kb.mods.getLsbD i)

include hlocks hmods

theorem makeKey_result_congr (cfg : Cfg) (c : Byte) : (makeKey cfg kb' c).1 = (makeKey cfg kb c).1 := by
  have htable : mainTable cfg.km kb'.mods kb.locks = mainTable cfg.km kb.mods kb.locks := by
    rw [mainTable_eq, mainTable_eq, hmods 0 (by decide), hmods 1 (by decide), hmods 3 (by decide)]
  simp only [makeKey, hasBit, bitEXT, hmods 4 (by decide), htable, hlocks]
  cases classify c (kb.mods.getLsbD 4) <;> rfl

/-- The result of a decode step depends on no other state than the locks, the flags, the shifts and AltGr. -/
theorem decodeByte_result_congr (cfg : Cfg) (c : Byte) : (decodeByte cfg kb' c).1 = (decodeByte cfg kb c).1 := by
  by_cases hext : c = 0xE0
  · rw [hext, decodeByte_ext, decodeByte_ext]
  by_cases hbrk : c = 0xF0
  · rw [hbrk, decodeByte_brk, decodeByte_brk]
  have hsame := hmods 5 (by decide)
  cases hpending : kb.mods.getLsbD 5 with
  | true => rw [decodeByte_break hext hbrk hpending, decodeByte_break hext hbrk (hsame.trans hpending)]
  | false =>
    rw [decodeByte_make hext hbrk hpending, decodeByte_make hext hbrk (hsame.trans hpending)]
    exact makeKey_result_congr hlocks hmods cfg c

end

/-- Settles O48: the two masks differ in `CTRL` only, which no result depends on (`decodeByte_result_congr`). -/
theorem ctrlNeverChangesACharacter : Obligations.CtrlNeverChangesACharacter :=
  fun cfg kb c => decodeByte_result_congr (kb := kb) (kb' := { kb with mods := kb.mods ^^^ 0x04 }) rfl
    (fun _ h => getLsbD_xor_ctrl kb.mods h) cfg c

/-! ## Operations that return at once -/

theorem callOp_ret {op : FgOp} {s u : State} {r : Ret} (hidle : s.fgIdle = true) (h : op.begin s.called = (.ret r, u)) :
    callOp op s = .next (u.returns r) := by
  rw [callOp_idle hidle, h]
  rfl

/-- Settles O42: both operations return without a micro-step. -/
theorem lockAndControlStatus : Obligations.LockAndControlStatus :=
  fun _ hidle => ⟨callOp_ret hidle rfl, callOp_ret hidle rfl⟩

theorem callOp_decodeByte {s : State} {c : Byte} {kb : Kb} (hidle : s.fgIdle = true)
    (h : decodeByte s.cfg s.kb c = (.nothing, kb)) :
    callOp (.decodeByte c) s = .next (State.returns { s.called with kb := kb } (.byte none)) := by
  refine callOp_ret hidle ?_
  simp only [FgOp.begin, beginDecodeByte, called_cfg, called_kb, h]

/-- The byte 0xE1 is out of range, extended or not, and its break is nobody's (R224). -/
theorem decodeByte_e1 (cfg : Cfg) (kb : Kb) :
    decodeByte cfg kb 0xE1 = (.nothing, { kb with mods := kb.mods &&& 0xCF }) := by
  cases hpending : kb.mods.getLsbD 5 with
  | true => rw [decodeByte_break (by decide) (by decide) hpending, breakMods_and_CF]; rfl
  | false =>
    have hclass : ∀ e, classify 0xE1 e ∈ [KeyClass.leftAlt, .fakeShift, .otherExtended, .outOfRange] := by decide
    rw [decodeByte_make (by decide) (by decide) hpending, makeKey_ignored cfg (hclass _)]

/-- Settles O49: the rows are calls of `decode_byte` (`callOp_decodeByte`), each byte's step an equation. -/
theorem scancodeRowsAreDecodeSteps : Obligations.ScancodeRowsAreDecodeSteps :=
  fun s hidle => ⟨callOp_decodeByte hidle (decodeByte_ext s.cfg s.kb),
    callOp_decodeByte hidle (decodeByte_brk s.cfg s.kb), callOp_decodeByte hidle (decodeByte_e1 s.cfg s.kb)⟩

end Sys2Proof.Machine

/-! PROOFS. The keyboard operations that use the queues (spec/42_keyboard.md R208, R216, R217, R220, R221, 41_queue.md
R190): an LED command with too little room, and the decode loop as the scan of the queued bytes. -/

namespace Sys2Proof.Machine

open Sys2Proof

/-! ## Emits with too little room (R190) -/

/-- With room for `k` of the bytes `bs` only, those are queued and the next is waited for. -/
theorem reaches_emits_full {c k : Nat} {ch : Chan} {s : State} {bs rest : List Byte} {b : Byte} (a : After)
    (h : QueueOk c (s.port ch).tx) (hdrop : bs.drop k = b :: rest) (hlen : (s.port ch).tx.len.toNat + k = c) :
    Reaches (1 + k) (emitNext ch bs a, s)
      (.wait (.push .readR (.tx ch) b (.emit rest a)), (s.emitted ch (bs.take k)).setKick ch true) := by
  have hk := List.length_lt_of_drop_ne_nil (hdrop ▸ List.cons_ne_nil b rest)
  have htake : (bs.take k).length = k := List.length_take_of_le hk.le
  have hroom : (s.port ch).tx.len.toNat + (bs.take k).length ≤ c := by omega
  have hfull : ((s.emitted ch (bs.take k)).port ch).tx.isFull = true := by
    rw [tx_emitted]
    exact isFull_of_eq (h.pushAll _) ((len_pushAll_room h hroom).trans (by omega))
  have hemits := reaches_emits h (bs.take k) (bs.drop k) a hroom
  rw [List.take_append_drop, hdrop, htake] at hemits
  exact hemits.trans (reaches_emit_full b rest a hfull)

/-! ## SETLOCKS (R220) -/

/-- The state in which SETLOCKS sends its LED command. -/
def State.locksSet (s : State) (m : Byte) : State := { s.called with kb := { s.kb with locks := m &&& 0x07 } }

theorem exec_setlocks {s : State} (hidle : s.fgIdle = true) (m : Byte) :
    exec (.setlocks m) s = runAct (fgFuel s.called) (emitNext .kbd [0xED, m &&& 0x07] .ret, s.locksSet m) :=
  callOp_idle hidle (.setLocks m)

theorem setLocks_waits {s : State} {m b : Byte} {rest : List Byte} {k : Nat} (hs : StateOk s) (hidle : s.fgIdle = true)
    (hdrop : [0xED, m &&& 0x07].drop k = b :: rest) (hlen : s.kbd.tx.len.toNat + k = s.cfg.capTxKbd) (hk : k ≤ 1) :
    ∃ t, exec (.setlocks m) s = .next t ∧ KeyboardRan s t ∧ t.kbd.rx = s.kbd.rx ∧
      t.fg = some (.push .readR (.tx .kbd) b (.emit rest .ret)) ∧ t.kb = { s.kb with locks := m &&& 0x07 } ∧
      t.kbd.tx = s.kbd.tx.pushAll ([0xED, m &&& 0x07].take k) ∧ t.kbd.kickPend = true ∧ t.rets = s.rets := by
  have hrun := (reaches_emits_full (s := s.locksSet m) (ch := .kbd) .ret (hs.base.queue (.tx .kbd)) hdrop hlen).run
    (fuel := fgFuel s.called) (by rw [fgFuel]; omega)
  exact ⟨_, (exec_setlocks hidle m).trans hrun, ⟨rfl, rfl, rfl, rfl, rfl, rfl, rfl, rfl, rfl⟩, rfl, rfl, rfl, rfl, rfl,
    rfl⟩

/-- Settles O43: the LED command has room (`reaches_emits`) or waits (`setLocks_waits`). -/
theorem setLocksQueuesTheLedCommand : Obligations.SetLocksQueuesTheLedCommand := by
  intro m s hs hidle
  have hqueue : QueueOk s.cfg.capTxKbd s.kbd.tx := hs.base.queue (.tx .kbd)
  have hcap := hqueue.len
  unfold kbdRoom
  refine ⟨fun hroom => ?_, fun hno hroom => ?_, fun hno => ?_⟩
  · have hrun := (reaches_emits (s := s.locksSet m) (ch := .kbd) hqueue [0xED, m &&& 0x07] [] .ret hroom).run
      (fuel := fgFuel s.called) (by rw [fgFuel, List.length_cons, List.length_singleton]; omega)
    exact ⟨_, (exec_setlocks hidle m).trans hrun, ⟨rfl, rfl, rfl, rfl, rfl, rfl, rfl, rfl, rfl⟩, ⟨rfl, rfl⟩, rfl, rfl,
      contents_pushAll hqueue hroom, Bool.or_true _, rfl⟩
  · obtain ⟨t, ht, hran, hrx, hfg, hkb, htx, hkick, hrets⟩ :=
      setLocks_waits (m := m) (k := 1) hs hidle rfl (by omega) le_rfl
    exact ⟨t, ht, hran, hrx, hfg, hkb, htx ▸ contents_pushAll hqueue hroom, hkick, hrets⟩
  · exact setLocks_waits (m := m) (k := 0) hs hidle rfl (by omega) (Nat.zero_le 1)

/-! ## What a run of the decode loop leaves in the state (R221) -/

/-- The state after the decode loop has come to `kb`, left the RX queue `q` and pushed the bytes `leds`. -/
def State.keysRead (s : State) (kb : Kb) (q : Queue) (leds : List Byte) : State :=
  State.emitted { s with kb := kb, kbd := { s.kbd with rx := q } } .kbd leds

theorem keysRead_keysRead (s : State) (kb kb' : Kb) (q q' : Queue) (leds leds' : List Byte) :
    (s.keysRead kb q leds).keysRead kb' q' leds' = s.keysRead kb' q' (leds ++ leds') := by
  cases leds <;> simp [State.keysRead, State.emitted, pushAll_append, Queue.pushAll]

theorem keysRead_self (s : State) : s.keysRead s.kb s.kbd.rx [] = s := emitted_nil s .kbd

/-- The keyboard's TX queue, of capacity `c`, has exactly `room` free places. -/
def KeyRoom (c : Nat) (s : State) (room : Nat) : Prop := QueueOk c s.kbd.tx ∧ s.kbd.tx.len.toNat + room = c

theorem keyRoom_kbdFree {s : State} (hs : StateOk s) : KeyRoom s.cfg.capTxKbd s (kbdFree s) := by
  have hqueue : QueueOk s.cfg.capTxKbd s.kbd.tx := hs.base.queue (.tx .kbd)
  exact ⟨hqueue, Nat.add_sub_cancel' hqueue.len⟩

theorem KeyRoom.keysRead {c room : Nat} {s : State} {leds : List Byte} (h : KeyRoom c s (leds.length + room)) (kb : Kb)
    (q : Queue) : KeyRoom c (s.keysRead kb q leds) room := by
  obtain ⟨hqueue, hlen⟩ := h
  refine ⟨hqueue.pushAll leds, ?_⟩
  show (s.kbd.tx.pushAll leds).len.toNat + room = c
  rw [len_pushAll_room hqueue (by omega)]
  omega

/-- How the operation goes on where the decode loop stops (R190, R216, R217). -/
def ScanStop.next (peek : Bool) : ScanStop → State → Act × State
  | .ends o, s => charReturn peek o s
  | .waits b rest, s => (.wait (.push .readR (.tx .kbd) b (.emit rest (.nextChar peek))), s.setKick .kbd true)

/-- The uninterrupted run from `x` is the scan `r`, and takes at most `m` queue operations. -/
def RunsAs (peek : Bool) (m : Nat) (x : Act) (s : State) (r : Scan) : Prop :=
  ∃ n q, n ≤ m ∧ q.contents = r.left ∧ Reaches n (x, s) (r.stop.next peek (s.keysRead r.kb q r.leds))

theorem RunsAs.mono {peek : Bool} {m m' : Nat} {x : Act} {s : State} {r : Scan} (h : RunsAs peek m x s r)
    (hle : m ≤ m') : RunsAs peek m' x s r := by
  obtain ⟨n, q, hn, hrun⟩ := h
  exact ⟨n, q, hn.trans hle, hrun⟩

theorem RunsAs.after {peek : Bool} {k m : Nat} {x y : Act} {s : State} {kb : Kb} {q : Queue} {leds : List Byte}
    {r : Scan} (hreach : Reaches k (x, s) (y, s.keysRead kb q leds))
    (hrun : RunsAs peek m y (s.keysRead kb q leds) r) :
    RunsAs peek (m + k) x s { r with leds := leds ++ r.leds } := by
  obtain ⟨n, q', hn, hleft, hr⟩ := hrun
  rw [keysRead_keysRead] at hr
  exact ⟨n + k, q', Nat.add_le_add_right hn k, hleft, hreach.trans hr⟩

/-! ## One turn of the decode loop -/

/-- How the loop goes on after a decode step (R221). -/
def KeyResult.next (peek : Bool) : KeyResult → State → Act × State
  | .char v, s => charReturn peek (some v) s
  | .nothing, s => (nextChar peek, s)
  | .lock, s => (emitLeds s.kb (.nextChar peek), s)

theorem resumeNextChar_some (peek : Bool) (c : Byte) (s : State) : resumeNextChar peek (some c) s =
    (decodeByte s.cfg s.kb c).1.next peek { s with kb := (decodeByte s.cfg s.kb c).2 } := by
  rw [resumeNextChar]
  cases (decodeByte s.cfg s.kb c).1 <;> rfl

theorem reaches_lastKey {peek : Bool} {s : State} (h : s.kbd.rx.contents = []) :
    Reaches 1 (nextChar peek, s) (charReturn peek none s) := by
  have hpop : (Task.pop .readW (.rx .kbd) (.nextChar peek)).complete s = charReturn peek none s := by
    rw [Task.complete, popRest, statePop_empty (q := .rx .kbd) (contents_nil.mp h)]
    rfl
  exact hpop ▸ Reaches.step _ s

theorem reaches_key {peek : Bool} {s : State} {c : Byte} {cs : List Byte} (h : s.kbd.rx.contents = c :: cs) :
    ∃ q, q.contents = cs ∧ Reaches 1 (nextChar peek, s)
      ((decodeByte s.cfg s.kb c).1.next peek (s.keysRead (decodeByte s.cfg s.kb c).2 q [])) := by
  have hne : s.kbd.rx.w ≠ s.kbd.rx.r := by
    rw [Ne, ← contents_nil, h]
    exact List.cons_ne_nil _ _
  rw [contents_pop hne] at h
  obtain ⟨hc, hcs⟩ := List.cons.inj h
  have hpop : (Task.pop .readW (.rx .kbd) (.nextChar peek)).complete s =
      (decodeByte s.cfg s.kb c).1.next peek (s.keysRead (decodeByte s.cfg s.kb c).2 s.kbd.rx.publishR []) := by
    rw [Task.complete, popRest, statePop_byte (q := .rx .kbd) hne, State.keysRead, emitted_nil, ← hc]
    exact resumeNextChar_some peek s.kbd.rx.readSlot _
  exact ⟨s.kbd.rx.publishR, hcs, hpop ▸ Reaches.step _ s⟩

/-! ## The scan, turn by turn -/

theorem resumeKeys_waits {cfg : Cfg} {room : Nat} {pend rest : List Byte} {b : Byte} (h : pend.drop room = b :: rest)
    (kb : Kb) (bs : List Byte) : resumeKeys cfg room pend kb bs = ⟨.waits b rest, kb, bs, pend.take room⟩ := by
  rw [resumeKeys, h]

theorem resumeKeys_goesOn {cfg : Cfg} {room : Nat} {pend : List Byte} (h : pend.drop room = []) (kb : Kb)
    (bs : List Byte) : resumeKeys cfg room pend kb bs =
      { scanKeys cfg (room - pend.length) kb bs with
        leds := pend ++ (scanKeys cfg (room - pend.length) kb bs).leds } := by
  rw [resumeKeys, h]

section

variable {cfg : Cfg} {kb kb' : Kb} {c : Byte}

theorem scanKeys_char {v : Byte} (h : decodeByte cfg kb c = (.char v, kb')) (room : Nat) (cs : List Byte) :
    scanKeys cfg room kb (c :: cs) = ⟨.ends (some v), kb', cs, []⟩ := by
  rw [scanKeys, h]

theorem scanKeys_nothing (h : decodeByte cfg kb c = (.nothing, kb')) (room : Nat) (cs : List Byte) :
    scanKeys cfg room kb (c :: cs) = scanKeys cfg room kb' cs := by
  rw [scanKeys, h]

/-- A lock key pushes its LED command like a wait with both bytes still to push. -/
theorem scanKeys_lock (h : decodeByte cfg kb c = (.lock, kb')) (room : Nat) (cs : List Byte) :
    scanKeys cfg room kb (c :: cs) = resumeKeys cfg room [0xED, kb'.locks] kb' cs := by
  rw [scanKeys, h]
  match room with
  | 0 => rfl
  | 1 => rfl
  | room + 2 => rw [resumeKeys_goesOn (by simp)]; rfl

end

theorem length_leds_resumeKeys {cfg : Cfg} {kb : Kb} {bs : List Byte}
    (hloop : ∀ room, (scanKeys cfg room kb bs).leds.length ≤ room) (room : Nat) (pend : List Byte) :
    (resumeKeys cfg room pend kb bs).leds.length ≤ room := by
  cases hdrop : pend.drop room with
  | cons b rest =>
    rw [resumeKeys_waits hdrop]
    exact List.length_take_le room pend
  | nil =>
    have hlen := List.drop_eq_nil_iff.mp hdrop
    have hrest := hloop (room - pend.length)
    rw [resumeKeys_goesOn hdrop, List.length_append]
    omega

/-- The LED bytes that a scan pushes fit in the room it is given. -/
theorem length_leds_scanKeys (cfg : Cfg) (room : Nat) (kb : Kb) (bs : List Byte) :
    (scanKeys cfg room kb bs).leds.length ≤ room := by
  induction bs generalizing room kb with
  | nil => exact Nat.zero_le room
  | cons c cs ih =>
    rcases h : decodeByte cfg kb c with ⟨_ | v | _, kb'⟩
    · rw [scanKeys_nothing h]
      exact ih room kb'
    · rw [scanKeys_char h]
      exact Nat.zero_le room
    · rw [scanKeys_lock h]
      exact length_leds_resumeKeys (fun room => ih room kb') room _

/-! ## The decode loop runs as the scan -/

/-- The bytes still to be pushed are queued, or one of them is waited for; when all are queued the loop goes on. -/
theorem runsAs_resumeKeys {peek : Bool} {c m room : Nat} {s : State} {bs : List Byte} (pend : List Byte)
    (hloop : ∀ {u : State} {room : Nat}, KeyRoom c u room → u.kbd.rx.contents = bs →
      RunsAs peek m (nextChar peek) u (scanKeys u.cfg room u.kb bs))
    (h : KeyRoom c s room) (hbs : s.kbd.rx.contents = bs) :
    RunsAs peek (m + pend.length) (emitNext .kbd pend (.nextChar peek)) s (resumeKeys s.cfg room pend s.kb bs) := by
  obtain ⟨hqueue, hlen⟩ := h
  cases hdrop : pend.drop room with
  | cons b rest =>
    have hlt := List.length_lt_of_drop_ne_nil (hdrop ▸ List.cons_ne_nil b rest)
    rw [resumeKeys_waits hdrop]
    exact ⟨1 + room, s.kbd.rx, by omega, hbs, reaches_emits_full (ch := .kbd) (.nextChar peek) hqueue hdrop hlen⟩
  | nil =>
    have hle := List.drop_eq_nil_iff.mp hdrop
    have hemits := reaches_emits (ch := .kbd) hqueue pend [] (.nextChar peek)
      (show s.kbd.tx.len.toNat + pend.length ≤ c by omega)
    rw [List.append_nil] at hemits
    rw [resumeKeys_goesOn hdrop]
    refine RunsAs.after (kb := s.kb) (q := s.kbd.rx) hemits (hloop (KeyRoom.keysRead ⟨hqueue, ?_⟩ _ _) hbs)
    omega

theorem runsAs_scanKeys {peek : Bool} {c room : Nat} {s : State} {bs : List Byte} (h : KeyRoom c s room)
    (hbs : s.kbd.rx.contents = bs) :
    RunsAs peek (3 * bs.length + 1) (nextChar peek) s (scanKeys s.cfg room s.kb bs) := by
  induction bs generalizing s room with
  | nil =>
    refine ⟨1, s.kbd.rx, le_rfl, hbs, ?_⟩
    rw [scanKeys, keysRead_self]
    exact reaches_lastKey hbs
  | cons b bs ih =>
    obtain ⟨q, hq, hkey⟩ := reaches_key (peek := peek) hbs
    have hroom := KeyRoom.keysRead (leds := []) (room := room) (by simpa using h) (decodeByte s.cfg s.kb b).2 q
    rcases hd : decodeByte s.cfg s.kb b with ⟨_ | v | _, kb'⟩ <;> rw [hd] at hkey hroom
    · rw [scanKeys_nothing hd]
      exact (RunsAs.after hkey (ih hroom hq)).mono (by rw [List.length_cons]; omega)
    · rw [scanKeys_char hd]
      exact ⟨1, q, by omega, hq, hkey⟩
    · have hleds := runsAs_resumeKeys (peek := peek) [0xED, kb'.locks] ih hroom hq
      rw [scanKeys_lock hd]
      exact (RunsAs.after hkey hleds).mono (by simp only [List.length_cons, List.length_nil]; omega)

/-! ## PEEK and GETKEY (R216, R217) -/

/-- What the operation leaves when its run is a scan whose LED bytes have room. -/
theorem RunsAs.scanned {peek : Bool} {c m fuel room : Nat} {x : Act} {s : State} {r : Scan} (h : RunsAs peek m x s r)
    (hroom : KeyRoom c s room) (hleds : r.leds.length ≤ room) (hfuel : m ≤ fuel) :
    ∃ t, runAct fuel (x, s) = .next t ∧ Scanned peek s t r := by
  obtain ⟨n, q, hn, hleft, hrun⟩ := h
  obtain ⟨hqueue, hlen⟩ := hroom
  have htx : (s.kbd.tx.pushAll r.leds).contents = s.kbd.tx.contents ++ r.leds :=
    contents_pushAll hqueue (by omega)
  rw [hrun.run (hn.trans hfuel)]
  obtain ⟨stop, kb, left, leds⟩ := r
  cases stop with
  | waits b rest =>
    exact ⟨_, rfl, ⟨rfl, rfl, rfl, rfl, rfl, rfl, rfl, rfl, rfl⟩, hleft, htx, rfl, rfl, rfl, rfl⟩
  | ends o =>
    cases peek <;> cases o
    all_goals
      exact ⟨_, rfl, ⟨rfl, rfl, rfl, rfl, rfl, rfl, rfl, rfl, rfl⟩, hleft, htx, ⟨rfl, rfl⟩, rfl, rfl, rfl⟩

/-- A call changes nothing that a scan is about. -/
theorem Scanned.of_called {peek : Bool} {s t : State} {r : Scan} (h : Scanned peek s.called t r) : Scanned peek s t r :=
  ⟨⟨h.ran.cfg, h.ran.mouse, h.ran.chn, h.ran.ms, h.ran.calls, h.ran.notes, h.ran.wire, h.ran.isrRets, h.ran.tape⟩,
    h.left, h.leds, h.stop⟩

theorem fgFuel_scan (s : State) : 3 * s.kbd.rx.contents.length + 3 ≤ fgFuel s := by
  rw [length_contents, fgFuel, queue_rx, port_kbd]
  omega

theorem callOp_scanned {op : FgOp} {peek : Bool} {s : State} (hs : StateOk s) (hidle : s.fgIdle = true)
    (hbegin : op.begin s.called = (nextChar peek, s.called)) :
    ∃ t, callOp op s = .next t ∧ Scanned peek s t (scanKeys s.cfg (kbdFree s) s.kb s.kbd.rx.contents) := by
  have hroom : KeyRoom s.cfg.capTxKbd s.called (kbdFree s) := keyRoom_kbdFree hs
  have hfuel := fgFuel_scan s.called
  obtain ⟨t, ht, hscan⟩ := (runsAs_scanKeys (peek := peek) hroom rfl).scanned hroom (length_leds_scanKeys _ _ _ _)
    (fuel := fgFuel s.called) (by omega)
  exact ⟨t, by rw [callOp_idle hidle, hbegin, ht], hscan.of_called⟩

theorem step_scanned {s : State} {b : Byte} {rest : List Byte} {peek : Bool} (hs : StateOk s) (htape : s.tape = [])
    (hrest : rest.length ≤ 1) (hfg : s.fg = some (.push .readR (.tx .kbd) b (.emit rest (.nextChar peek)))) :
    ∃ t, step s = .next t ∧ Scanned peek s t (resumeKeys s.cfg (kbdFree s) (b :: rest) s.kb s.kbd.rx.contents) := by
  have hroom := keyRoom_kbdFree hs
  have hfuel := fgFuel_scan s
  have hstep : step s = runAct (fgFuel s) (emitNext .kbd (b :: rest) (.nextChar peek), s) := by
    rw [step_nil htape, fgTurn, hfg]
    rfl
  rw [hstep]
  exact (runsAs_resumeKeys (peek := peek) (b :: rest) runsAs_scanKeys hroom rfl).scanned hroom
    (length_leds_resumeKeys (length_leds_scanKeys s.cfg · s.kb s.kbd.rx.contents) _ _)
    (by rw [List.length_cons]; omega)

theorem beginKeyPeek_empty {s : State} (h : s.kb.cacheValid = false) : beginKeyPeek s = (nextChar true, s) :=
  if_neg (by rw [h]; exact Bool.false_ne_true)

theorem beginGetKey_empty {s : State} (h : s.kb.cacheValid = false) : beginGetKey s = (nextChar false, s) :=
  if_neg (by rw [h]; exact Bool.false_ne_true)

/-- Settles O44: a cached character is returned at once; otherwise the operation, or its resumption, runs as the scan of
the queued bytes (`runsAs_scanKeys`, `runsAs_resumeKeys`). -/
theorem peekAndGetKey : Obligations.PeekAndGetKey :=
  ⟨fun _ hidle hcache => ⟨callOp_ret hidle (if_pos hcache), callOp_ret hidle (if_pos hcache)⟩,
    fun _ hs hidle hcache => ⟨callOp_scanned hs hidle (beginGetKey_empty hcache),
      callOp_scanned hs hidle (beginKeyPeek_empty hcache)⟩,
    fun _ _ _ _ hs htape hrest hfg => step_scanned hs htape hrest hfg⟩

end Sys2Proof.Machine

/-! PROOFS. Answers of the mouse engine (spec/43_mouse.md R251 to R270): how a GETMOVE that returns leaves the state,
the replies of the negotiation, and the packets of Policies A and B. -/

namespace Sys2Proof.Machine

open Sys2Proof

/-! ## How a GETMOVE ends -/

/-- `u` is `s` at another time: only what the timebase is read from differs (R28, R138). -/
def Retimed (s u : State) : Prop :=
  ∃ time fixed next draws,
    u = { s with hostTime := time, hostFixed := fixed, hostNext := next, draws := draws }

theorem Retimed.refl (s : State) : Retimed s s := ⟨_, _, _, _, rfl⟩

theorem Retimed.called (s : State) : Retimed s s.called := ⟨_, _, _, _, rfl⟩

theorem Retimed.readNow {s u : State} (h : Retimed s u) : Retimed s u.readNow.2 := by
  obtain ⟨_, fixed, _, _, rfl⟩ := h
  cases fixed with
  | none => exact ⟨_, _, _, _, rfl⟩
  | some t => exact ⟨_, _, _, _, rfl⟩

/-- The state with the parts replaced that a GETMOVE writes besides the timebase. -/
def State.engine (s : State) (p : Port) (ms : Ms) (notes : List Note) : State :=
  { s with mouse := p, ms := ms, notes := notes }

theorem readNow_engine (s : State) (p : Port) (ms : Ms) (notes : List Note) :
    (s.engine p ms notes).readNow = (s.readNow.1, s.readNow.2.engine p ms notes) := by
  cases h : s.hostFixed <;> simp [State.readNow, State.engine, h]

/-- A GETMOVE of `s` has returned `r` in `t`, and left the mouse's port, the engine and the notifications named. -/
structure Answered (s t : State) (p : Port) (ms : Ms) (notes : List Note) (r : Option Move) : Prop where
  done  : MouseCallDone s t
  mouse : t.mouse = p
  ms    : t.ms = ms
  notes : t.notes = notes
  rets  : t.rets = s.rets ++ [.move r]

theorem expired_iff (ms : Ms) (t T : Word32) : expired ms t T = true ↔ T.toNat < (t - ms.ts).toNat :=
  decide_eq_true_iff

section

variable {s u : State} {x : Act × State} {n fuel : Nat} {p : Port} {ms : Ms} {notes : List Note}

theorem answered_of_ret {r : Option Move} (hu : Retimed s u) (hp : p.chn = s.mouse.chn)
    (hrun : Reaches n x (.ret (.move r), u.engine p ms notes)) (hle : n ≤ fuel) :
    ∃ t, runAct fuel x = .next t ∧ Answered s t p ms notes r := by
  obtain ⟨_, _, _, _, rfl⟩ := hu
  exact ⟨_, hrun.run hle, ⟨rfl, rfl, hp, rfl, ⟨rfl, rfl, rfl⟩, rfl, rfl, rfl⟩, rfl, rfl, rfl, rfl⟩

/-- `fail` (R268) is a return. -/
theorem answered_of_fail {kind : Chan → Stage → Note} (hu : Retimed s u) (hp : p.chn = s.mouse.chn)
    (hrun : Reaches n x (failWith kind (u.engine p ms notes))) (hle : n ≤ fuel) :
    ∃ t, runAct fuel x = .next t ∧ Answered s t p (failedMs ms.ts) (notes ++ [kind .mouse ms.stage]) none :=
  answered_of_ret hu hp hrun hle

theorem Retimed.engine (hu : Retimed s u) : u.engine s.mouse s.ms s.notes = u := by
  obtain ⟨_, _, _, _, rfl⟩ := hu
  rfl

/-- A deadline that ends the call either way (R269, R270). -/
theorem answered_of_deadline {T now : Word32} (hu : Retimed s u)
    (hrun : Reaches n x (if expired s.ms now T then failWith .timeout u else (noMove, u))) (hle : n ≤ fuel) :
    ∃ t, runAct fuel x = .next t ∧ MouseCallDone s t ∧ t.mouse = s.mouse ∧ t.rets = s.rets ++ [.move none] ∧
      (T.toNat < (now - s.ms.ts).toNat →
        t.ms = failedMs s.ms.ts ∧ t.notes = s.notes ++ [.timeout .mouse s.ms.stage]) ∧
      ((now - s.ms.ts).toNat ≤ T.toNat → t.ms = s.ms ∧ t.notes = s.notes) := by
  rw [← hu.engine] at hrun
  by_cases hlate : T.toNat < (now - s.ms.ts).toNat
  · rw [if_pos ((expired_iff ..).mpr hlate)] at hrun
    obtain ⟨t, ht, hdone, hmouse, hms, hnotes, hrets⟩ := answered_of_fail hu rfl hrun hle
    exact ⟨t, ht, hdone, hmouse, hrets, fun _ => ⟨hms, hnotes⟩, fun hearly => absurd hlate (by omega)⟩
  · rw [if_neg (mt (expired_iff ..).mp hlate)] at hrun
    obtain ⟨t, ht, hdone, hmouse, hms, hnotes, hrets⟩ := answered_of_ret hu rfl hrun hle
    exact ⟨t, ht, hdone, hmouse, hrets, fun h => absurd h hlate, fun _ => ⟨hms, hnotes⟩⟩

/-- `report_ab` (R267) of the packet in `ms.acc`. -/
theorem answered_of_reportAB (hu : Retimed s u) (hp : p.chn = s.mouse.chn)
    (hrun : Reaches n x (reportAB (u.engine p ms notes))) (hle : n ≤ fuel) :
    ∃ t, runAct fuel x = .next t ∧ MouseCallDone s t ∧ t.mouse = p ∧ t.notes = notes ∧
      (reportable ms.acc ms.prevBtns → t.rets = s.rets ++ [.move (some ms.acc)] ∧
        t.ms = { ms with acc := Move.zero, prevBtns := ms.acc.btns }) ∧
      (¬reportable ms.acc ms.prevBtns → t.rets = s.rets ++ [.move none] ∧ t.ms = { ms with acc := Move.zero }) := by
  by_cases hrep : reportable ms.acc ms.prevBtns
  · rw [reportAB_reportable (s := u.engine p ms notes) hrep] at hrun
    obtain ⟨t, ht, hdone, hmouse, hms, hnotes, hrets⟩ := answered_of_ret hu hp hrun hle
    exact ⟨t, ht, hdone, hmouse, hnotes, fun _ => ⟨hrets, hms⟩, fun hno => absurd hrep hno⟩
  · rw [reportAB_not_reportable (s := u.engine p ms notes) hrep] at hrun
    obtain ⟨t, ht, hdone, hmouse, hms, hnotes, hrets⟩ := answered_of_ret hu hp hrun hle
    exact ⟨t, ht, hdone, hmouse, hnotes, fun hyes => absurd hyes hrep, fun _ => ⟨hrets, hms⟩⟩

/-- A deadline before which the call waits (R25, R259). -/
theorem answered_or_waits_of_deadline {k : Task} {T now : Word32} (hu : Retimed s u) (hp : p.chn = s.mouse.chn)
    (hrun : Reaches n x (if expired ms now T then failWith .timeout (u.engine p ms notes)
      else (.wait k, u.engine p ms notes))) (hle : n ≤ fuel) :
    ∃ t, runAct fuel x = .next t ∧ t.mouse = p ∧ t.kbd = s.kbd ∧ t.kb = s.kb ∧
      (T.toNat < (now - ms.ts).toNat → t.fg = none ∧ t.ms = failedMs ms.ts ∧
        t.notes = notes ++ [.timeout .mouse ms.stage] ∧ t.rets = s.rets ++ [.move none]) ∧
      ((now - ms.ts).toNat ≤ T.toNat → t.fg = some k ∧ t.ms = ms ∧ t.notes = notes ∧ t.rets = s.rets) := by
  by_cases hlate : T.toNat < (now - ms.ts).toNat
  · rw [if_pos ((expired_iff ..).mpr hlate)] at hrun
    obtain ⟨t, ht, hdone, hmouse, hms, hnotes, hrets⟩ := answered_of_fail hu hp hrun hle
    exact ⟨t, ht, hmouse, hdone.kbd, hdone.kb, fun _ => ⟨hdone.idle.1, hms, hnotes, hrets⟩,
      fun hearly => absurd hlate (by omega)⟩
  · rw [if_neg (mt (expired_iff ..).mp hlate)] at hrun
    obtain ⟨_, _, _, _, rfl⟩ := hu
    exact ⟨_, hrun.run hle, rfl, rfl, rfl, fun h => absurd h hlate, fun _ => ⟨rfl, rfl, rfl, rfl⟩⟩

end

theorem exec_getmove {s : State} (hidle : s.fgIdle = true) :
    exec .getmove s = runAct (fgFuel s.called) (beginGetMove s.called) :=
  callOp_idle hidle .getMove

theorem fgFuel_mouse (s : State) : s.mouse.rx.len.toNat + 64 ≤ fgFuel s := by
  rw [fgFuel, queue_rx .., queue_rx .., port_mouse]
  omega

/-! ## Stages that send a command and return (R251 to R256, R260) -/

/-- The mouse's port after the bytes `cmd` were emitted. -/
def Port.emitted (p : Port) (cmd : List Byte) : Port :=
  { p with tx := p.tx.pushAll cmd, kickPend := p.kickPend || !cmd.isEmpty }

theorem commandSent_engine (s : State) (p : Port) (ms : Ms) (notes : List Note) (cmd : List Byte) :
    (s.engine p ms notes).commandSent cmd =
      s.readNow.2.engine (p.emitted cmd) { ms with ts := s.readNow.1 } notes := by
  rw [State.commandSent, readNow_engine]
  rfl

/-- The rule of the stage sends its command, with room for it, and reads the timestamp (R271). -/
theorem reaches_sent {s : State} {cmd left : List Byte} {th : SendThen} {ms : Ms} (hs : StateOk s)
    (hn : nextCommand s = some (cmd, th, ms, left)) (hroom : mouseRoom s cmd.length) :
    ∃ n q, n ≤ s.mouse.rx.len.toNat + 4 ∧ q.contents = left ∧ Reaches n (beginGetMove s)
      (sent th (s.readNow.2.engine (Port.emitted { s.mouse with rx := q } cmd) { ms with ts := s.readNow.1 }
        s.notes)) := by
  obtain ⟨⟨n, q, hle, hleft, hrun⟩, hcmd⟩ := comesToSend_of_nextCommand hn
  have hsend := reaches_commandSent (s := s.engine { s.mouse with rx := q } ms s.notes) th
    (hs.base.queue (.tx .mouse)) hroom
  rw [commandSent_engine] at hsend
  exact ⟨_, q, by omega, hleft, hrun.trans hsend⟩

/-- GETMOVE sends its command and returns `None` in the next stage. -/
theorem getmove_sends {s : State} {b : Byte} {rest left : List Byte} {st : Stage} {ms : Ms} (hs : StateOk s)
    (hidle : s.fgIdle = true) (hn : nextCommand s = some (b :: rest, .toStage st, ms, left))
    (hroom : mouseRoom s (b :: rest).length) :
    ∃ t, exec .getmove s = .next t ∧ MouseCallDone s t ∧ t.mouse.rx.contents = left ∧
      t.mouse.tx.contents = s.mouse.tx.contents ++ b :: rest ∧ t.mouse.kickPend = true ∧
      t.ms = { ms with stage := st, ts := s.called.readNow.1 } ∧ t.notes = s.notes ∧
      t.rets = s.rets ++ [.move none] := by
  have hfuel := fgFuel_mouse s.called
  obtain ⟨n, q, hle, hleft, hrun⟩ := reaches_sent (s := s.called) hs.called hn hroom
  obtain ⟨t, ht, hdone, hmouse, hms, hnotes, hrets⟩ := answered_of_ret (Retimed.called s).readNow
    (p := Port.emitted { s.mouse with rx := q } (b :: rest)) rfl hrun (fuel := fgFuel s.called) (by omega)
  rw [exec_getmove hidle]
  exact ⟨t, ht, hdone, hmouse ▸ hleft, hmouse ▸ contents_pushAll (hs.base.queue (.tx .mouse)) hroom,
    hmouse ▸ Bool.or_true _, hms, hnotes, hrets⟩

/-- Settles O50: in stage `U` the engine comes to its reset command with the queue drained. -/
theorem uninitializedSendsReset : Obligations.UninitializedSendsReset := by
  intro s hs hidle hst hroom
  have hn : nextCommand s = some ([0xFF], .toStage .RST, s.ms, []) := by simp only [nextCommand, hst]
  exact getmove_sends hs hidle hn hroom

/-- Settles O51: each row of the table is a stage that comes to its command. -/
theorem expectedReplyAdvances : Obligations.ExpectedReplyAdvances := by
  intro s st st' reply command rest hs hidle hrow hst hrx hroom
  subst hst
  have hn : nextCommand s = some (command, .toStage st', s.ms, rest) := by
    rw [(nextCommand_await hrow).1, hrx, List.take_left, List.drop_left, if_pos rfl]
  cases command with
  | nil => simp [awaitTable] at hrow
  | cons b bs => exact getmove_sends hs hidle hn hroom

/-! ## Replies (R252 to R257, R268 to R270) -/

theorem identified_policyA {s : State} {id : Byte} (hid : id = 0x00 ∨ id = 0x03) (hp : s.cfg.policy = .A) :
    identified [0xFA, id] s = (noMove, s.setMs fun m => { m with psize := .ofId id, stage := .POLL }) := by
  have hok : ¬((0xFA : Byte) ≠ REPLY_ACK ∨ (id ≠ REPLY_ID0 ∧ id ≠ REPLY_ID3)) := by
    rcases hid with rfl | rfl <;> decide
  simp only [identified, List.getD_cons_zero, List.getD_cons_succ, if_neg hok, State.setMs, hp]
  rfl

theorem nextCommand_identify {s : State} {id : Byte} {rest : List Byte} (hst : s.ms.stage = .ID)
    (hid : id = 0x00 ∨ id = 0x03) (hrx : s.mouse.rx.contents = 0xFA :: id :: rest) :
    (s.cfg.policy = .C →
      nextCommand s = some ([0xF4], .toStage .ENA, { s.ms with psize := .ofId id }, rest)) ∧
    (s.cfg.policy = .B →
      nextCommand s = some ([0xEB], .toStage .POLL, { s.ms with psize := .ofId id, stage := .POLL }, rest)) := by
  refine ⟨fun hp => ?_, fun hp => ?_⟩
  all_goals simp only [nextCommand, hst, hrx, hp, hid, true_and, if_true, PSize.ofId]

/-- Under Policy A the identify reply is followed by no command (R256). -/
theorem getmove_identify_policyA {s : State} {id : Byte} {rest : List Byte} (hidle : s.fgIdle = true)
    (hst : s.ms.stage = .ID) (hid : id = 0x00 ∨ id = 0x03) (hrx : s.mouse.rx.contents = 0xFA :: id :: rest)
    (hp : s.cfg.policy = .A) :
    ∃ q t, q.contents = rest ∧ exec .getmove s = .next t ∧
      Answered s t { s.mouse with rx := q } { s.ms with psize := .ofId id, stage := .POLL } s.notes none := by
  have hfuel := fgFuel_mouse s.called
  obtain ⟨q, hq, hle, hrun⟩ := reaches_reply (s := s.called) (bs := [0xFA, id]) (by rw [called_ms, hst]; rfl)
    (List.cons_ne_nil _ _) hrx
  have hdone : replyComplete [0xFA, id] (s.called.withRx q) = identified [0xFA, id] (s.called.withRx q) := by
    simp only [replyComplete, State.withRx, called_ms, hst]
  rw [hdone, identified_policyA (s := s.called.withRx q) hid hp] at hrun
  obtain ⟨t, ht, ha⟩ := answered_of_ret (.called s) (p := { s.mouse with rx := q }) rfl hrun
    (fuel := fgFuel s.called) (by omega)
  exact ⟨q, t, hq, (exec_getmove hidle).trans ht, ha⟩

/-- The acknowledged enable command starts streaming (R257). -/
theorem getmove_enabled {s : State} {rest : List Byte} (hidle : s.fgIdle = true) (hst : s.ms.stage = .ENA)
    (hrx : s.mouse.rx.contents = 0xFA :: rest) :
    ∃ q t, q.contents = rest ∧ exec .getmove s = .next t ∧ Answered s t { s.mouse with rx := q }
      { s.ms with stage := .STREAM, lastLen := 0, ts := s.called.readNow.1 } s.notes none := by
  have hfuel := fgFuel_mouse s.called
  obtain ⟨q, hq, hle, hrun⟩ := reaches_reply (s := s.called) (bs := [0xFA]) (by rw [called_ms, hst]; rfl)
    (List.cons_ne_nil _ _) hrx
  have hdone : replyComplete [0xFA] (s.called.withRx q) = (readTime (.stamp (.toStage .STREAM)),
      s.called.engine { s.mouse with rx := q } { s.ms with stage := .STREAM, lastLen := 0 } s.notes) := by
    simp only [replyComplete, State.withRx, called_ms, hst]
    exact if_pos rfl
  have hnow := Reaches.step (.now (.stamp (.toStage .STREAM)))
    (s.called.engine { s.mouse with rx := q } { s.ms with stage := .STREAM, lastLen := 0 } s.notes)
  rw [Task.complete, readNow_engine] at hnow
  rw [hdone] at hrun
  obtain ⟨t, ht, ha⟩ := answered_of_ret (Retimed.called s).readNow (p := { s.mouse with rx := q }) rfl
    (hrun.trans hnow) (fuel := fgFuel s.called) (by omega)
  exact ⟨q, t, hq, (exec_getmove hidle).trans ht, ha⟩

/-- Settles O52: the identify reply, policy by policy, and the acknowledged enable command. -/
theorem identifyAndEnable : Obligations.IdentifyAndEnable := by
  intro s id rest hs hidle
  constructor
  · intro hst hid hrx hroom ps
    obtain ⟨hnC, hnB⟩ := nextCommand_identify hst hid hrx
    cases hp : s.cfg.policy with
    | A =>
      obtain ⟨q, t, hq, ht, hdone, hmouse, hms, hnotes, hrets⟩ := getmove_identify_policyA hidle hst hid hrx hp
      exact ⟨t, ht, hdone, hmouse ▸ hq, hnotes, hrets, nofun, fun _ => ⟨hmouse ▸ rfl, hmouse ▸ rfl, hms⟩, nofun⟩
    | B =>
      obtain ⟨t, ht, hdone, hleft, htx, hkick, hms, hnotes, hrets⟩ :=
        getmove_sends hs hidle (hnB hp) (hroom.resolve_left (by simp [hp]))
      exact ⟨t, ht, hdone, hleft, hnotes, hrets, nofun, nofun, fun _ => ⟨htx, hkick, hms⟩⟩
    | C =>
      obtain ⟨t, ht, hdone, hleft, htx, hkick, hms, hnotes, hrets⟩ :=
        getmove_sends hs hidle (hnC hp) (hroom.resolve_left (by simp [hp]))
      exact ⟨t, ht, hdone, hleft, hnotes, hrets, fun _ => ⟨htx, hkick, hms⟩, nofun, nofun⟩
  · intro hst hrx
    obtain ⟨q, t, hq, ht, hdone, hmouse, hms, hnotes, hrets⟩ := getmove_enabled hidle hst hrx
    exact ⟨t, ht, hdone, hmouse ▸ hq, hmouse ▸ rfl, hmouse ▸ rfl, hms, hnotes, hrets⟩

theorem mem_replyTable {cfg : Cfg} {st : Stage} {n : Nat} {T : Word32} (h : (st, n, T) ∈ replyTable cfg) :
    st.awaits = true ∧ n = replyLength st ∧ T = replyTimeout cfg st := by
  simp only [replyTable, List.mem_cons, Prod.mk.injEq, List.not_mem_nil, or_false] at h
  rcases h with h | h | h | h | h | h
  all_goals
    obtain ⟨rfl, rfl, rfl⟩ := h
    exact ⟨rfl, rfl, rfl⟩

/-- A complete reply that is not the expected one is a protocol violation (R269, R314). -/
theorem replyComplete_unexpected {s : State} {got : List Byte} (hst : s.ms.stage.awaits = true)
    (hlen : got.length = replyLength s.ms.stage) (hno : ¬replyExpected s.ms.stage got) :
    replyComplete got s = failWith .protocolViolation s := by
  cases h : s.ms.stage with
  | U | POLL | STREAM => rw [h] at hst; cases hst
  | RST | SR1 | SR2 | SR3 | ENA =>
    rw [h] at hno
    simp only [replyComplete, h]
    exact if_neg hno
  | ID =>
    rw [h] at hno hlen
    obtain ⟨a, id, rfl⟩ := List.length_eq_two.mp hlen
    have hbad : a ≠ REPLY_ACK ∨ (id ≠ REPLY_ID0 ∧ id ≠ REPLY_ID3) := by
      simp only [replyExpected, List.cons.injEq, and_true, not_or, not_and] at hno
      by_cases ha : a = REPLY_ACK
      · exact .inr ⟨hno.1 ha, hno.2 ha⟩
      · exact .inl ha
    simp only [replyComplete, h]
    exact if_pos hbad

/-- With less than the reply queued the deadline decides (R269). -/
theorem reaches_replyDeadline {s : State} (hst : s.ms.stage.awaits = true)
    (hlen : s.mouse.rx.len.toNat < replyLength s.ms.stage) :
    Reaches 2 (beginGetMove s) (if expired s.ms s.readNow.1 (replyTimeout s.cfg s.ms.stage)
      then failWith .timeout s.readNow.2 else (noMove, s.readNow.2)) := by
  have hbegin : beginGetMove s = (readLen .reply, s) := by
    cases h : s.ms.stage with
    | U | POLL | STREAM => rw [h] at hst; cases hst
    | _ => simp only [beginGetMove, h]
  have hcheck : replyLen s.mouse.rx.len s = (readTime .replyDeadline, s) := if_neg (by omega)
  have hnow := Reaches.step (.now .replyDeadline) s
  simp only [Task.complete, resumeNow, readNow_ms, readNow_cfg] at hnow
  rw [hbegin]
  exact (reaches_readLen (k := .reply) hcheck).trans hnow

/-- Settles O53: a complete reply is popped and fails (`replyComplete_unexpected`), an incomplete one is left to its
deadline (`reaches_replyDeadline`). -/
theorem failedReplyReturnsToU : Obligations.FailedReplyReturnsToU := by
  intro s st n T hs hidle hrow hst
  subst hst
  have hfuel := fgFuel_mouse s.called
  obtain ⟨hawaits, rfl, rfl⟩ := mem_replyTable hrow
  rw [exec_getmove hidle]
  refine ⟨fun hle hno => ?_, fun hlt => ?_⟩
  · have htake := List.length_take_of_le hle
    have hpos : s.mouse.rx.contents.take (replyLength s.ms.stage) ≠ [] := by
      rw [← List.length_pos_iff, htake]
      exact Nat.pos_of_ne_zero (by simpa [Stage.awaits] using hawaits)
    obtain ⟨q, hq, hle, hrun⟩ := reaches_reply (s := s.called) htake hpos (List.take_append_drop ..).symm
    rw [replyComplete_unexpected (s := s.called.withRx q) hawaits htake hno] at hrun
    obtain ⟨t, ht, hdone, hmouse, hms, hnotes, hrets⟩ := answered_of_fail (.called s)
      (p := { s.mouse with rx := q }) rfl hrun (fuel := fgFuel s.called) (by omega)
    exact ⟨t, ht, hdone, hmouse ▸ hq, hmouse ▸ rfl, hmouse ▸ rfl, hms, hnotes, hrets⟩
  · rw [length_contents] at hlt
    exact answered_of_deadline (Retimed.called s).readNow (reaches_replyDeadline (s := s.called) hawaits hlt) (by omega)

/-! ## Packets of Policies A and B (R259, R260, R267) -/

/-- A whole packet is queued: its acknowledgement is popped and fails, or the packet is popped after it. -/
theorem reaches_pollPacket {s : State} {a : Byte} {pkt left : List Byte} (hpkt : pkt.length = s.ms.psize.bytes)
    (h : s.mouse.rx.contents = a :: (pkt ++ left)) :
    (a = 0xFA → ∃ q, q.contents = left ∧
      Reaches (pkt.length + 2) (readLen .poll, s) (packetComplete pkt (s.withRx q))) ∧
    (a ≠ 0xFA → ∃ q, q.contents = pkt ++ left ∧
      Reaches 2 (readLen .poll, s) (failWith .protocolViolation (s.withRx q))) := by
  have hcount : s.ms.psize.bytes + 1 ≤ s.mouse.rx.len.toNat := by
    rw [← length_contents, h, List.length_cons, List.length_append]
    omega
  have hcheck : pollLen s.mouse.rx.len s = (beginPop rxMouse .pollAck, s) := if_pos hcount
  obtain ⟨q, hq, hpop⟩ := reaches_pop .pollAck h
  have hack := (reaches_readLen (k := .poll) hcheck).trans hpop
  refine ⟨fun ha => ?_, fun ha => ⟨q, hq, ?_⟩⟩
  · obtain ⟨b, bs, rfl⟩ := List.exists_cons_of_ne_nil (l := pkt) fun he => by
      have := psize_pos s.ms.psize
      rw [he, List.length_nil] at hpkt
      omega
    obtain ⟨q', hq', hcollect⟩ := reaches_collect (ms := s.ms) (more := .pollPkt) (done := packetComplete)
      (want := s.ms.psize.bytes) (fun u got b hu => by rw [← hu]; rfl) b [] left (s := s.withRx q) rfl
      (by simpa using hpkt) hq
    have hgo : resumePop .pollAck (some a) (s.withRx q) = (beginPop rxMouse (.pollPkt []), s.withRx q) :=
      if_neg (not_not.mpr ha)
    rw [hgo] at hack
    exact ⟨q', hq', hack.trans hcollect⟩
  · have hfail : resumePop .pollAck (some a) (s.withRx q) = failWith .protocolViolation (s.withRx q) := if_pos ha
    exact hfail ▸ hack

/-- With less than a packet queued the deadline decides (R270); before it Policy A waits and Policy B returns. -/
theorem reaches_pollDeadline {s : State} (hlen : s.mouse.rx.len.toNat ≤ s.ms.psize.bytes) :
    (s.cfg.policy = .A → Reaches 2 (readLen .poll, s) (if expired s.ms s.readNow.1 s.cfg.tReadMs
      then failWith .timeout s.readNow.2 else (.wait (.len rxMouse .poll), s.readNow.2))) ∧
    (s.cfg.policy = .B → Reaches 2 (readLen .poll, s) (if expired s.ms s.readNow.1 s.cfg.tReadMs
      then failWith .timeout s.readNow.2 else (noMove, s.readNow.2))) := by
  have hcheck : pollLen s.mouse.rx.len s = (readTime .pollDeadline, s) := if_neg (by omega)
  have hnow := Reaches.step (.now .pollDeadline) s
  simp only [Task.complete, resumeNow, readNow_ms, readNow_cfg] at hnow
  refine ⟨fun hp => ?_, fun hp => ?_⟩
  all_goals
    simp only [hp] at hnow
    exact (reaches_readLen (k := .poll) hcheck).trans hnow

theorem begin_pollB {s : State} (hst : s.ms.stage = .POLL) (hp : s.cfg.policy = .B) :
    beginGetMove s = (readLen .poll, s) := by
  simp only [beginGetMove, hst, hp]

/-- The state after Policy A has sent its request. -/
def State.requested (s : State) : State :=
  s.readNow.2.engine (s.mouse.emitted [0xEB]) { s.ms with ts := s.readNow.1 } s.notes

/-- Policy A sends its request and comes to its loop (R259). -/
theorem reaches_pollA {s : State} (hs : StateOk s) (hst : s.ms.stage = .POLL) (hp : s.cfg.policy = .A)
    (hroom : mouseRoom s 1) : Reaches 2 (beginGetMove s) (readLen .poll, s.requested) := by
  have hbegin : beginGetMove s = (sendBytes [CMD_READ_DATA] .pollA, s) := by simp only [beginGetMove, hst, hp]
  have hsend := reaches_commandSent (cmd := [CMD_READ_DATA]) .pollA (hs.base.queue (.tx .mouse)) hroom
  rw [show s.commandSent _ = _ from commandSent_engine s s.mouse s.ms s.notes _] at hsend
  rw [hbegin]
  exact hsend

theorem policy_of_poll {s : State} (hs : StateOk s) (hst : s.ms.stage = .POLL) : s.cfg.policy ≠ .C := by
  intro hp
  have hfits := hs.base.ms.stage
  rw [hst, hp] at hfits
  cases hfits

theorem packetComplete_policyA {s : State} (hp : s.cfg.policy = .A) (pkt : List Byte) :
    packetComplete pkt s = reportAB (s.setMs fun m => { m with acc := decodePacket m.psize pkt }) := by
  simp only [packetComplete, State.setMs, hp]

/-- With the acknowledged packet queued, Policy A sends its request and then decodes the packet, Policy B decodes the
packet and then sends its request; both come to the report in the same state. -/
theorem reaches_polledReport {s : State} {pkt left : List Byte} (hs : StateOk s) (hst : s.ms.stage = .POLL)
    (hpkt : pkt.length = s.ms.psize.bytes) (hrx : s.mouse.rx.contents = 0xFA :: (pkt ++ left)) (hroom : mouseRoom s 1) :
    ∃ n q, n ≤ s.mouse.rx.len.toNat + 4 ∧ q.contents = left ∧ Reaches n (beginGetMove s)
      (reportAB (s.readNow.2.engine (Port.emitted { s.mouse with rx := q } [0xEB])
        { s.ms with ts := s.readNow.1, acc := decodePacket s.ms.psize pkt } s.notes)) := by
  cases hp : s.cfg.policy with
  | C => exact absurd hp (policy_of_poll hs hst)
  | A =>
    have hsend := reaches_pollA hs hst hp hroom
    obtain ⟨q, hq, hpoll⟩ := (reaches_pollPacket (s := s.requested) hpkt hrx).1 rfl
    rw [packetComplete_policyA (s := s.requested.withRx q) ((congrArg Cfg.policy (readNow_cfg s)).trans hp)] at hpoll
    have hle : pkt.length + 1 ≤ s.mouse.rx.len.toNat := by
      rw [← length_contents, hrx, List.length_cons, List.length_append]
      omega
    exact ⟨_, q, by omega, hq, hsend.trans hpoll⟩
  | B =>
    have hn : nextCommand s =
        some ([0xEB], .reportB, { s.ms with acc := decodePacket s.ms.psize pkt }, left) := by
      simp only [nextCommand, hst, hp, hrx, true_and, ← hpkt, List.length_append, Nat.le_add_right, if_true,
        List.take_left, List.drop_left]
    exact reaches_sent hs hn hroom

/-- Settles O54: both policies come to the report (`reaches_polledReport`); a byte that is no acknowledgement fails
after Policy A's request and before Policy B's. -/
theorem polledPacket : Obligations.PolledPacket := by
  intro s a pkt rest hs hidle hst hpkt hrx p
  have hfuel := fgFuel_mouse s.called
  rw [exec_getmove hidle]
  constructor
  · intro ha hroom
    rw [ha] at hrx
    obtain ⟨n, q, hle, hq, hrun⟩ := reaches_polledReport (s := s.called) hs.called hst hpkt hrx hroom
    obtain ⟨t, ht, hdone, hmouse, hnotes, hreport⟩ := answered_of_reportAB (s := s) (fuel := fgFuel s.called)
      (Retimed.called s).readNow (p := Port.emitted { s.mouse with rx := q } [0xEB]) rfl hrun (by omega)
    exact ⟨t, ht, hdone, hmouse ▸ hq, hmouse ▸ contents_pushAll (hs.base.queue (.tx .mouse)) hroom,
      hmouse ▸ Bool.or_true _, hnotes, hreport⟩
  · intro ha hroom
    cases hp : s.cfg.policy with
    | C => exact absurd hp (policy_of_poll hs hst)
    | A =>
      have hroom : mouseRoom s 1 := hroom.resolve_left (by simp [hp])
      have hsend := reaches_pollA (s := s.called) hs.called hst hp hroom
      obtain ⟨q, hq, hpoll⟩ := (reaches_pollPacket (s := s.called.requested) hpkt hrx).2 ha
      obtain ⟨t, ht, hdone, hmouse, hms, hnotes, hrets⟩ := answered_of_fail (s := s) (fuel := fgFuel s.called)
        (Retimed.called s).readNow (p := Port.emitted { s.mouse with rx := q } [0xEB]) rfl (hsend.trans hpoll)
        (by omega)
      exact ⟨t, ht, hdone, hmouse ▸ hq, hst ▸ hnotes, hrets, fun _ => ⟨hmouse ▸ contents_pushAll
        (hs.base.queue (.tx .mouse)) hroom, hmouse ▸ Bool.or_true _, hms⟩, nofun⟩
    | B =>
      obtain ⟨q, hq, hpoll⟩ := (reaches_pollPacket (s := s.called) hpkt hrx).2 ha
      rw [← begin_pollB (s := s.called) hst hp] at hpoll
      obtain ⟨t, ht, hdone, hmouse, hms, hnotes, hrets⟩ := answered_of_fail (s := s) (fuel := fgFuel s.called)
        (.called s) (p := { s.mouse with rx := q }) rfl hpoll (by omega)
      exact ⟨t, ht, hdone, hmouse ▸ hq, hst ▸ hnotes, hrets, nofun, fun _ => ⟨hmouse ▸ rfl, hmouse ▸ rfl, hms⟩⟩

/-! ## Less than a packet (R259, R260) -/

/-- Policy A's request starts its deadline (R259). -/
theorem reaches_requestedDeadline {s : State} (hp : s.cfg.policy = .A)
    (hlen : s.mouse.rx.len.toNat ≤ s.ms.psize.bytes) :
    Reaches 2 (readLen .poll, s.requested) (if expired s.requested.ms s.readNow.2.readNow.1 s.cfg.tReadMs
      then failWith .timeout (s.readNow.2.readNow.2.engine (s.mouse.emitted [0xEB]) s.requested.ms s.notes)
      else (.wait (.len rxMouse .poll),
        s.readNow.2.readNow.2.engine (s.mouse.emitted [0xEB]) s.requested.ms s.notes)) := by
  have hcfg : s.requested.cfg = s.cfg := readNow_cfg s
  have hnow : s.requested.readNow = (s.readNow.2.readNow.1,
      s.readNow.2.readNow.2.engine (s.mouse.emitted [0xEB]) s.requested.ms s.notes) := readNow_engine ..
  have hrun := (reaches_pollDeadline (s := s.requested) hlen).1 (by rw [hcfg, hp])
  rwa [hcfg, hnow] at hrun

/-- Resumed, the wait is the loop of Policy A again. -/
theorem step_poll {s : State} (htape : s.tape = []) (hfg : s.fg = some (.len (.rx .mouse) .poll)) :
    step s = runAct (fgFuel s) (readLen .poll, s) := by
  rw [step_nil htape, fgTurn, hfg]
  rfl

theorem paused_self {s : State} {k : Task} (h : s.fg = some k) : s.paused k = s := by
  rw [State.paused, ← h]

/-- Settles O55: without a packet the deadline decides (`reaches_pollDeadline`), counted from Policy A's request
(`reaches_requestedDeadline`); the resumed loop looks at the queue first (`step_poll`, `reaches_pollPacket`). -/
theorem pollWithoutAPacket : Obligations.PollWithoutAPacket := by
  constructor
  · intro s hs hidle hst hlen
    have hfuel := fgFuel_mouse s.called
    refine ⟨fun hp => ?_, fun hp hroom => ?_⟩
    · have hrun := (reaches_pollDeadline (s := s.called) hlen).2 hp
      rw [← begin_pollB (s := s.called) hst hp] at hrun
      rw [exec_getmove hidle, ← hst]
      exact answered_of_deadline (Retimed.called s).readNow hrun (by omega)
    · have hrun := (reaches_pollA (s := s.called) hs.called hst hp hroom).trans (reaches_requestedDeadline hp hlen)
      obtain ⟨t, ht, hmouse, hrest⟩ := answered_or_waits_of_deadline (s := s) (fuel := fgFuel s.called)
        (Retimed.called s).readNow.readNow (p := s.mouse.emitted [0xEB]) rfl hrun (by omega)
      rw [exec_getmove hidle, ← hst]
      exact ⟨t, ht, hmouse ▸ rfl, hmouse ▸ contents_pushAll (hs.base.queue (.tx .mouse)) hroom, hrest⟩
  · intro s hs htape hst hp hfg
    have hfuel := fgFuel_mouse s
    rw [step_poll htape hfg]
    constructor
    · intro hlen
      have hrun := (reaches_pollDeadline hlen).1 hp
      refine ⟨fun hearly => ?_, fun hlate => ?_⟩
      · rw [if_neg (by rw [expired_iff]; omega)] at hrun
        rw [hrun.run (by omega)]
        exact congrArg _ (paused_self ((readNow_fg s).trans hfg))
      · rw [if_pos ((expired_iff ..).mpr hlate), ← (Retimed.refl s).readNow.engine] at hrun
        obtain ⟨t, ht, hdone, hmouse, hms, hnotes, hrets⟩ :=
          answered_of_fail (Retimed.refl s).readNow rfl hrun (fuel := fgFuel s) (by omega)
        exact ⟨t, ht, hdone, hmouse, hms, hst ▸ hnotes, hrets⟩
    · intro a pkt rest hpkt hrx p
      have hle : pkt.length + 2 ≤ fgFuel s := by
        have hlen := congrArg List.length hrx
        rw [length_contents, List.length_cons, List.length_append] at hlen
        omega
      obtain ⟨hack, hno⟩ := reaches_pollPacket hpkt hrx
      by_cases ha : a = 0xFA
      · obtain ⟨q, hq, hrun⟩ := hack ha
        rw [packetComplete_policyA (s := s.withRx q) hp] at hrun
        obtain ⟨t, ht, hdone, hmouse, hnotes, hreport⟩ := answered_of_reportAB (s := s) (fuel := fgFuel s) (.refl s)
          (p := { s.mouse with rx := q }) (ms := { s.ms with acc := p }) (notes := s.notes) rfl hrun hle
        exact ⟨t, ht, hdone, hmouse ▸ rfl, hmouse ▸ rfl, fun _ => ⟨hmouse ▸ hq, hnotes, hreport⟩,
          fun hne => absurd ha hne⟩
      · obtain ⟨q, hq, hrun⟩ := hno ha
        obtain ⟨t, ht, hdone, hmouse, hms, hnotes, hrets⟩ := answered_of_fail (s := s) (fuel := fgFuel s) (.refl s)
          (p := { s.mouse with rx := q }) (ms := s.ms) (notes := s.notes) rfl hrun (by omega)
        exact ⟨t, ht, hdone, hmouse ▸ rfl, hmouse ▸ rfl, fun h => absurd h ha,
          fun _ => ⟨hmouse ▸ hq, hst ▸ hnotes, hrets, hms⟩⟩

end Sys2Proof.Machine

/-! PROOFS. Streamed packets of Policy C (spec/43_mouse.md R261, R262): the dating of the occupancy, the drop of a
partial packet, and the sum of whole packets. -/

namespace Sys2Proof.Machine

open Sys2Proof

/-! ## Activity tracking (R261) -/

/-- The engine after activity tracking at time `now`: a changed occupancy is dated. -/
def State.datedMs (s : State) (now : Word32) : Ms :=
  { s.ms with ts := if s.mouse.rx.len ≠ s.ms.lastLen then now else s.ms.ts, lastLen := s.mouse.rx.len }

theorem datedMs_eq_ite (s : State) (now : Word32) : s.datedMs now =
    if s.mouse.rx.len ≠ s.ms.lastLen then { s.ms with ts := now, lastLen := s.mouse.rx.len } else s.ms := by
  rw [State.datedMs]
  by_cases h : s.mouse.rx.len = s.ms.lastLen
  · rw [if_neg (not_not.mpr h), if_neg (not_not.mpr h), h]
  · rw [if_pos h, if_pos h]

/-- The state after activity tracking, but for the engine: a changed occupancy took a read of `now()`. -/
def State.datedAt (s : State) : State :=
  if s.mouse.rx.len ≠ s.ms.lastLen then s.readNow.2 else s

/-- The state after activity tracking. -/
def State.dated (s : State) : State := s.datedAt.engine s.mouse (s.datedMs s.readNow.1) s.notes

theorem Retimed.datedAt {s u : State} (h : Retimed s u) : Retimed s u.datedAt := by
  rw [State.datedAt]
  split
  · exact h.readNow
  · exact h

theorem dated_cfg (s : State) : s.dated.cfg = s.cfg := by
  show s.datedAt.cfg = s.cfg
  rw [State.datedAt, apply_ite State.cfg, readNow_cfg, ite_self]

theorem reaches_streamCheck {s : State} (hst : s.ms.stage = .STREAM) :
    ∃ n, n ≤ 2 ∧ Reaches n (beginGetMove s) (streamCheck s.mouse.rx.len s.dated) := by
  have hbegin : beginGetMove s = (readLen .stream, s) := by simp only [beginGetMove, hst]
  rw [hbegin, State.dated, State.datedAt, datedMs_eq_ite]
  by_cases hchanged : s.mouse.rx.len ≠ s.ms.lastLen
  · have hcheck : streamLen s.mouse.rx.len s = (readTime (.seen s.mouse.rx.len), s) := if_pos hchanged
    have hnow : (Task.now (.seen s.mouse.rx.len)).complete s = streamCheck s.mouse.rx.len (s.readNow.2.engine s.mouse
        { s.ms with ts := s.readNow.1, lastLen := s.mouse.rx.len } s.notes) := by
      simp [Task.complete, resumeNow, State.setMs, State.engine]
    rw [if_pos hchanged, if_pos hchanged]
    exact ⟨2, le_rfl, (reaches_readLen (k := .stream) hcheck).trans (hnow ▸ .step _ s)⟩
  · have hcheck : streamLen s.mouse.rx.len s = streamCheck s.mouse.rx.len s := if_neg hchanged
    rw [if_neg hchanged, if_neg hchanged]
    exact ⟨1, by decide, reaches_readLen (k := .stream) hcheck⟩

/-! ## A partial packet (R261) -/

theorem len_eq_zero_of_contents {q : Queue} (h : q.contents = []) : q.len = 0 := by
  rw [Queue.len, contents_nil.mp h]
  exact BitVec.sub_self _

/-- The drain of a partial packet empties the queue and dates that (R261). -/
theorem reaches_resync (s : State) (p : Port) (ms : Ms) (notes : List Note) :
    ∃ n q, n ≤ p.rx.len.toNat + 3 ∧ q.contents = [] ∧ Reaches n (readLen (.drain .resync), s.engine p ms notes)
      (noMove, s.readNow.2.engine { p with rx := q } { ms with lastLen := 0, ts := s.readNow.1 } notes) := by
  obtain ⟨q, hq, hdrain⟩ := reaches_drain .resync (s := s.engine p ms notes) rfl
  have hlen : ((s.engine p ms notes).withRx q).mouse.rx.len = 0 := len_eq_zero_of_contents hq
  have hread := reaches_readLen (k := .resynced) (s := (s.engine p ms notes).withRx q) rfl
  have hnow := Reaches.step (.now .resynced) (s.engine { p with rx := q } { ms with lastLen := 0 } notes)
  rw [Task.complete, readNow_engine] at hnow
  rw [hlen] at hread
  rw [length_contents] at hdrain
  refine ⟨_, q, ?_, hq, (reaches_readLen (k := .drain .resync) rfl).trans (hdrain.trans (hread.trans hnow))⟩
  show _ ≤ (s.engine p ms notes).mouse.rx.len.toNat + 3
  omega

/-- A partial packet is left to the deadline (R261). -/
theorem reaches_resyncDeadline {s : State} (hne : s.mouse.rx.len ≠ 0) (hlen : s.mouse.rx.len.toNat < s.ms.psize.bytes) :
    Reaches 1 (streamCheck s.mouse.rx.len s.dated)
      (if expired s.dated.ms s.datedAt.readNow.1 s.cfg.tReadMs then readLen (.drain .resync) else noMove,
        s.datedAt.readNow.2.engine s.mouse s.dated.ms s.notes) := by
  have hpos : 0 < s.mouse.rx.len.toNat := Nat.pos_of_ne_zero fun h => hne (BitVec.eq_of_toNat_eq h)
  have hcheck : streamCheck s.mouse.rx.len s.dated = (readTime .resyncDeadline, s.dated) :=
    if_pos ⟨hpos, hlen⟩
  have hread : s.dated.readNow = (s.datedAt.readNow.1, s.datedAt.readNow.2.engine s.mouse s.dated.ms s.notes) :=
    readNow_engine ..
  have hnow := Reaches.step (.now .resyncDeadline) s.dated
  simp only [Task.complete, resumeNow, readNow_ms, readNow_cfg, dated_cfg] at hnow
  simp only [hread] at hnow
  rw [hcheck]
  split at hnow
  · rwa [if_pos ‹_›]
  · rwa [if_neg ‹_›]

/-- Settles O56: an empty queue returns at once, a partial packet is left to its deadline (`reaches_resyncDeadline`) and
drained after it (`reaches_resync`). -/
theorem partialPacketIsDroppedAfterTheTimeout : Obligations.PartialPacketIsDroppedAfterTheTimeout := by
  intro s hs hidle hst hlen L u ms1
  have hms1 : s.called.dated.ms = ms1 := datedMs_eq_ite s.called _
  have hfuel := fgFuel_mouse s.called
  have hu : Retimed s s.called.datedAt := (Retimed.called s).datedAt
  obtain ⟨n, hn, hbegin⟩ := reaches_streamCheck (s := s.called) hst
  rw [exec_getmove hidle]
  by_cases hL : L = 0
  · have hcheck : streamCheck s.called.mouse.rx.len s.called.dated = (noMove, s.called.dated) := by
      rw [streamCheck, show s.called.mouse.rx.len = 0 from hL]
      rfl
    rw [hcheck] at hbegin
    obtain ⟨t, ht, hdone, hmouse, hms, hnotes, hrets⟩ :=
      answered_of_ret hu (p := s.mouse) rfl hbegin (fuel := fgFuel s.called) (by omega)
    exact ⟨t, ht, hdone, hmouse ▸ rfl, hmouse ▸ rfl, hnotes, hrets, fun _ => ⟨hmouse ▸ rfl, hms.trans hms1⟩,
      fun hne => absurd hL hne⟩
  · have hrun := hbegin.trans (reaches_resyncDeadline (s := s.called) hL hlen)
    have hexpired : expired s.called.dated.ms s.called.datedAt.readNow.1 s.called.cfg.tReadMs = true ↔
        s.cfg.tReadMs.toNat < (u.readNow.1 - ms1.ts).toNat := hms1 ▸ expired_iff ..
    by_cases hlate : s.cfg.tReadMs.toNat < (u.readNow.1 - ms1.ts).toNat
    · obtain ⟨m, q, hm, hq, hresync⟩ := reaches_resync s.called.datedAt.readNow.2 s.mouse s.called.dated.ms s.notes
      rw [if_pos (hexpired.mpr hlate)] at hrun
      rw [hms1] at hrun hresync
      obtain ⟨t, ht, hdone, hmouse, hms, hnotes, hrets⟩ := answered_of_ret hu.readNow.readNow
        (p := { s.mouse with rx := q }) rfl (hrun.trans hresync) (fuel := fgFuel s.called)
        (by rw [called_mouse] at hfuel; omega)
      exact ⟨t, ht, hdone, hmouse ▸ rfl, hmouse ▸ rfl, hnotes, hrets,
        fun h => absurd hlate (Nat.not_lt.mpr (h.resolve_left hL)), fun _ _ => ⟨hmouse ▸ hq, hms⟩⟩
    · rw [if_neg (mt hexpired.mp hlate)] at hrun
      obtain ⟨t, ht, hdone, hmouse, hms, hnotes, hrets⟩ :=
        answered_of_ret hu.readNow (p := s.mouse) rfl hrun (fuel := fgFuel s.called) (by omega)
      exact ⟨t, ht, hdone, hmouse ▸ rfl, hmouse ▸ rfl, hnotes, hrets, fun _ => ⟨hmouse ▸ rfl, hms.trans hms1⟩,
        fun _ h => absurd h hlate⟩

/-! ## Whole packets (R262) -/

section

variable {ps : PSize} {prev : Byte} {n : Nat} {acc : Move} {bs : List Byte}

theorem coalesce_stops (h : n = 0 ∨ (decodePacket ps (bs.take ps.bytes)).btns ≠ prev) :
    coalesce ps prev (n + 1) acc bs = (acc.add (decodePacket ps (bs.take ps.bytes)), bs.drop ps.bytes) := by
  rw [coalesce]
  rcases h with rfl | h
  · exact ite_self _
  · exact if_pos h

theorem coalesce_goesOn (h : (decodePacket ps (bs.take ps.bytes)).btns = prev) :
    coalesce ps prev (n + 1) acc bs =
      coalesce ps prev n (acc.add (decodePacket ps (bs.take ps.bytes))) (bs.drop ps.bytes) := by
  rw [coalesce]
  exact if_neg (not_not.mpr h)

end

/-- The state with a packet added to the sum of Policy C. -/
def State.addPacket (s : State) (pkt : List Byte) : State :=
  s.setMs fun m => { m with acc := m.acc.add (decodePacket s.ms.psize pkt) }

theorem streamPacket_stops {s : State} {n : Nat} {pkt : List Byte}
    (h : n = 0 ∨ (decodePacket s.ms.psize pkt).btns ≠ s.ms.prevBtns) :
    streamPacket n pkt s = streamReport (s.addPacket pkt) := by
  cases n with
  | zero => rfl
  | succ n => exact if_pos (h.resolve_left (Nat.succ_ne_zero n))

theorem streamPacket_goesOn {s : State} (n : Nat) {pkt : List Byte}
    (h : (decodePacket s.ms.psize pkt).btns = s.ms.prevBtns) :
    streamPacket (n + 1) pkt s = (beginPop rxMouse (.stream n []), s.addPacket pkt) :=
  if_neg (not_not.mpr h)

/-- A whole packet is popped. -/
theorem reaches_streamPacket {s : State} (n : Nat) (hlen : s.ms.psize.bytes ≤ s.mouse.rx.contents.length) :
    ∃ q, q.contents = s.mouse.rx.contents.drop s.ms.psize.bytes ∧
      Reaches s.ms.psize.bytes (beginPop rxMouse (.stream n []), s)
        (streamPacket n (s.mouse.rx.contents.take s.ms.psize.bytes) (s.withRx q)) := by
  have htake := List.length_take_of_le hlen
  have hsplit := (List.take_append_drop s.ms.psize.bytes s.mouse.rx.contents).symm
  obtain ⟨b, bs, hpkt⟩ := List.exists_cons_of_length_pos (htake ▸ psize_pos s.ms.psize)
  rw [hpkt] at htake hsplit ⊢
  obtain ⟨q, hq, hcollect⟩ := reaches_collect (ms := s.ms) (more := .stream n) (done := streamPacket n)
    (want := s.ms.psize.bytes) (fun u got b hu => by rw [← hu]; rfl) b [] _ rfl (by simpa using htake) hsplit
  rw [htake] at hcollect
  exact ⟨q, hq, hcollect⟩

/-- The loop of R262 sums what `coalesce` sums. -/
theorem reaches_coalesced {s : State} {n : Nat} (hlen : (n + 1) * s.ms.psize.bytes ≤ s.mouse.rx.contents.length) :
    ∃ k q, k ≤ s.mouse.rx.contents.length ∧
      q.contents = (coalesce s.ms.psize s.ms.prevBtns (n + 1) s.ms.acc s.mouse.rx.contents).2 ∧
      Reaches k (beginPop rxMouse (.stream n []), s) (streamReport (s.engine { s.mouse with rx := q }
        { s.ms with acc := (coalesce s.ms.psize s.ms.prevBtns (n + 1) s.ms.acc s.mouse.rx.contents).1 } s.notes)) := by
  induction n generalizing s with
  | zero =>
    rw [Nat.zero_add, Nat.one_mul] at hlen
    obtain ⟨q, hq, hpop⟩ := reaches_streamPacket 0 hlen
    rw [coalesce_stops (.inl rfl)]
    exact ⟨_, q, hlen, hq, hpop⟩
  | succ n ih =>
    rw [Nat.succ_mul] at hlen
    obtain ⟨q, hq, hpop⟩ := reaches_streamPacket (s := s) (n + 1) (by omega)
    by_cases hbtns : (decodePacket s.ms.psize (s.mouse.rx.contents.take s.ms.psize.bytes)).btns = s.ms.prevBtns
    · rw [coalesce_goesOn hbtns]
      rw [streamPacket_goesOn (s := s.withRx q) n hbtns] at hpop
      have hrx : ((s.withRx q).addPacket (s.mouse.rx.contents.take s.ms.psize.bytes)).mouse.rx.contents =
        s.mouse.rx.contents.drop s.ms.psize.bytes := hq
      obtain ⟨k, q', hk, hq', hrest⟩ := ih (s := (s.withRx q).addPacket (s.mouse.rx.contents.take s.ms.psize.bytes))
        (by rw [hrx, List.length_drop]; exact Nat.le_sub_of_add_le hlen)
      rw [hrx] at hk hq' hrest
      rw [List.length_drop] at hk
      exact ⟨_, q', by omega, hq', hpop.trans hrest⟩
    · rw [coalesce_stops (.inr hbtns)]
      rw [streamPacket_stops (s := s.withRx q) (.inr hbtns)] at hpop
      exact ⟨_, q, by omega, hq, hpop⟩

/-- The report (R262) reads the occupancy that is left. -/
theorem reaches_streamReport (s : State) (p : Port) (ms : Ms) (notes : List Note) :
    Reaches 1 (streamReport (s.engine p ms notes)) (.ret (.move (some ms.acc)), s.engine p { ms with
      prevBtns := ms.acc.btns, acc := Move.zero, lastLen := BitVec.ofNat 32 p.rx.contents.length } notes) := by
  have hread := reaches_readLen (k := .reported ms.acc)
    (s := s.engine p { ms with prevBtns := ms.acc.btns, acc := Move.zero } notes) rfl
  rw [length_contents, BitVec.ofNat_toNat, BitVec.setWidth_eq]
  exact hread

/-- The whole packets that the occupancy holds are counted. -/
theorem reaches_count {s : State} (hlen : s.ms.psize.bytes ≤ s.mouse.rx.len.toNat) :
    ∃ n, s.mouse.rx.len.toNat / s.ms.psize.bytes = n + 1 ∧
      Reaches 1 (streamCheck s.mouse.rx.len s.dated) (beginPop rxMouse (.stream n []), s.dated) := by
  have hpos := psize_pos s.ms.psize
  obtain ⟨n, hn⟩ := Nat.exists_eq_add_one.mpr (Nat.div_pos hlen hpos)
  have hne : s.mouse.rx.len ≠ 0 := fun h => by
    rw [h] at hlen
    exact absurd hlen (Nat.not_le.mpr hpos)
  have hcheck : streamCheck s.mouse.rx.len s.dated = (readLen .count, s.dated) := by
    rw [streamCheck, if_neg (fun h => Nat.not_lt.mpr hlen h.2), if_neg hne]
  have hcount : countLen s.dated.mouse.rx.len s.dated = (beginPop rxMouse (.stream n []), s.dated) := by
    rw [countLen, show s.dated.mouse.rx.len.toNat / s.dated.ms.psize.bytes = n + 1 from hn]
  exact ⟨n, hn, hcheck ▸ reaches_readLen (k := .count) hcount⟩

/-- Settles O57: the occupancy is dated, and as many whole packets as it holds are summed (`reaches_coalesced`) and
reported (`reaches_streamReport`). -/
theorem streamedPacketsAreCoalesced : Obligations.StreamedPacketsAreCoalesced := by
  intro s hs hidle hst hlen L r
  have hfuel := fgFuel_mouse s.called
  obtain ⟨m, hm, hbegin⟩ := reaches_streamCheck (s := s.called) hst
  obtain ⟨n, hn, hcount⟩ := reaches_count (s := s.called) hlen
  have hwhole : (n + 1) * s.ms.psize.bytes ≤ s.mouse.rx.contents.length := by
    rw [length_contents, ← hn]
    exact Nat.div_mul_le_self ..
  obtain ⟨k, q, hk, hq, hsum⟩ := reaches_coalesced (s := s.called.dated) (n := n) hwhole
  have hr : coalesce s.called.dated.ms.psize s.called.dated.ms.prevBtns (n + 1) s.called.dated.ms.acc
      s.called.dated.mouse.rx.contents = r := by rw [← hn]; rfl
  have hk : k ≤ s.called.mouse.rx.len.toNat := hk.trans_eq (length_contents _)
  rw [hr] at hq hsum
  have hreport := reaches_streamReport s.called.datedAt { s.mouse with rx := q }
    { s.called.dated.ms with acc := r.1 } s.notes
  obtain ⟨t, ht, hdone, hmouse, hms, hnotes, hrets⟩ := answered_of_ret (Retimed.called s).datedAt
    (p := { s.mouse with rx := q }) rfl (hbegin.trans (hcount.trans (hsum.trans hreport))) (fuel := fgFuel s.called)
    (by omega)
  rw [exec_getmove hidle]
  refine ⟨t, ht, hdone, hmouse ▸ hq, hmouse ▸ rfl, hmouse ▸ rfl, hnotes, hrets, ?_⟩
  rw [hms, ← hq]
  rfl

end Sys2Proof.Machine

/-! PROOFS. The fields of a packet as integers (spec/43_mouse.md R263 to R266), and the configuration, which no step
changes (R273). -/

namespace Sys2Proof.Machine

open Sys2Proof

/-! ## The fields of a packet (R263 to R266) -/

theorem toInt_axis (sign overflow : Bool) (d : Byte) : (axis sign overflow d).toInt =
    if overflow then (if sign then -256 else 255) else (if sign then (d.toNat : Int) - 256 else d.toNat) := by
  have hwide : (d.setWidth 16).toInt = d.toNat := by
    have hlt := d.isLt
    have hnat : (d.setWidth 16).toNat = d.toNat := BitVec.toNat_setWidth_of_le (by decide)
    rw [BitVec.toInt_eq_toNat_of_lt (by omega), hnat]
  cases overflow with
  | true => cases sign <;> rfl
  | false =>
    cases sign with
    | false => exact hwide
    | true =>
      have hlt := d.isLt
      have hbias : (256 : Half).toInt = 256 := rfl
      show (d.setWidth 16 - 256).toInt = (d.toNat : Int) - 256
      rw [BitVec.toInt_sub, hwide, hbias]
      exact Int.bmod_eq_of_le (by norm_num; omega) (by norm_num; omega)

theorem toInt_wheel (ps : PSize) (dz : Byte) : (wheel ps dz).toInt = if ps = .four then dz.toInt else 0 := by
  cases ps with
  | three => rfl
  | four => exact BitVec.toInt_signExtend_of_le (by decide)

theorem toNat_buttons (status : Byte) : (buttons status).toNat = status.toNat % 8 :=
  (BitVec.toNat_and ..).trans (Nat.and_two_pow_sub_one_eq_mod _ 3)

/-- Settles O58, field by field. -/
theorem packetDecodesToItsMovement : Obligations.PacketDecodesToItsMovement := by
  intro ps status dx dy dz pkt p moved
  cases ps with
  | three => exact ⟨toInt_axis .., toInt_axis .., toInt_wheel .three dz, toNat_buttons status⟩
  | four => exact ⟨toInt_axis .., toInt_axis .., toInt_wheel .four dz, toNat_buttons status⟩

/-! ## The configuration (R273) -/

/-- A next state has the configuration of `s`. -/
def KeepsCfg (s : State) : Host.Outcome State Fault Refusal → Prop
  | .next t => t.cfg = s.cfg
  | .fault _ => True
  | .refused _ => True

theorem KeepsCfg.ofNext {s : State} {o : Host.Outcome State Fault Refusal} (h : ∀ t, o = .next t → t.cfg = s.cfg) :
    KeepsCfg s o := by
  cases o with
  | next t => exact h t rfl
  | fault f => trivial
  | refused r => trivial

theorem KeepsCfg.trans {s u : State} {o : Host.Outcome State Fault Refusal} (h : KeepsCfg u o) (hu : u.cfg = s.cfg) :
    KeepsCfg s o := by
  cases o with
  | next t => exact Eq.trans h hu
  | fault f => trivial
  | refused r => trivial

theorem setQueue_cfg (s : State) (q : QSel) (v : Queue) : (s.setQueue q v).cfg = s.cfg := by
  cases q <;> exact setPort_cfg ..

theorem kickFor_cfg (s : State) (q : QSel) : (s.kickFor q).cfg = s.cfg := by
  cases q with
  | rx ch => rfl
  | tx ch => exact setPort_cfg ..

theorem resumePush_cfg (q : QSel) (b : Byte) (k : PushK) (ok : Bool) (s : State) :
    (resumePush q b k ok s).2.cfg = s.cfg := by
  cases k with
  | ret => rfl
  | emit rest after =>
    cases ok with
    | true => rfl
    | false => exact kickFor_cfg s q

theorem statePush_cfg (s : State) (q : QSel) (b : Byte) : (s.push q b).2.cfg = s.cfg := by
  rw [State.push]
  split
  · rfl
  · exact (publishPush_cfg ..).trans (setQueue_cfg ..)

/-- The rest of a queue operation, from any of its micro-steps. -/
theorem complete_cfg (t : Task) (s : State) : (t.complete s).2.cfg = s.cfg := by
  cases t with
  | len q k => exact (resumeLen_light ..).writes.cfg
  | now k => exact (resumeNow_light ..).writes.cfg.trans (readNow_cfg s)
  | pop ph q k => cases ph <;> exact (resumePop_light ..).writes.cfg.trans (setQueue_cfg ..)
  | push ph q b k =>
    cases ph with
    | readR => exact (resumePush_cfg ..).trans (statePush_cfg s q b)
    | writeSlot => exact (resumePush_cfg ..).trans ((publishPush_cfg ..).trans (setQueue_cfg ..))
    | publish => exact (resumePush_cfg ..).trans (publishPush_cfg s q)

theorem micro_cfg (t : Task) (s : State) : (t.micro s).2.cfg = s.cfg := by
  cases t with
  | len q k => exact complete_cfg (.len q k) s
  | now k => exact complete_cfg (.now k) s
  | pop ph q k =>
    cases ph with
    | readW =>
      simp only [Task.micro, popMicro]
      split
      · exact (resumePop_light ..).writes.cfg
      · rfl
    | readSlot => rfl
    | publish b => exact complete_cfg (.pop (.publish b) q k) s
  | push ph q b k =>
    cases ph with
    | readR =>
      simp only [Task.micro, pushMicro]
      split
      · exact resumePush_cfg ..
      · rfl
    | writeSlot => exact setQueue_cfg ..
    | publish => exact complete_cfg (.push .publish q b k) s

/-! Runs of the foreground. -/

theorem runAct_keepsCfg (fuel : Nat) (a : Act) (s : State) : KeepsCfg s (runAct fuel (a, s)) := by
  induction fuel generalizing a s with
  | zero =>
    cases a with
    | go t | wait t | ret r => rfl
    | stop f => trivial
  | succ fuel ih =>
    cases a with
    | go t =>
      show KeepsCfg s (runTask (fuel + 1) t s)
      rw [runTask_succ]
      exact (ih ..).trans (complete_cfg t s)
    | wait t => rfl
    | ret r => rfl
    | stop f => trivial

theorem settleAct_keepsCfg (a : Act) (s : State) : KeepsCfg s (settleAct (a, s)) := by
  cases a with
  | go t | wait t | ret r => rfl
  | stop f => trivial

theorem fgTurn_keepsCfg (s : State) : KeepsCfg s (fgTurn s) := by
  rw [fgTurn]
  split
  · exact runAct_keepsCfg (fgFuel s) (.go _) s
  · split
    · rfl
    · exact .ofNext fun t ht => (runOp_writes ht).cfg

theorem fgMicro_keepsCfg (s : State) : KeepsCfg s (fgMicro s) := by
  rw [fgMicro]
  split
  · exact (settleAct_keepsCfg ..).trans (micro_cfg ..)
  · split
    · rfl
    · exact (settleAct_keepsCfg ..).trans (begin_light ..).writes.cfg

/-! Instructions and inputs. -/

theorem lineInit_cfg (ch : Chan) (s : State) : (lineInit ch s).cfg = s.cfg :=
  (stopTimer_cfg ..).trans ((IsrWrites.setClk ..).fields.1.trans (IsrWrites.setData ..).fields.1)

theorem constructChannel_cfg (ch : Chan) (s : State) : (constructChannel ch s).cfg = s.cfg := by
  simp only [constructChannel, State.setKick, setPort_cfg, setQueue_cfg, lineInit_cfg, channelReset, setChn_cfg]

theorem construct_cfg (s : State) : (construct s).cfg = s.cfg := by
  simp only [construct, constructEngines, constructChannel_cfg]

theorem execReset_keepsCfg (s : State) : KeepsCfg s (execReset s) := by
  unfold execReset
  split
  · trivial
  · split
    · exact construct_cfg s
    · trivial

theorem exec_keepsCfg (i : Instr) (s : State) : KeepsCfg s (exec i s) := by
  by_cases hreset : i = .reset
  · subst hreset
    exact execReset_keepsCfg s
  · cases hop : fgOpOf i with
    | some op => exact .ofNext fun t ht => (callOp_writes ((exec_eq_callOp hop s).symm.trans ht)).cfg
    | none =>
      cases hisr : isrChanOf i with
      | some ch => exact .ofNext fun t ht => (exec_isrWrites hisr ht).fields.1
      | none =>
        rw [exec_reservedRow (isReservedRow_of_unowned hreset hop hisr)]
        trivial

theorem isrQuery_cfg {ch : Chan} {i : Instr} {f : State → State} (hf : isrQuery ch i = some f) (s : State) :
    (f s).cfg = s.cfg := by
  cases i with
  | lenRx c | fullRx c | lenTx c | fullTx c =>
    obtain ⟨_, ⟨⟩⟩ := Option.ite_none_right_eq_some.1 hf
    rfl
  | _ => cases hf

theorem execFrom_keepsCfg (c : Context) (i : Instr) (s : State) : KeepsCfg s (execFrom c i s) := by
  cases c with
  | fg =>
    rw [execFrom]
    split
    · exact exec_keepsCfg i s
    · trivial
  | isr ch =>
    rw [execFrom]
    split
    · exact isrQuery_cfg ‹_› s
    · split
      · exact exec_keepsCfg i s
      · trivial

theorem whenBuilt_keepsCfg {s : State} {o : Host.Outcome State Fault Refusal} (h : KeepsCfg s o) (i : Instr) :
    KeepsCfg s (whenBuilt i s o) := by
  rw [whenBuilt]
  split
  · exact h
  · trivial

theorem runInstr_keepsCfg (issuer : Option Context) (i : Instr) (s : State) : KeepsCfg s (runInstr issuer i s) := by
  refine whenBuilt_keepsCfg ?_ i
  cases issuer with
  | none => exact exec_keepsCfg i s
  | some c => exact execFrom_keepsCfg c i s

theorem whenForeground_keepsCfg {s : State} {o : Host.Outcome State Fault Refusal} (h : KeepsCfg s o)
    (issuer : Option Context) : KeepsCfg s (whenForeground issuer s o) := by
  unfold whenForeground
  split
  · trivial
  · split
    · exact h
    · exact h
    · trivial

theorem runCode_keepsCfg (issuer : Option Context) (c : Code) (s : State) : KeepsCfg s (runCode issuer c s) := by
  rw [runCode]
  split
  · exact runInstr_keepsCfg ..
  · split
    · trivial
    · exact runInstr_keepsCfg ..
    · exact whenForeground_keepsCfg (.ofNext fun t ht => (callOp_writes ht).cfg) issuer

theorem callInstr_keepsCfg (i : Instr) (s : State) : KeepsCfg s (callInstr i s) := by
  rw [callInstr]
  split
  · exact whenBuilt_keepsCfg (o := .next (s.held _)) (held_cfg ..) i
  · exact runInstr_keepsCfg ..

theorem runCall_keepsCfg (c : Code) (s : State) : KeepsCfg s (runCall c s) := by
  rw [runCall]
  split
  · exact callInstr_keepsCfg ..
  · split
    · trivial
    · exact callInstr_keepsCfg ..
    · exact whenForeground_keepsCfg (o := .next (s.held _)) (held_cfg ..) _

theorem runInput_keepsCfg (i : Input) (s : State) : KeepsCfg s (runInput i s) := by
  cases i with
  | code issuer c => exact runCode_keepsCfg issuer c s
  | line i => exact runInstr_keepsCfg none i s
  | time t => rfl
  | call c => exact runCall_keepsCfg c s
  | fg => exact fgMicro_keepsCfg s

/-- Settles O59: a step is a turn of the foreground or one input, and each keeps the configuration. -/
theorem configurationNeverChanges : Obligations.ConfigurationNeverChanges := by
  intro s t ht
  have hkeeps : KeepsCfg s (step s) := by
    cases htape : s.tape with
    | nil => exact step_nil htape ▸ fgTurn_keepsCfg s
    | cons i rest => exact step_cons htape ▸ runInput_keepsCfg i { s with tape := rest }
  rwa [ht] at hkeeps

end Sys2Proof.Machine

/-! PROOFS. The frame of each context (spec/60_exceptions.md R321, R325, 10_state.md R41, R44, R51): `IsrWrites` and
`FgWrites` hold of every instruction, and the micro-steps of an operation other than `get_move` leave the mouse engine
as it is. -/

namespace Sys2Proof.Machine

open Sys2Proof

/-! ## The interrupt side -/

/-- Settles O29: each row of an interrupt context is a queue operation or a sequence of handler runs, and
`exec_isrWrites` is the case split over them. -/
theorem interruptSideFrame : Obligations.InterruptSideFrame :=
  fun _ _ _ _ hisr h => exec_isrWrites hisr h

/-! ## Micro-steps that leave the mouse engine as it is (R51) -/

theorem setQueue_ms (s : State) (q : QSel) (v : Queue) : (s.setQueue q v).ms = s.ms := by
  cases q <;> exact setPort_ms ..

theorem kickFor_ms (s : State) (q : QSel) : (s.kickFor q).ms = s.ms := by
  cases q with
  | rx ch => rfl
  | tx ch => exact setPort_ms ..

theorem publishPush_ms (s : State) (q : QSel) : (s.publishPush q).ms = s.ms :=
  (kickFor_ms ..).trans (setQueue_ms ..)

theorem statePush_ms (s : State) (q : QSel) (b : Byte) : (s.push q b).2.ms = s.ms := by
  rw [State.push]
  split
  · rfl
  · exact (publishPush_ms ..).trans (setQueue_ms ..)

/-- What follows a sequence of emits is not the end of a `send` (R271). -/
def After.sparesMs : After → Bool
  | .stamp _ => false
  | .ret | .retNone | .nextChar _ => true

/-- A micro-step whose result the mouse engine has no use for. -/
def Task.sparesMs : Task → Bool
  | .len _ .ret | .len _ .retFull | .pop _ _ .ret | .pop _ _ (.nextChar _) | .push _ _ _ .ret => true
  | .push _ _ _ (.emit _ a) => a.sparesMs
  | .len _ _ | .pop _ _ _ | .now _ => false

/-- A computation goes on with such a micro-step, or ends. -/
def Act.sparesMs : Act → Bool
  | .go t | .wait t => t.sparesMs
  | .ret _ | .stop _ => true

/-- A computation leaves the mouse engine as it is, and so does what it goes on with. -/
structure SparesMs (s : State) (r : Act × State) : Prop where
  ms  : r.2.ms = s.ms
  act : r.1.sparesMs = true

theorem SparesMs.after {s u : State} {r : Act × State} (h : SparesMs u r) (hu : u.ms = s.ms) : SparesMs s r :=
  ⟨h.ms.trans hu, h.act⟩

theorem emitNext_sparesMs (ch : Chan) (bs : List Byte) {a : After} (h : a.sparesMs = true) :
    (emitNext ch bs a).sparesMs = true := by
  cases bs with
  | nil =>
    cases a with
    | stamp t => cases h
    | ret | retNone | nextChar p => rfl
  | cons b bs => exact h

theorem charReturn_sparesMs (s : State) (p : Bool) (o : Option Byte) : SparesMs s (charReturn p o s) := by
  cases p with
  | false => exact ⟨rfl, rfl⟩
  | true => cases o <;> exact ⟨rfl, rfl⟩

theorem resumeNextChar_sparesMs (s : State) (p : Bool) (ob : Option Byte) : SparesMs s (resumeNextChar p ob s) := by
  cases ob with
  | none => exact charReturn_sparesMs s p none
  | some c =>
    rw [resumeNextChar]
    dsimp only
    split
    · exact (charReturn_sparesMs ..).after rfl
    · exact ⟨rfl, rfl⟩
    · exact ⟨rfl, rfl⟩

theorem resumePop_sparesMs (s : State) {ph : PopPhase} {q : QSel} {k : PopK} (h : (Task.pop ph q k).sparesMs = true)
    (ob : Option Byte) : SparesMs s (resumePop k ob s) := by
  cases k with
  | ret => exact ⟨rfl, rfl⟩
  | nextChar p => exact resumeNextChar_sparesMs s p ob
  | _ => cases h  -- a pop of the mouse engine

theorem resumePush_sparesMs (s : State) {ph : PushPhase} {q : QSel} {b : Byte} {k : PushK}
    (h : (Task.push ph q b k).sparesMs = true) (ok : Bool) : SparesMs s (resumePush q b k ok s) := by
  cases k with
  | ret => exact ⟨rfl, rfl⟩
  | emit rest a =>
    cases ok with
    | true => exact ⟨rfl, emitNext_sparesMs _ rest h⟩
    | false => exact ⟨kickFor_ms s q, h⟩

/-- The rest of a queue operation, from any of its micro-steps. -/
theorem complete_sparesMs (s : State) {t : Task} (h : t.sparesMs = true) : SparesMs s (t.complete s) := by
  cases t with
  | len q k =>
    cases k with
    | ret | retFull => exact ⟨rfl, rfl⟩
    | _ => cases h  -- a length read by the mouse engine
  | now k => cases h
  | pop ph q k => cases ph <;> exact (resumePop_sparesMs _ h _).after (setQueue_ms ..)
  | push ph q b k =>
    cases ph with
    | readR => exact (resumePush_sparesMs _ h _).after (statePush_ms s q b)
    | writeSlot => exact (resumePush_sparesMs _ h _).after ((publishPush_ms ..).trans (setQueue_ms ..))
    | publish => exact (resumePush_sparesMs _ h _).after (publishPush_ms s q)

theorem begin_sparesMs (s : State) {op : FgOp} (hop : op ≠ .getMove) : SparesMs s (op.begin s) := by
  cases op with
  | getMove => exact absurd rfl hop
  | keyPeek =>
    rw [FgOp.begin, beginKeyPeek]
    split <;> exact ⟨rfl, rfl⟩
  | getKey =>
    rw [FgOp.begin, beginGetKey]
    split <;> exact ⟨rfl, rfl⟩
  | decodeByte c =>
    rw [FgOp.begin, beginDecodeByte]
    dsimp only
    split <;> exact ⟨rfl, rfl⟩
  | popRx ch | len q | full q | pushTx ch b | emit ch b | getScancode | lockStatus | ctrlStatus | setLocks m =>
    exact ⟨rfl, rfl⟩

/-! ## The foreground -/

theorem runAct_ms {fuel : Nat} {a : Act} {s u : State} (ha : a.sparesMs = true)
    (h : runAct fuel (a, s) = .next u) : u.ms = s.ms := by
  induction fuel generalizing a s with
  | zero =>
    cases a with
    | go t | wait t | ret r => cases h; rfl
    | stop f => cases h
  | succ fuel ih =>
    cases a with
    | go t =>
      have hc := complete_sparesMs s ha
      have hrun : runAct fuel (t.complete s) = .next u := (runTask_succ fuel t s).symm.trans h
      exact (ih hc.act hrun).trans hc.ms
    | wait t | ret r => cases h; rfl
    | stop f => cases h

/-- A called operation other than `get_move` leaves the mouse engine as it is (R51). -/
theorem callOp_ms {op : FgOp} {s u : State} (hop : op ≠ .getMove) (h : callOp op s = .next u) : u.ms = s.ms := by
  rw [callOp] at h
  split at h
  · have hb := begin_sparesMs s.called hop
    exact (runAct_ms hb.act h).trans hb.ms
  · cases h
    rfl

theorem eq_getmove_of_fgOpOf {i : Instr} (h : fgOpOf i = some .getMove) : i = .getmove := by
  cases i with
  | getmove => rfl
  | _ => cases h

/-- Settles O30: the operation's frame is `callOp_writes`, and only `get_move` has a micro-step for the mouse engine. -/
theorem foregroundFrame : Obligations.ForegroundFrame := by
  intro i op s t hop h
  rw [exec_eq_callOp hop] at h
  refine ⟨callOp_writes h, fun hi => callOp_ms ?_ h⟩
  rintro rfl
  exact hi (eq_getmove_of_fgOpOf hop)

end Sys2Proof.Machine

/-! PROOFS. Construction and ownership (spec/70_reset_and_hazards.md R340 to R350): RESET writes the reset value of
every field and establishes the invariant, and a stimulus is refused to every context that does not own it. -/

namespace Sys2Proof.Machine

open Sys2Proof

/-! ## Ownership (R348, R350) -/

/-- No instruction has two owners: what calls a foreground operation belongs to no interrupt context. -/
theorem isrChanOf_eq_none_of_fgOpOf {i : Instr} {op : FgOp} (hop : fgOpOf i = some op) : isrChanOf i = none := by
  cases i with
  | edge | timer | kick | pushRx | popTx | rxbyte | rxframe | txclock | settle | pulse | frameD2H | frameH2D
  | mouseStatus | replyAck | replySelftest | replyId0OrReset3 | replyId3 => cases hop
  | _ => rfl

theorem fgOpOf_eq_none_of_isrChanOf {i : Instr} {ch : Chan} (hisr : isrChanOf i = some ch) : fgOpOf i = none :=
  Option.eq_none_iff_forall_ne_some.2 fun _ hop => by simp [isrChanOf_eq_none_of_fgOpOf hop] at hisr

/-- The queue queries that a handler may issue are the foreground's own rows. -/
theorem isrQuery_eq_none_of_isrChanOf {i : Instr} {ch : Chan} (hisr : isrChanOf i = some ch) (ch' : Chan) :
    isrQuery ch' i = none := by
  cases i with
  | lenRx | fullRx | lenTx | fullTx => cases hisr
  | _ => rfl

/-- Settles O9: by `isrChanOf_eq_none_of_fgOpOf` what the foreground owns is no handler's, and the application's call
of what a handler owns is the foreground's issue of it. -/
theorem wrongContextIsRefused : Obligations.WrongContextIsRefused := by
  refine ⟨fun i op ch s hop hq => ?_, fun i ch ch' s hisr => ⟨execFrom_fg_refused hisr s, fun hne => ?_,
    fun c hd hbuilt => ?_⟩⟩
  · exact execFrom_isr_refused hq (by simp [isrChanOf_eq_none_of_fgOpOf hop]) s
  · exact execFrom_isr_refused (isrQuery_eq_none_of_isrChanOf hisr ch') (by simp [hisr, hne.symm]) s
  · rw [runCall_eq_runInstr hd (fgOpOf_eq_none_of_isrChanOf hisr), runInstr_built (.inl hbuilt)]
    exact execFrom_fg_refused hisr s

/-! ## What construction writes (R340 to R344) -/

/-- The steps of one channel give it the port of a new block and release its data line, then its clock line. -/
theorem constructChannel_eq (ch : Chan) (s : State) : constructChannel ch s =
    { s.setPort ch (Port.reset (capOf s.cfg (.rx ch)) (capOf s.cfg (.tx ch))) with
      wire := s.wire ++ [.latch (.data ch) .rel, .latch (.clk ch) .rel] } := by
  cases ch <;> simp [constructChannel, lineInit, channelReset, State.stopTimer, setLine_clk, setLine_data, setChn_eq,
    setKick_eq, chn_eq, Port.reset, Channel.reset]

/-- Construction as one update: what it does not name, the observation but the line releases, the timebase and the tape
among it, stays. -/
theorem construct_eq (s : State) : construct s =
    { s with
      built := true
      kbd := Port.reset s.cfg.capRxKbd s.cfg.capTxKbd
      mouse := Port.reset s.cfg.capRxMouse s.cfg.capTxMouse
      kb := Kb.reset
      ms := Ms.reset
      fg := none
      calls := []
      wire := s.wire ++ constructionWire } := by
  simp only [construct, constructEngines, constructChannel_eq, setPort_kbd, setPort_mouse, List.append_assoc]
  rfl

@[simp] theorem construct_port (s : State) (ch : Chan) :
    (construct s).port ch = Port.reset (capOf s.cfg (.rx ch)) (capOf s.cfg (.tx ch)) := by
  rw [construct_eq]
  cases ch <;> rfl

@[simp] theorem construct_chn (s : State) (ch : Chan) : (construct s).chn ch = Channel.reset := by
  rw [chn_eq, construct_port]
  rfl

@[simp] theorem construct_queue (s : State) (q : QSel) : (construct s).queue q = Queue.empty (capOf s.cfg q) := by
  cases q with
  | rx ch => rw [queue_rx, construct_port]; rfl
  | tx ch => rw [queue_tx, construct_port]; rfl

/-- RESET answers a block exactly before construction and with a configuration that validates, and then the block it
constructs. -/
theorem execReset_eq_next {s t : State} :
    execReset s = .next t ↔ s.built = false ∧ validCfg s.cfg = true ∧ construct s = t := by
  unfold execReset
  split
  case isTrue hbuilt => simp [hbuilt]
  case isFalse hbuilt =>
    split
    case isTrue hvalid => simp [hbuilt, hvalid]
    case isFalse hvalid => simp [hvalid]

/-- A configuration that fails validation gives no block (R345). -/
theorem execReset_invalid {s : State} (hbuilt : s.built = false) (hvalid : validCfg s.cfg = false) :
    execReset s = .refused .constructionError := by
  simp [execReset, hbuilt, hvalid]

/-- Settles O10: `construct_eq` says what construction writes, field by field. -/
theorem resetConstructsTheBlock : Obligations.ResetConstructsTheBlock := by
  refine fun s => ⟨fun hbuilt hvalid => ⟨construct s, execReset_eq_next.2 ⟨hbuilt, hvalid, rfl⟩, ?_⟩,
    execReset_invalid, execReset_built⟩
  refine ⟨rfl, construct_cfg s, fun ch => ?_, fun q => ?_, ?_⟩
  · rw [construct_chn, construct_port]
    exact ⟨rfl, rfl, rfl, rfl, rfl, rfl, rfl, rfl, rfl⟩
  · rw [construct_queue]
    exact ⟨rfl, rfl, rfl⟩
  · rw [construct_eq]
    exact ⟨rfl, rfl, rfl, rfl, rfl, rfl⟩

/-! ## The invariant after construction -/

theorem ChannelOk.reset : ChannelOk Channel.reset where
  legal := rfl
  timer := rfl
  lines := rfl

theorem KbOk.reset : KbOk Kb.reset where
  mods := rfl
  locks := rfl

/-- The engine starts in stage `U`, which every policy has (R343). -/
theorem MsOk.reset (p : Policy) : MsOk p Ms.reset where
  stage := stageFits_U p
  btns := rfl
  acc := zero_btns

/-- A valid configuration has four legal capacities, so the new block's queues are legal; no operation is in
progress. -/
theorem construct_inv {s : State} (hvalid : validCfg s.cfg = true) : StateOk (construct s) where
  base := {
    built := rfl
    cfg := (construct_cfg s).symm ▸ hvalid
    chn := fun ch => (construct_chn s ch).symm ▸ ChannelOk.reset
    queue := fun q => by
      rw [construct_cfg, construct_queue]
      exact .empty (((validCfg_iff s.cfg).1 hvalid).1 q)
    kb := KbOk.reset
    ms := MsOk.reset _ }
  fg := nofun

/-- The block right after construction is what construction makes of an unbuilt one. -/
theorem construct_unbuilt (cfg : Cfg) : construct (State.unbuilt cfg) = State.constructed cfg := rfl

/-- Settles O12: RESET answers only what it constructs from a valid configuration, and the reset state is so
constructed. -/
theorem invariantHoldsAtReset : Obligations.InvariantHoldsAtReset := by
  have hreset : construct (State.unbuilt Config.fixture) = State.reset := construct_unbuilt Config.fixture
  refine ⟨hreset ▸ construct_inv (by decide), fun s t ht => ?_⟩
  obtain ⟨-, hvalid, rfl⟩ := execReset_eq_next.1 ht
  exact construct_inv hvalid

end Sys2Proof.Machine

/-! PROOFS. Disabled sources (spec/60_exceptions.md R317, log 8): an expiry whose timer is not armed and a kick that is
not pending run no handler. -/

namespace Sys2Proof.Machine

open Sys2Proof

theorem timerHandler_disarmed {ch : Chan} {s : State} (h : (s.chn ch).timerArmed = false) :
    timerHandler ch s = .next s :=
  takeInterrupt_disabled (irq := .timer ch) _ h

theorem kickHandler_notPending {ch : Chan} {s : State} (h : (s.port ch).kickPend = false) :
    kickHandler ch s = .next s :=
  takeInterrupt_disabled (irq := .kick ch) _ h

/-- Settles O24: TIMER, SETTLE and PULSE are the timer handler and KICK is the kick handler, and neither handler is
entered while its source is not enabled (`takeInterrupt_disabled`). -/
theorem disabledSourceChangesNothing : Obligations.DisabledSourceChangesNothing := by
  intro ch s
  refine ⟨fun harmed => ?_, fun hkick => kickHandler_notPending hkick⟩
  have hexpiry : timerHandler ch s = .next s := timerHandler_disarmed harmed
  refine ⟨?_, ?_, ?_⟩
  · exact (exec_of_timer_or_settle (.inl rfl) s).trans hexpiry
  · exact (exec_of_timer_or_settle (.inr rfl) s).trans hexpiry
  · exact (exec_of_timer_or_pulse (.inr rfl) s).trans hexpiry

end Sys2Proof.Machine
